-- ==== Sys2Proof/Word.lean ====
section
/-! DEFINITION. The byte, the pixel, and the plainest arithmetic on them (spec 00_scope R9).
Everything wider than a byte is a natural number: "exact integer arithmetic on natural numbers". -/

namespace Sys2Proof

/-- A byte: an unsigned integer 0 to 255 (R9). Every buffer element, token byte and channel is one. -/
abbrev Byte := BitVec 8

/-- A pixel: "a fixed-size tuple of channel bytes (red, green, blue)" (R41). -/
structure Rgb where
  red : Byte
  green : Byte
  blue : Byte
  deriving DecidableEq, Repr, Inhabited

/-- The byte whose unsigned value is `n` modulo 256. -/
def byteOf (n : Nat) : Byte := BitVec.ofNat 8 n

end Sys2Proof
end

