-- ==== Sys2Proof/Config.lean ====
section
/-! DEFINITION. The constants the spec fixes (00_scope R7), the parameters it takes (R8), and the free values:
constants with no body, about which nothing can be proved but that they are bytes, pixels or numbers. -/

namespace Sys2Proof.Config

/-- `PAL_MAX`, most palette entries (R7). -/
@[simp] def palMax : Nat := 128
/-- `BPP`, bytes per pixel in a pixel buffer (R7). -/
@[simp] def bpp : Nat := 3
/-- `RUN_MAX`, longest run one token expresses (R7). -/
@[simp] def runMax : Nat := 383
/-- `SHORT_MAX`, longest run encoded as RUNS (R7). -/
@[simp] def shortMax : Nat := 127
/-- `EXT_MAX`, longest run encoded as RUNX (R7). -/
@[simp] def extMax : Nat := 255
/-- `LONG_MIN`, shortest run of a RUNL (R7). -/
@[simp] def longMin : Nat := 256
/-- `TAG_BIT`: a first byte at or above this is a tag (R7). -/
@[simp] def tagBit : Nat := 0x80
/-- `TAG_EXT`, first byte of RUNX (R7). -/
@[simp] def tagExt : Byte := 0x81
/-- `TAG_LONG`, first byte of RUNL (R7), shared with RUNS of length 2 (R76). -/
@[simp] def tagLong : Byte := 0x82
/-- `MAX_W`, checked by the façade, not by the block (R7). -/
@[simp] def maxW : Nat := 320
/-- `MAX_H`, checked by the façade, not by the block (R7). -/
@[simp] def maxH : Nat := 90
/-- `PAYLOAD_WARN`, compressed length above which the warning is raised (R7). -/
@[simp] def payloadWarn : Nat := 8192
/-- `HDR_LEN`, bytes of the fixed file preamble (R7, context). -/
@[simp] def hdrLen : Nat := 30
/-- `PAL_ENTRY_LEN`, bytes per palette entry in the file (R7, context). -/
@[simp] def palEntryLen : Nat := 4

/-- The number of values a cursor or length register of `CW` = 32 bits can hold, 2^32 (R8). -/
@[simp] def cwRange : Nat := 4294967296
/-- `LEN_MAX` = 2^24, the largest length a START may carry (R8). -/
@[simp] def lenMax : Nat := 16777216

/-- `N_INST` less one: how many further instances of the block exist is OPEN, "at least 1" in all (R8, R205). -/
opaque moreInstances : Nat

/-- `N_INST` (R8). -/
def nInst : Nat := moreInstances + 1

/-- FREE VALUE (log entry 9). What the host reads from a byte that holds no defined value (93 U3, U5, U8): one value
per draw number, byte array and index. -/
opaque freeByte : Nat → Nat → Nat → Byte

/-- FREE VALUE (log entry 9). What the host reads from a palette slot that holds no defined value (93 U5, U6): one
value per draw number, slot, and whether the call has filled the slot. -/
opaque freePixel : Nat → Nat → Bool → Rgb

/-- FREE VALUE (log entry 10). What a `CW`-bit operand register of PQ holds after a START whose operand it cannot hold,
by draw number and operand (false the width, true the height): a number of 32 bits, and nothing more is known. -/
opaque freeOperand : Nat → Bool → BitVec 32

end Sys2Proof.Config
end

