-- ==== Sys2Proof/Syntax.lean ====
section
/-! DEFINITION. The instructions: the four tokens of the MR run-length language (spec 30_encoding R60). The opcode
table has eleven rows and four mnemonics; its eight RUNS rows are disjoint byte ranges of one token (R75). -/

namespace Sys2Proof

/-- A token: "`r` copies of byte `v`" (R60), in the notation of R72. -/
inductive Instr where
  /-- `LIT v`, one byte (R61). -/
  | lit (v : Byte)
  /-- `RUNS r, v`, two bytes (R62). -/
  | runs (r : Nat) (v : Byte)
  /-- `RUNX r, v`, three bytes (R63). -/
  | runx (r : Nat) (v : Byte)
  /-- `RUNL r, v`, three bytes (R64). -/
  | runl (r : Nat) (v : Byte)
  deriving DecidableEq, Repr

/-- The four token kinds, the source's "{Literal, ShortRun, ExtendedRun, LongRun}" (R60). -/
inductive TokenKind where
  | literal | shortRun | extendedRun | longRun
  deriving DecidableEq, Repr

/-- The kind of a token. -/
def Instr.kind : Instr → TokenKind
  | .lit _ => .literal
  | .runs _ _ => .shortRun
  | .runx _ _ => .extendedRun
  | .runl _ _ => .longRun

/-- One row of opcode_table.json (R75): it applies to the key `K = b0 × 256 + b1` when `K & mask = pat`. -/
structure OpRow where
  kind : TokenKind
  pat : BitVec 16
  mask : BitVec 16
  /-- The token's byte count. -/
  length : Nat
  deriving DecidableEq, Repr

/-- Why a byte string does not begin with a whole token: the stream ends inside it (42 R130). No bit pattern is
illegal (R68). -/
inductive DecodeError where
  /-- No first byte. -/
  | noToken
  /-- A tag, and no second byte. -/
  | noSecondByte
  /-- A three-byte token, and no third byte. -/
  | noThirdByte
  deriving DecidableEq, Repr

end Sys2Proof
end

