-- ==== Sys2Proof/WellFormed.lean ====
section
/-! DEFINITION. Which tokens exist: the constraint column of spec 30_encoding R72 (ranges of R61 to R64). -/

namespace Sys2Proof

/-- A token some byte string encodes (R72). -/
def Instr.wellFormed : Instr → Bool
  | .lit v => decide (v.toNat < 0x80)
  | .runs r v => decide (r = 0 ∨ (2 ≤ r ∧ r ≤ 127)) && decide (r = 2 → v.toNat < 0x80)
  | .runx r _ => decide (r ≤ 255)
  | .runl r _ => decide (256 ≤ r ∧ r ≤ 383)

end Sys2Proof
end

