-- ==== Sys2Proof/Decode.lean ====
section
/-! DEFINITION. The decoder (spec 30_encoding R65, R66), total on any bytes, the encoder (R72), the opcode table as
data (R75), and the reading of a table word. -/

namespace Sys2Proof

/-- The token at the head of a byte string, with the bytes after it (R65). The tests are made in the order R65 gives;
`b1` is looked at only for a tag, the third byte only for RUNX and RUNL (42 R122). -/
def decode : List Byte → Except DecodeError (Instr × List Byte)
  | [] => .error .noToken
  | b0 :: t0 =>
    if b0.toNat < 0x80 then .ok (.lit b0, t0)
    else match t0 with
      | [] => .error .noSecondByte
      | b1 :: t1 =>
        if b0 = 0x81#8 then
          match t1 with
          | [] => .error .noThirdByte
          | b2 :: t2 => .ok (.runx b1.toNat b2, t2)
        else if b0 = 0x82#8 ∧ 0x80 ≤ b1.toNat then
          match t1 with
          | [] => .error .noThirdByte
          | b2 :: t2 => .ok (.runl (b1.toNat - 0x80 + 256) b2, t2)
        else .ok (.runs (b0.toNat - 0x80) b1, t1)

/-- The bytes of a token, first byte first (R72). -/
def encode : Instr → List Byte
  | .lit v => [v]
  | .runs r v => [0x80#8 ||| byteOf r, v]
  | .runx r v => [0x81#8, byteOf r, v]
  | .runl r v => [0x82#8, 0x80#8 ||| byteOf (r - 256), v]

/-- The tokens of a whole stream, or the index of its truncated token (42 R137: "Parse `s` from index 0"). `fuel` is at
least the number of bytes, `p` the index of the first of them. -/
def decodeStream : (fuel p : Nat) → List Byte → Except Nat (List Instr)
  | _, _, [] => .ok []
  | 0, p, _ :: _ => .error p
  | fuel + 1, p, b :: bs =>
    match decode (b :: bs) with
    | .error _ => .error p
    | .ok (i, rest) =>
      match decodeStream fuel (p + (encode i).length) rest with
      | .error q => .error q
      | .ok is => .ok (i :: is)

/-- The bytes of a whole stream: its tokens' bytes with nothing between them (20 R43). -/
def encodeStream (is : List Instr) : List Byte := is.flatMap encode

/-- The pseudo-token `RUN r, v`: the token RE emits for that run (R73). -/
def runToken (r : Nat) (v : Byte) : Instr :=
  if r ≤ 1 then .lit v
  else if r ≤ Config.shortMax then .runs r v
  else if r ≤ Config.extMax then .runx r v
  else .runl r v

/-- opcode_table.json, row by row in its order (R75). -/
def opcodeRows : List OpRow :=
  [⟨.literal, 0x0000, 0x8000, 1⟩,
   ⟨.shortRun, 0x8000, 0xFF00, 2⟩,
   ⟨.extendedRun, 0x8100, 0xFF00, 3⟩,
   ⟨.shortRun, 0x8200, 0xFF80, 2⟩,
   ⟨.longRun, 0x8280, 0xFF80, 3⟩,
   ⟨.shortRun, 0x8300, 0xFF00, 2⟩,
   ⟨.shortRun, 0x8400, 0xFC00, 2⟩,
   ⟨.shortRun, 0x8800, 0xF800, 2⟩,
   ⟨.shortRun, 0x9000, 0xF000, 2⟩,
   ⟨.shortRun, 0xA000, 0xE000, 2⟩,
   ⟨.shortRun, 0xC000, 0xC000, 2⟩]

/-- Whether a row applies to a first byte and the byte after it (R75). -/
def OpRow.applies (row : OpRow) (b0 b1 : Byte) : Bool := (b0 ++ b1) &&& row.mask == row.pat

/-- The rows that apply to a first byte and the byte after it. -/
def rowsFor (b0 b1 : Byte) : List OpRow := opcodeRows.filter (fun row => row.applies b0 b1)

/-- The three bytes (the longest token) of an instruction whose table bits are `w` (log entry 3). The table's key is the
16-bit word `K = b0 × 256 + b1` (R75), so `b0` is bits 15..8 and `b1` bits 7..0; a third byte's bits count on from it,
23..16. A row given a single byte has it in bits 7..0. Bits above `nbits` are 0. -/
def tableBytes (nbits w : Nat) : List Byte :=
  let x := w % 2 ^ nbits
  if nbits ≤ 8 then [byteOf x, 0, 0]
  else [byteOf (x / 256), byteOf x, byteOf (x / 65536)]

/-- The instruction the decoder reads from a table word. -/
def decodeTableWord (nbits w : Nat) : Option Instr :=
  match decode (tableBytes nbits w) with
  | .ok (i, _) => some i
  | .error _ => none

end Sys2Proof
end

