-- ==== Sys2Proof/Machine/State.lean ====
section
/-! DEFINITION. The state of the block as plain data: the registers of PQ, RE and RD (spec 10_state R17, R20, R21), the
buffer spaces (20_memory R40), and the model's own fields `agenda` and `draws`. Cursors and lengths are natural
numbers, as 00_scope R8 allows and 42 R141 justifies (log entry 4). -/

namespace Sys2Proof.Machine

/-- The values of `U.st` (R11). -/
inductive UnitState where
  /-- No call since reset. -/
  | idle
  /-- A call is running and the unit owns its buffers. -/
  | busy
  /-- The last call completed. -/
  | done
  /-- The last call ended with an error kind. -/
  | err
  deriving DecidableEq, Repr

/-- The error kinds, a closed list (60 R185). The last three are raised outside the block (R192). -/
inductive ErrKind where
  | noError | paletteOverflow | malformedStream | dimensionTooLarge | badMagic | truncatedFile
  deriving DecidableEq, Repr

/-- PQ's registers (R16, R17). -/
structure PqRegs where
  st : UnitState
  w : Nat
  h : Nat
  n : Nat
  i : Nat
  pcount : Nat
  pal : Vector Rgb 128
  err : ErrKind
  einfo : Nat
  deriving DecidableEq, Repr

/-- RE's registers (R20). -/
structure ReRegs where
  st : UnitState
  n : Nat
  cur : Nat
  wo : Nat
  warn : Bool
  deriving DecidableEq, Repr

/-- RD's registers (R21). `rd` is the program counter (R24). -/
structure RdRegs where
  st : UnitState
  clen : Nat
  olen : Nat
  rd : Nat
  wr : Nat
  err : ErrKind
  einfo : Nat
  deriving DecidableEq, Repr

/-- The contents of a byte array: the bytes that hold a defined value, by index. An index that is not listed holds no
defined value (93 U3, U5, U8; log entry 6). -/
abbrev Memory := List Host.Cell

/-- The model's own: the indices from `lo` up to `hi` of a byte array lost their defined value at draw number `draw`
(log entries 8, 9). -/
structure Loss where
  lo : Nat
  hi : Nat
  draw : Nat
  deriving DecidableEq, Repr

/-- A byte array the host provides: its length and its contents (R40). -/
structure Buffer where
  len : Nat
  mem : Memory
  /-- The model's own: the draw number of the bytes nothing has been placed in since the array was provided, or since
  reset (log entry 9). -/
  draw : Nat
  /-- The model's own: the losses since then, the latest first (log entry 9). -/
  losses : List Loss
  deriving DecidableEq, Repr

/-- The three units (R10). -/
inductive UnitId where
  | pq | re | rd
  deriving DecidableEq, Repr

/-- The six buffer spaces (R40). -/
inductive SpaceId where
  | pqPix | pqIdx | reSrc | reDst | rdSrc | rdDst
  deriving DecidableEq, Repr

/-- The name of a byte array of the host. Six are enough for six spaces (log entry 7). -/
abbrev StoreId := Fin 6

/-- Which byte array each space is. Two spaces are the same storage exactly when their names are equal (R40, R46). -/
structure Bindings where
  pqPix : StoreId
  pqIdx : StoreId
  reSrc : StoreId
  reDst : StoreId
  rdSrc : StoreId
  rdDst : StoreId
  deriving DecidableEq, Repr

/-- What the host can do to the block (70 R212, R213; 20 R46; 70 R210). -/
inductive HostOp where
  /-- `PQ.START(W, H)` (40 R81). -/
  | pqStart (w h : Nat)
  /-- `RE.START(n)` (41 R101). -/
  | reStart (n : Nat)
  /-- `RD.START(clen, olen)` (42 R121). -/
  | rdStart (clen olen : Nat)
  /-- Provide a byte array of a length, its contents not defined. -/
  | provide (k : StoreId) (len : Nat)
  /-- Place bytes into a byte array from an index on. -/
  | place (k : StoreId) (pos : Nat) (bytes : List Byte)
  /-- Make a space a byte array: the hand-off of R46. -/
  | handOver (sp : SpaceId) (k : StoreId)
  /-- The reset event (70 R210, R222). -/
  | resetEvent
  deriving DecidableEq, Repr

/-- One event of the block: a step of a unit, or an operation of the host. -/
inductive Event where
  | unit (u : UnitId)
  | host (op : HostOp)
  deriving DecidableEq, Repr

/-- The whole state. -/
structure State where
  pq : PqRegs
  re : ReRegs
  rd : RdRegs
  /-- The byte arrays of the host. -/
  bufs : Vector Buffer 6
  /-- Which of them each space is. -/
  bind : Bindings
  /-- The model's own: the events still to come, in their order (log entry 1). -/
  agenda : List Event
  /-- The model's own: the counter of free values (log entry 9). -/
  draws : Nat
  /-- The model's own: the draw number of PQ's latest call, or of the latest reset event (log entry 9). -/
  pqDraw : Nat
  deriving DecidableEq, Repr

/-- Why the machine stops with a fault. None happens in a call that START accepted (20 R44). -/
inductive Fault where
  /-- A unit step, or a read by the host, reaches an index at or beyond the end of its byte array (R44). SAFE. -/
  | outOfSpace
  /-- A unit step reads a byte that holds no defined value (93 U8; log entry 6). SAFE. -/
  | unplacedByte
  /-- A BUSY unit's cursor lies beyond its limit, where no STEP rule applies (log entry 11). SAFE. -/
  | cursorPastLimit
  deriving DecidableEq, Repr

/-- Why an operation has no meaning. -/
inductive Refusal where
  /-- An instruction whose meaning is not written. SAFE. -/
  | notModelled (mnemonic : String)
  /-- START while BUSY, raised by the three STARTs (70 R218). SAFE. -/
  | startWhileBusy
  /-- START with a length above `LEN_MAX` (70 R219). SAFE. -/
  | lengthAboveMax
  /-- `PQ.START`, or the façade's encode, with a pixel buffer that is not 3 W H bytes long (20 R41, 70 R219). SAFE. -/
  | pixelBufferLength
  /-- START with a space smaller than R44 requires (70 R219). SAFE. -/
  | spaceTooSmall
  /-- START with spaces that share storage (20 R55, 70 R220). SAFE. -/
  | spacesOverlap
  /-- START with input the host has not placed (70 R212). SAFE. -/
  | inputNotPlaced
  /-- `RE.START` on an input with a byte of 0x80 or more (41 R113). SAFE. -/
  | sourceByteAbove7F
  /-- A host operation that touches a space of a BUSY unit (20 R46, 70 R216). SAFE. -/
  | busySpaceTouched
  /-- The host places bytes outside a byte array it provides (20 R40). SAFE. -/
  | placeOutsideArray
  /-- A file record whose payload overlaps its palette (43 R159), outside the block. SAFE. -/
  | payloadInsidePalette
  /-- A palette lookup of an index with no entry, or of a byte never written (44 R177), outside the block. SAFE. -/
  | noPaletteEntry
  deriving DecidableEq, Repr

/-- The block right after reset (R31, 70 R210): every `st` IDLE. Every other value is the model's own choice, since the
spec gives none (log entries 5, 6, 7): registers 0, no palette slot set, byte arrays of length 0, each space its own
array; nothing pending. -/
def State.reset : State where
  pq := ⟨.idle, 0, 0, 0, 0, 0, Vector.replicate 128 ⟨0, 0, 0⟩, .noError, 0⟩
  re := ⟨.idle, 0, 0, 0, false⟩
  rd := ⟨.idle, 0, 0, 0, 0, .noError, 0⟩
  bufs := Vector.replicate 6 ⟨0, [], 0, []⟩
  bind := ⟨0, 1, 2, 3, 4, 5⟩
  agenda := []
  draws := 0
  pqDraw := 0

end Sys2Proof.Machine
end

