-- ==== Sys2Proof/Machine/Flags.lean ====
section
/-! DEFINITION. Status computations. The block has no condition codes (spec 10_state R27); its status is `U.st`, the
error codes and RE's warning flag. -/

namespace Sys2Proof.Machine

/-- The number a state register holds (R11). -/
def UnitState.code : UnitState → Nat
  | .idle => 0
  | .busy => 1
  | .done => 2
  | .err => 3

/-- The number an error register holds (60 R185). -/
def ErrKind.code : ErrKind → Nat
  | .noError => 0
  | .paletteOverflow => 1
  | .malformedStream => 2
  | .dimensionTooLarge => 3
  | .badMagic => 4
  | .truncatedFile => 5

/-- The PayloadTooLarge warning for a compressed length: the comparison is strict (41 R109). -/
def oversize (wo : Nat) : Bool := decide (Config.payloadWarn < wo)

end Sys2Proof.Machine
end

