-- ==== Sys2Proof/Machine/Operands.lean ====
section
/-! DEFINITION. The operands of a token: "Every token yields a pair `(r, v)`; there are no other operands" (spec
30_encoding R67), and its length in bytes (R66). -/

namespace Sys2Proof

/-- The run length `r` of a token (R67). -/
def Instr.run : Instr → Nat
  | .lit _ => 1
  | .runs r _ => r
  | .runx r _ => r
  | .runl r _ => r

/-- The value `v` of a token (R67). -/
def Instr.value : Instr → Byte
  | .lit v => v
  | .runs _ v => v
  | .runx _ v => v
  | .runl _ v => v

/-- The length of a token in bytes (R66). -/
def Instr.bytes : Instr → Nat
  | .lit _ => 1
  | .runs _ _ => 2
  | .runx _ _ => 3
  | .runl _ _ => 3

/-- The bytes a token stands for: `rep(v, r)` (42 R137). -/
def Instr.expand (i : Instr) : List Byte := List.replicate i.run i.value

end Sys2Proof
end

