-- ==== Sys2Proof/Machine/Ops.lean ====
section
/-! DEFINITION. The named operations over memory and registers: reading and writing a byte array, the accessors of the
buffer spaces, raising an error (spec 60 R190, R191), and the shared effect of a token (42 R131, R132). -/

namespace Sys2Proof.Machine

/-! ## Contents of a byte array -/

/-- The canonical form of contents: indices strictly rising. An unlisted index reads as no value, so no entry can
repeat what an unlisted index reads as. -/
abbrev Memory.wf (m : Memory) : Prop := m.Pairwise (fun c d => c.1 < d.1)

/-- The defined value at an index, if there is one. -/
def Memory.read : Memory → Nat → Option Byte
  | [], _ => none
  | (a, v) :: t, i => if a = i then some v else Memory.read t i

/-- Bytes laid out from an index on. -/
def Memory.cells : Nat → List Byte → Memory
  | _, [] => []
  | a, v :: vs => (a, v) :: Memory.cells (a + 1) vs

/-- Contents after `bs` is written from index `lo` on. -/
def Memory.splice (lo : Nat) (bs : List Byte) (m : Memory) : Memory :=
  m.filter (fun c => decide (c.1 < lo)) ++ Memory.cells lo bs ++
    m.filter (fun c => decide (lo + bs.length ≤ c.1))

/-- Contents after the indices from `lo` up to `hi` have lost their defined value. -/
def Memory.forget (lo hi : Nat) (m : Memory) : Memory :=
  m.filter (fun c => decide (c.1 < lo ∨ hi ≤ c.1))

/-- A byte array in canonical form: its contents are, and lie inside it. -/
abbrev Buffer.wf (b : Buffer) : Prop := b.mem.wf ∧ ∀ c ∈ b.mem, c.1 < b.len

/-- One byte of a byte array (20 R48). -/
def Buffer.read (b : Buffer) (a : Nat) : Except Fault Byte :=
  if a < b.len then
    match b.mem.read a with
    | some v => .ok v
    | none => .error .unplacedByte
  else .error .outOfSpace

/-- The draw number of the free value at an index, while it holds no defined value: that of the latest loss of the index,
or of the array itself (log entry 9). -/
def Buffer.drawOf (b : Buffer) (a : Nat) : Nat :=
  match b.losses.find? (fun l => decide (l.lo ≤ a ∧ a < l.hi)) with
  | some l => l.draw
  | none => b.draw

/-- Whether the first `n` bytes of a byte array all hold defined values. -/
def Buffer.placed (b : Buffer) (n : Nat) : Bool := (List.range n).all (fun a => (b.mem.read a).isSome)

/-- The first `n` bytes of a byte array, if all hold defined values. -/
def Buffer.prefixOf (b : Buffer) (n : Nat) : Option (List Byte) := (List.range n).mapM (fun a => b.mem.read a)

/-! ## Buffer spaces -/

/-- The byte array a space is. -/
def Bindings.store (m : Bindings) : SpaceId → StoreId
  | .pqPix => m.pqPix
  | .pqIdx => m.pqIdx
  | .reSrc => m.reSrc
  | .reDst => m.reDst
  | .rdSrc => m.rdSrc
  | .rdDst => m.rdDst

/-- The binding of one space changed. -/
def Bindings.setStore (m : Bindings) (sp : SpaceId) (k : StoreId) : Bindings :=
  match sp with
  | .pqPix => { m with pqPix := k }
  | .pqIdx => { m with pqIdx := k }
  | .reSrc => { m with reSrc := k }
  | .reDst => { m with reDst := k }
  | .rdSrc => { m with rdSrc := k }
  | .rdDst => { m with rdDst := k }

/-- A byte array of the host. -/
def State.buf (s : State) (k : StoreId) : Buffer := s.bufs[k]

/-- The byte array a space is, in a state. -/
def State.space (s : State) (sp : SpaceId) : Buffer := s.buf (s.bind.store sp)

/-- One byte array replaced. -/
def State.setBuf (s : State) (k : StoreId) (b : Buffer) : State := { s with bufs := s.bufs.set k b }

/-- `MemRead(S, a, 1)` (00 R9). -/
def State.readSpace (s : State) (sp : SpaceId) (a : Nat) : Except Fault Byte := (s.space sp).read a

/-- `MemWrite(S, a, ·, ·)` of consecutive bytes (00 R9); writing none reaches no index. -/
def State.writeSpace (s : State) (sp : SpaceId) (a : Nat) (bs : List Byte) : Except Fault State :=
  if bs = [] then .ok s
  else if a + bs.length ≤ (s.space sp).len then
    .ok (s.setBuf (s.bind.store sp)
      { s.space sp with mem := Memory.splice a bs (s.space sp).mem })
  else .error .outOfSpace

/-- The indices from `lo` up to `hi` of a space hold no defined value any more (log entry 8), each a new free value from
now on (log entry 9). -/
def State.forgetSpace (s : State) (sp : SpaceId) (lo hi : Nat) : State :=
  s.setBuf (s.bind.store sp)
    { s.space sp with
      mem := Memory.forget lo hi (s.space sp).mem
      losses := ⟨lo, hi, s.draws⟩ :: (s.space sp).losses }

/-! ## Units and their registers -/

/-- `U.st`. -/
def State.st (s : State) : UnitId → UnitState
  | .pq => s.pq.st
  | .re => s.re.st
  | .rd => s.rd.st

/-- The space a unit reads (R40). -/
def UnitId.readSpace : UnitId → SpaceId
  | .pq => .pqPix
  | .re => .reSrc
  | .rd => .rdSrc

/-- The space a unit writes (R40). -/
def UnitId.writeSpace : UnitId → SpaceId
  | .pq => .pqIdx
  | .re => .reDst
  | .rd => .rdDst

/-- The unit a space belongs to (R40). -/
def SpaceId.unit : SpaceId → UnitId
  | .pqPix => .pq
  | .pqIdx => .pq
  | .reSrc => .re
  | .reDst => .re
  | .rdSrc => .rd
  | .rdDst => .rd

/-- A unit owns a byte array while it is BUSY and one of its spaces is that array (20 R46). -/
def State.owns (s : State) (u : UnitId) (k : StoreId) : Bool :=
  s.st u == .busy && (s.bind.store u.readSpace == k || s.bind.store u.writeSpace == k)

/-- Some unit owns a byte array. -/
def State.owned (s : State) (k : StoreId) : Bool := s.owns .pq k || s.owns .re k || s.owns .rd k

/-- PQ's registers replaced. -/
def State.withPq (s : State) (r : PqRegs) : State := { s with pq := r }

/-- RE's registers replaced. -/
def State.withRe (s : State) (r : ReRegs) : State := { s with re := r }

/-- RD's registers replaced. -/
def State.withRd (s : State) (r : RdRegs) : State := { s with rd := r }

/-! ## Errors -/

/-- `raise K(info)` in a step of unit `u` (60 R190): the error code, the information and ERR are recorded, every other
register keeps its value. The call has no output: the bytes of its write space hold no defined value from then on
(R191, 93 U5; log entry 8). RE has no error register and raises no kind (R186). There is no return from an error: ERR is
left by the next START alone (R196). -/
def raiseError (u : UnitId) (k : ErrKind) (info : Nat) (s : State) : State :=
  match u with
  | .pq => (s.forgetSpace .pqIdx 0 s.pq.n).withPq { s.pq with st := .err, err := k, einfo := info }
  | .rd => (s.forgetSpace .rdDst 0 s.rd.olen).withRd { s.rd with st := .err, err := k, einfo := info }
  | .re => s

/-! ## The effect of a token -/

/-- How many bytes `fill` of a run of `r` writes: to indices `RD.wr` up to `min(RD.wr + r, RD.olen)` (R131). -/
def fillCount (r : Nat) (s : State) : Nat := min (s.rd.wr + r) s.rd.olen - s.rd.wr

/-- `fill(r, v)`: silently truncated at the expected output length (R131). -/
def fill (r : Nat) (v : Byte) (s : State) : Except Fault State :=
  s.writeSpace .rdDst s.rd.wr (List.replicate (fillCount r s) v)

/-- The cursors after a token: `RD.wr` by the full run length regardless of truncation (R132), `RD.rd` by the token's
own length (10_state R24). -/
def advance (r len : Nat) (s : State) : State :=
  s.withRd { s.rd with wr := s.rd.wr + r, rd := s.rd.rd + len }

/-- The effect of a token of run length `r`, value `v` and `len` bytes (R122). -/
def execToken (r : Nat) (v : Byte) (len : Nat) (s : State) : Host.Outcome State Fault Refusal :=
  match fill r v s with
  | .error f => .fault f
  | .ok s' => .next (advance r len s')

end Sys2Proof.Machine
end

