-- ==== Sys2Proof/Machine/Tokens.lean ====
section
/-! DEFINITION. The meanings of the four tokens (spec 42_rle_decoder R123 to R126), each over the shared effect
`execToken`. -/

namespace Sys2Proof.Machine

/-- LIT `v` (R123): one byte, one copy. -/
def execLit (v : Byte) (s : State) : Host.Outcome State Fault Refusal := execToken 1 v 1 s

/-- RUNS `r, v` (R124): two bytes, `r` copies; `r = 0` is a no-operation that advances `RD.rd` by 2 (R68). -/
def execRuns (r : Nat) (v : Byte) (s : State) : Host.Outcome State Fault Refusal := execToken r v 2 s

/-- RUNX `r, v` (R125): three bytes, `r` copies; `r = 0` is a no-operation that advances `RD.rd` by 3 (R68). -/
def execRunx (r : Nat) (v : Byte) (s : State) : Host.Outcome State Fault Refusal := execToken r v 3 s

/-- RUNL `r, v` (R126): three bytes, `r` copies. -/
def execRunl (r : Nat) (v : Byte) (s : State) : Host.Outcome State Fault Refusal := execToken r v 3 s

end Sys2Proof.Machine
end

