-- ==== Sys2Proof/Machine/Dispatch.lean ====
section
/-! DEFINITION. One arm per token, each one call of its meaning (spec 42_rle_decoder R122). -/

namespace Sys2Proof.Machine

def exec (i : Instr) (s : State) : Host.Outcome State Fault Refusal :=
  match i with
  | .lit v => Sys2Proof.Machine.execLit v s
  | .runs r v => Sys2Proof.Machine.execRuns r v s
  | .runx r v => Sys2Proof.Machine.execRunx r v s
  | .runl r v => Sys2Proof.Machine.execRunl r v s

end Sys2Proof.Machine
end

