-- ==== Sys2Proof/Machine/Decoder.lean ====
section
/-! DEFINITION. The RLE decoder RD's step (spec 42_rle_decoder R122, R130, R133): fetch, decode, execute, complete. -/

namespace Sys2Proof.Machine

/-- What fetching a token gives. -/
inductive Fetched where
  /-- A whole token. -/
  | token (i : Instr)
  /-- The stream ends inside the token (R130). -/
  | truncated
  /-- A byte of the stream cannot be read. -/
  | unreadable (f : Fault)
  deriving DecidableEq, Repr

/-- Fetch at `RD.rd`, having read `acc`: one more byte while the bytes read so far are no whole token. So exactly the
token's own bytes are read, and none at or beyond `RD.clen` (R122). -/
def fetchFrom (s : State) : (fuel : Nat) → List Byte → Fetched
  | 0, _ => .truncated
  | fuel + 1, acc =>
    match decode acc with
    | .ok (i, _) => .token i
    | .error _ =>
      if s.rd.rd + acc.length < s.rd.clen then
        match s.readSpace .rdSrc (s.rd.rd + acc.length) with
        | .ok b => fetchFrom s fuel (acc ++ [b])
        | .error f => .unreadable f
      else .truncated

/-- The token at the program counter. A token has at most three bytes (R66). -/
def fetch (s : State) : Fetched := fetchFrom s 4 []

/-- RD's completion (R133): `RD.st <- DONE`. The output bytes from `RD.wr` up to `RD.olen`, which an underrun leaves
unwritten, hold no defined value (R136, 93 U3; log entry 8). -/
def rdComplete (s : State) : State :=
  (if s.rd.wr < s.rd.olen then s.forgetSpace .rdDst s.rd.wr s.rd.olen else s).withRd { s.rd with st := .done }

/-- One step of a BUSY RD (R122, R130, R133). -/
def rdStep (s : State) : Host.Outcome State Fault Refusal :=
  if s.rd.rd < s.rd.clen then
    match fetch s with
    | .token i => exec i s
    | .truncated => .next (raiseError .rd .malformedStream s.rd.rd s)
    | .unreadable f => .fault f
  else if s.rd.rd = s.rd.clen then .next (rdComplete s)
  else .fault .cursorPastLimit

end Sys2Proof.Machine
end

