-- ==== Sys2Proof/Machine/Encoder.lean ====
section
/-! DEFINITION. The RLE encoder RE's step (spec 41_rle_encoder R102 to R109). -/

namespace Sys2Proof.Machine

/-- How many of the next `k` bytes from index `a` on equal `v`, before the first that differs (R102). -/
def matching (s : State) (v : Byte) : (k a : Nat) → Except Fault Nat
  | 0, _ => .ok 0
  | k + 1, a =>
    match s.readSpace .reSrc a with
    | .error f => .error f
    | .ok b =>
      if b = v then
        match matching s v k (a + 1) with
        | .error f => .error f
        | .ok r => .ok (r + 1)
      else .ok 0

/-- The run at the cursor: its length, capped at 383 or the remaining input, and its value (R102). -/
def measureRun (s : State) : Except Fault (Nat × Byte) :=
  match s.readSpace .reSrc s.re.cur with
  | .error f => .error f
  | .ok v =>
    match matching s v (min Config.runMax (s.re.n - s.re.cur) - 1) (s.re.cur + 1) with
    | .error f => .error f
    | .ok r => .ok (r + 1, v)

/-- The bytes emitted for a run (R104 to R107, `tok` of R111). DESIGN CHOICE (log entry 23): for a value of 0x80 or more,
which no accepted call meets (R113), the spec defines no output and this function answers the same patterns. -/
def emitted (r : Nat) (v : Byte) : List Byte :=
  if r ≤ 1 then [v]
  else if r ≤ 127 then [0x80#8 ||| byteOf r, v]
  else if r ≤ 255 then [0x81#8, byteOf r, v]
  else [0x82#8, 0x80#8 ||| byteOf (r - 256), v]

/-- Emit a run at the write cursor and advance both cursors (R104 to R108). -/
def reEmit (r : Nat) (v : Byte) (s : State) : Host.Outcome State Fault Refusal :=
  match s.writeSpace .reDst s.re.wo (emitted r v) with
  | .error f => .fault f
  | .ok t => .next (t.withRe { s.re with wo := s.re.wo + (emitted r v).length, cur := s.re.cur + r })

/-- Completion (R109): the warning flag, and DONE. -/
def reComplete (s : State) : State := s.withRe { s.re with warn := oversize s.re.wo, st := .done }

/-- One step of a BUSY RE (R102, R109). On a byte of 0x80 or more in `RE.SRC`, in no accepted call, it is log entry 23's
choice. -/
def reStep (s : State) : Host.Outcome State Fault Refusal :=
  if s.re.cur < s.re.n then
    match measureRun s with
    | .error f => .fault f
    | .ok (r, v) => reEmit r v s
  else if s.re.cur = s.re.n then .next (reComplete s)
  else .fault .cursorPastLimit

end Sys2Proof.Machine
end

