-- ==== Sys2Proof/Machine/HostOps.lean ====
section
/-! DEFINITION. The host's operations: START of each unit (spec 10_state R12; 40 R81; 41 R101; 42 R121), placing input
and providing byte arrays (70 R212), the hand-off (20 R46), and the reset event (70 R210, R222). -/

namespace Sys2Proof.Machine

/-- A call's own two spaces, and those of every BUSY unit, share no storage (20 R55). -/
def State.disjointFor (s : State) (u : UnitId) : Bool :=
  s.bind.store u.readSpace != s.bind.store u.writeSpace &&
    !s.owned (s.bind.store u.readSpace) && !s.owned (s.bind.store u.writeSpace)

/-- What every START checks (R12, 70 R212, R218, R219): the unit is not BUSY, the spaces share no storage, the write
space has room for `room` bytes, and the first `input` bytes of the read space are there and placed. -/
def startCheck (u : UnitId) (input room : Nat) (s : State) : Option Refusal :=
  if s.st u = .busy then some .startWhileBusy
  else if s.disjointFor u = false then some .spacesOverlap
  else if (s.space u.readSpace).len < input ∨ (s.space u.writeSpace).len < room then some .spaceTooSmall
  else if (s.space u.readSpace).placed input = false then some .inputNotPlaced
  else none

/-- A START that is accepted: a new call, so a new draw number (log entry 9). -/
def State.nextCall (s : State) : State := { s with draws := s.draws + 1 }

/-- A PQ.START that is accepted: its draw number is that of the palette slots too (log entry 9). -/
def State.nextPqCall (s : State) : State := { s.nextCall with pqDraw := s.draws + 1 }

/-- What an operand register of PQ holds after a START: the operand, or a free value where no `CW`-bit register holds it
(log entry 10). That happens only with the other operand 0, since `W × H <= LEN_MAX`. -/
def latch (draw : Nat) (height : Bool) (x : Nat) : Nat :=
  if x < Config.cwRange then x else (Config.freeOperand draw height).toNat

/-- `PQ.START(W, H)` (40 R81). The palette slots are not cleared; from now on they hold no defined value until they are
filled (10_state R16). -/
def pqStart (w h : Nat) (s : State) : Host.Outcome State Fault Refusal :=
  if Config.lenMax < w * h then .refused .lengthAboveMax
  else match startCheck .pq (3 * (w * h)) (w * h) s with
    | some r => .refused r
    | none =>
      if (s.space .pqPix).len ≠ 3 * (w * h) then .refused .pixelBufferLength
      else .next (s.nextPqCall.withPq
        { st := .busy, w := latch (s.draws + 1) false w, h := latch (s.draws + 1) true h, n := w * h, i := 0,
          pcount := 0, pal := s.pq.pal, err := .noError, einfo := 0 })

/-- Every one of the first `n` bytes of `RE.SRC` is below 0x80 (41 R113). -/
def State.sourceBelow80 (s : State) (n : Nat) : Bool :=
  (List.range n).all (fun a =>
    match (s.space .reSrc).mem.read a with
    | some v => decide (v.toNat < Config.tagBit)
    | none => false)

/-- `RE.START(n)` (41 R101), with the precondition of R113. -/
def reStart (n : Nat) (s : State) : Host.Outcome State Fault Refusal :=
  if Config.lenMax < n then .refused .lengthAboveMax
  else match startCheck .re n n s with
    | some r => .refused r
    | none =>
      if s.sourceBelow80 n = false then .refused .sourceByteAbove7F
      else .next (s.nextCall.withRe { st := .busy, n := n, cur := 0, wo := 0, warn := false })

/-- `RD.START(clen, olen)` (42 R121). `RD.DST` is not cleared. -/
def rdStart (clen olen : Nat) (s : State) : Host.Outcome State Fault Refusal :=
  if Config.lenMax < clen ∨ Config.lenMax < olen then .refused .lengthAboveMax
  else match startCheck .rd clen olen s with
    | some r => .refused r
    | none => .next (s.nextCall.withRd
        { st := .busy, clen := clen, olen := olen, rd := 0, wr := 0, err := .noError, einfo := 0 })

/-- The host provides a byte array of a length; its bytes hold no defined value until they are placed. -/
def provide (k : StoreId) (len : Nat) (s : State) : Host.Outcome State Fault Refusal :=
  if s.owned k then .refused .busySpaceTouched
  else .next (s.nextCall.setBuf k { len := len, mem := [], draw := s.draws + 1, losses := [] })

/-- The host places bytes in a byte array (70 R212), which no BUSY unit may own (20 R46, 70 R216). -/
def place (k : StoreId) (pos : Nat) (bytes : List Byte) (s : State) : Host.Outcome State Fault Refusal :=
  if s.owned k then .refused .busySpaceTouched
  else if pos + bytes.length ≤ (s.buf k).len then
    .next (s.setBuf k { s.buf k with mem := Memory.splice pos bytes (s.buf k).mem })
  else .refused .placeOutsideArray

/-- The host makes a space a byte array: the hand-off, only between calls, those of the space's unit and those of any
unit that owns the array (20 R40, R46). -/
def handOver (sp : SpaceId) (k : StoreId) (s : State) : Host.Outcome State Fault Refusal :=
  if s.st sp.unit = .busy ∨ s.owned k = true then .refused .busySpaceTouched
  else .next { s with bind := s.bind.setStore sp k }

/-- The reset event (70 R210, R222): every unit IDLE, every other register, palette slot and buffer byte unspecified,
that is at the value `State.reset` names, bytes with no defined value (log entries 5, 13). Which byte arrays the host
provides is the host's, not the block's. -/
def resetEvent (s : State) : State :=
  { State.reset with
    bufs := s.bufs.map (fun b => { len := b.len, mem := [], draw := s.draws + 1, losses := [] })
    bind := s.bind
    agenda := s.agenda
    draws := s.draws + 1
    pqDraw := s.draws + 1 }

/-- One operation of the host. -/
def hostStep (op : HostOp) (s : State) : Host.Outcome State Fault Refusal :=
  match op with
  | .pqStart w h => pqStart w h s
  | .reStart n => reStart n s
  | .rdStart clen olen => rdStart clen olen s
  | .provide k len => provide k len s
  | .place k pos bytes => place k pos bytes s
  | .handOver sp k => handOver sp k s
  | .resetEvent => .next (resetEvent s)

end Sys2Proof.Machine
end

