-- ==== Sys2Proof/Machine/Quantizer.lean ====
section
/-! DEFINITION. The palette quantizer PQ's step (spec 40_palette_quantizer R82 to R86). -/

namespace Sys2Proof.Machine

/-- `MemRead(S, a, 3)`: the three bytes at `a`, `a+1`, `a+2` as a triple (00 R9). -/
def readPixel (s : State) (a : Nat) : Except Fault Rgb :=
  match s.readSpace .pqPix a, s.readSpace .pqPix (a + 1), s.readSpace .pqPix (a + 2) with
  | .ok x, .ok y, .ok z => .ok ⟨x, y, z⟩
  | .error f, _, _ => .error f
  | _, .error f, _ => .error f
  | _, _, .error f => .error f

/-- The palette: slots 0 up to `PQ.pcount` (10_state R16). -/
def PqRegs.palette (r : PqRegs) : List Rgb := r.pal.toList.take r.pcount

/-- "Linearly search the palette built so far for an exact channel match": the least `j` below `PQ.pcount` whose slot is
`p` (R82). -/
def search (p : Rgb) (r : PqRegs) : Option Nat := r.palette.findIdx? (fun q => q == p)

/-- Hit (R83): emit the index of the entry. -/
def pqHit (j : Nat) (s : State) : Host.Outcome State Fault Refusal :=
  match s.writeSpace .pqIdx s.pq.i [byteOf j] with
  | .error f => .fault f
  | .ok t => .next (t.withPq { s.pq with i := s.pq.i + 1 })

/-- Append (R84): the pixel becomes the next palette entry, and its index is emitted. -/
def pqAppend (p : Rgb) (s : State) : Host.Outcome State Fault Refusal :=
  match s.writeSpace .pqIdx s.pq.i [byteOf s.pq.pcount] with
  | .error f => .fault f
  | .ok t =>
    .next (t.withPq { s.pq with
      pal := s.pq.pal.setIfInBounds s.pq.pcount p
      pcount := s.pq.pcount + 1
      i := s.pq.i + 1 })

/-- Overflow (R85): "the operation fails with a `PaletteOverflow` error carrying the offending pixel position". -/
def pqOverflow (s : State) : State := raiseError .pq .paletteOverflow s.pq.i s

/-- Completion (R86). -/
def pqComplete (s : State) : State := s.withPq { s.pq with st := .done }

/-- One step of a BUSY PQ (R82, R86). -/
def pqStep (s : State) : Host.Outcome State Fault Refusal :=
  if s.pq.i < s.pq.n then
    match readPixel s (3 * s.pq.i) with
    | .error f => .fault f
    | .ok p =>
      match search p s.pq with
      | some j => pqHit j s
      | none => if s.pq.pcount < Config.palMax then pqAppend p s else .next (pqOverflow s)
  else if s.pq.i = s.pq.n then .next (pqComplete s)
  else .fault .cursorPastLimit

end Sys2Proof.Machine
end

