-- ==== Sys2Proof/Machine/Units.lean ====
section
/-! DEFINITION. The units as agents (spec 10_state R10, R13): one step of a unit, one event of the block, and a call run
to its end. -/

namespace Sys2Proof.Machine

/-- One step of a BUSY unit (R13). -/
def busyStep (u : UnitId) (s : State) : Host.Outcome State Fault Refusal :=
  match u with
  | .pq => pqStep s
  | .re => reStep s
  | .rd => rdStep s

/-- One step of a unit: a unit that is not BUSY takes none, and nothing changes (R13). -/
def unitStep (u : UnitId) (s : State) : Host.Outcome State Fault Refusal :=
  if s.st u = .busy then busyStep u s else .next s

/-- One event. -/
def eventStep (e : Event) (s : State) : Host.Outcome State Fault Refusal :=
  match e with
  | .unit u => unitStep u s
  | .host op => hostStep op s

/-- With no event pending, the BUSY units step by themselves, RD first, then RE, then PQ (log entry 1); with none BUSY
the block is at rest. -/
def restStep (s : State) : Host.Outcome State Fault Refusal :=
  if s.rd.st = .busy then rdStep s
  else if s.re.st = .busy then reStep s
  else if s.pq.st = .busy then pqStep s
  else .next s

/-- The agenda replaced. -/
def State.withAgenda (s : State) (l : List Event) : State := { s with agenda := l }

/-- At most `k` steps of a unit, until it leaves BUSY: a call from its START to its DONE or ERR (R13). -/
def runUnit (u : UnitId) : (k : Nat) → State → Host.Outcome State Fault Refusal
  | 0, s => .next s
  | k + 1, s =>
    if s.st u = .busy then
      match busyStep u s with
      | .next t => runUnit u k t
      | .fault f => .fault f
      | .refused r => .refused r
    else .next s

/-- The number of the first step after which a call of a unit has ended, if it ends within `k` steps (R90, R110,
R140). -/
def callSteps (u : UnitId) : (k : Nat) → State → Option Nat
  | 0, s => if s.st u = .busy then none else some 0
  | k + 1, s =>
    if s.st u = .busy then
      match busyStep u s with
      | .next t => (callSteps u k t).map (fun m => m + 1)
      | _ => none
    else some 0

/-- The parts of a state that store an instruction where RD fetches its next one (log entry 2): its bytes at the program
counter in `RD.SRC`, a stream and a storage long enough to hold them, RD BUSY, and RD's step the very next event. -/
def placeToken (bytes : List Byte) (s : State) : State :=
  let b := s.space .rdSrc
  let t := s.setBuf (s.bind.store .rdSrc)
    { b with len := max b.len (s.rd.rd + bytes.length), mem := Memory.splice s.rd.rd bytes b.mem }
  (t.withRd { s.rd with st := .busy, clen := max s.rd.clen (s.rd.rd + bytes.length) }).withAgenda
    (.unit .rd :: s.agenda)

end Sys2Proof.Machine
end

