-- ==== Sys2Proof/Machine/Step.lean ====
section
/-! DEFINITION. One step of the block (spec 10_state R13): the next event of the agenda, or a step of a BUSY unit when
none is pending. -/

namespace Sys2Proof.Machine

/-- One step. -/
def step (s : State) : Host.Outcome State Fault Refusal :=
  match s.agenda with
  | [] => restStep s
  | e :: rest => eventStep e (s.withAgenda rest)

/-- `s` with the instruction of a table word stored where the next step fetches (log entries 2, 3). -/
def State.withFetchWord (s : State) (nbits w : Nat) : State := placeToken (tableBytes nbits w) s

end Sys2Proof.Machine
end

