-- ==== Sys2Proof/Machine/Calls.lean ====
section
/-! DEFINITION. The whole calls as functions, which "are what the source vouches for" (spec INDEX; 40 R88, 41 R111,
42 R137). The step machines refine them. -/

namespace Sys2Proof.Machine

/-! ## RE -/

/-- How many bytes at the head of a string equal `v`. -/
def runLength (v : Byte) : List Byte → Nat
  | [] => 0
  | b :: t => if b = v then runLength v t + 1 else 0

/-- The runs RE cuts a string into, greedily, each capped at 383 (41 R103, R111): pairs of run length and value. `fuel`
is at least the length of the string. -/
def runsOf : (fuel : Nat) → List Byte → List (Nat × Byte)
  | _, [] => []
  | 0, _ :: _ => []
  | fuel + 1, v :: t =>
    let r := min Config.runMax (runLength v t + 1)
    (r, v) :: runsOf fuel ((v :: t).drop r)

/-- `rle_enc(s)` (R111), whose domain is the strings with every byte below 0x80; on other strings it is log entry 23's
choice. -/
def rleEnc (s : List Byte) : List Byte := (runsOf s.length s).flatMap (fun p => emitted p.1 p.2)

/-! ## RD -/

/-- `rle_dec(s, olen)` (42 R137): the index of the truncated token, or the output bytes that are defined and the final
`RD.wr`. -/
def rleDec (s : List Byte) (olen : Nat) : Except Nat (List Byte × Nat) :=
  match decodeStream s.length 0 s with
  | .error p => .error p
  | .ok is =>
    let e := is.flatMap Instr.expand
    .ok (e.take olen, e.length)

/-- How many whole tokens stand at the head of a string before its end or its truncated token (42 R140). `fuel` is at
least the length of the string. -/
def tokensIn : (fuel : Nat) → List Byte → Nat
  | 0, _ => 0
  | fuel + 1, bs =>
    match decode bs with
    | .error _ => 0
    | .ok (_, rest) => tokensIn fuel rest + 1

/-! ## PQ -/

/-- The pixels of a pixel buffer, in order (20 R41). -/
def toPixels : List Byte → List Rgb
  | r :: g :: b :: t => ⟨r, g, b⟩ :: toPixels t
  | _ => []

/-- The bytes of a pixel (20 R41). -/
def pixelBytes (p : Rgb) : List Byte := [p.red, p.green, p.blue]

/-- The distinct values of a list in order of first occurrence: `d_0, d_1, ...` of R88. -/
def firsts (cs : List Rgb) : List Rgb := cs.foldl (fun d c => if c ∈ d then d else d ++ [c]) []

/-- `pq` on the pixels (40 R88): the palette and the index of every pixel, or the position of the first pixel of the
129th distinct colour. -/
def pqCall (cs : List Rgb) : Except Nat (List Rgb × List Byte) :=
  match (firsts cs).drop Config.palMax with
  | [] => .ok (firsts cs, cs.map (fun c => byteOf ((firsts cs).idxOf c)))
  | x :: _ => .error (cs.idxOf x)

end Sys2Proof.Machine
end

