-- ==== Sys2Proof/Machine/Record.lean ====
section
/-! DEFINITION. The MR file record, context outside the block (spec 43_header_record_codec): host software as
functions. "A model that includes them must follow those files" (00_scope R5). -/

namespace Sys2Proof.Machine

/-- What host software returns: a value, an error kind with the information the spec gives it (60 R185), or no
meaning. -/
inductive Result (α : Type) where
  | value (a : α)
  | failed (k : ErrKind) (info : Option Nat)
  | refused (r : Refusal)
  deriving DecidableEq, Repr

/-- What a file record carries (R151). -/
structure FileRecord where
  width : Nat
  height : Nat
  palette : List Rgb
  payload : List Byte
  deriving DecidableEq, Repr

/-- A 4-byte little-endian integer (R152). -/
def le32 (x : Nat) : List Byte := [byteOf x, byteOf (x / 256), byteOf (x / 65536), byteOf (x / 16777216)]

/-- The unsigned value of little-endian bytes (R152). -/
def leValue : List Byte → Nat
  | [] => 0
  | b :: t => b.toNat + 256 * leValue t

/-- The header integer at an offset of a file (R151, R152). -/
def intAt (file : List Byte) (off : Nat) : Nat := leValue ((file.drop off).take 4)

/-- A palette entry in the file: blue, green, red, 0 (R153). -/
def entryBytes (p : Rgb) : List Byte := [p.blue, p.green, p.red, 0]

/-- The first `n` palette entries at the head of a byte string; each fourth byte is dropped (R153). -/
def readEntries : (n : Nat) → List Byte → List Rgb
  | n + 1, b :: g :: r :: _ :: t => ⟨r, g, b⟩ :: readEntries n t
  | _, _ => []

/-- `data_offset` (R154). -/
def FileRecord.dataOffset (f : FileRecord) : Nat := Config.hdrLen + f.palette.length * Config.palEntryLen

/-- `total_size` (R154). -/
def FileRecord.totalSize (f : FileRecord) : Nat := f.dataOffset + f.payload.length

/-- The magic "MR" (R151, R161). -/
def magic : List Byte := [0x4D, 0x52]

/-- The file bytes of a record, in the order R155 gives. -/
def serialize (f : FileRecord) : List Byte :=
  magic ++ le32 f.totalSize ++ le32 0 ++ le32 f.dataOffset ++ le32 f.width ++ le32 f.height ++ le32 0 ++
    le32 f.palette.length ++ f.palette.flatMap entryBytes ++ f.payload

/-- The record of file bytes, or BadMagic, or TruncatedFile (R156 to R158); a payload that overlaps the palette has no
meaning (R159). Nothing else is checked (R159). -/
def parse (file : List Byte) : Result FileRecord :=
  let total := intAt file 2
  let offset := intAt file 10
  let count := intAt file 26
  if file.take 2 ≠ magic then .failed .badMagic none
  else if file.length < Config.hdrLen then .failed .truncatedFile none
  else if file.length < total ∨ file.length < Config.hdrLen + Config.palEntryLen * count ∨ file.length < offset ∨
      total < offset then .failed .truncatedFile none
  else if offset < Config.hdrLen + Config.palEntryLen * count then .refused .payloadInsidePalette
  else .value
    { width := intAt file 14
      height := intAt file 18
      palette := readEntries count (file.drop Config.hdrLen)
      payload := (file.drop offset).take (total - offset) }

end Sys2Proof.Machine
end

