-- ==== Sys2Proof/Machine/Facade.lean ====
section
/-! DEFINITION. The image codec façade and the palette lookup, context outside the block (spec 44_image_codec): host
software as functions over the whole calls R88, R111 and R137. -/

namespace Sys2Proof.Machine

/-- `encode` (R170 to R173): the file bytes and the PayloadTooLarge warning, or an error. The dimensions are tested
first, each on its own (R171); then PQ, RE and the record, in the order of R172. DESIGN CHOICE (log entry 25): an image of
width or height 0 is encoded like any other, though whether its file is legal is open (91 N5). -/
def facadeEncode (pixels : List Byte) (width height : Nat) : Result (List Byte × Bool) :=
  if Config.maxW < width ∨ Config.maxH < height then .failed .dimensionTooLarge none
  else if pixels.length ≠ 3 * (width * height) then .refused .pixelBufferLength
  else match pqCall (toPixels pixels) with
    | .error i => .failed .paletteOverflow (some i)
    | .ok (palette, indices) =>
      let payload := rleEnc indices
      .value (serialize ⟨width, height, palette, payload⟩, oversize payload.length)

/-- The pixel of an index (R176); an index with no palette entry has no meaning (R177). -/
def lookup (palette : List Rgb) (j : Byte) : Option Rgb := palette[j.toNat]?

/-- `decode` (R170, R174, R175): the pixel bytes, width and height, or an error. RD's operands are `clen = total_size −
data_offset` and `olen = width × height`, which must be lengths RD.START accepts (70 R219). An output byte that was
never written has no pixel (R177). DESIGN CHOICE (log entry 25): a file of width or height 0 is decoded like any other. -/
def facadeDecode (file : List Byte) : Result (List Byte × Nat × Nat) :=
  match parse file with
  | .failed k info => .failed k info
  | .refused r => .refused r
  | .value f =>
    if Config.lenMax < f.payload.length ∨ Config.lenMax < f.width * f.height then .refused .lengthAboveMax
    else match rleDec f.payload (f.width * f.height) with
      | .error p => .failed .malformedStream (some p)
      | .ok (out, _) =>
        if out.length < f.width * f.height then .refused .noPaletteEntry
        else match out.mapM (lookup f.palette) with
          | none => .refused .noPaletteEntry
          | some ps => .value (ps.flatMap pixelBytes, f.width, f.height)

end Sys2Proof.Machine
end

