-- ==== Sys2Proof/Machine/Platform.lean ====
section
/-! DEFINITION. Several instances of the block (spec 60_exceptions R205): independent states with no shared register,
state or storage. -/

namespace Sys2Proof.Machine

/-- A platform of `N_INST` instances after reset (00 R8, 60 R205). -/
def platformReset : List State := List.replicate Config.nInst State.reset

/-- One step of instance `k`; the other instances do not move. A number that is no instance's moves nothing. -/
def platformStep (k : Nat) (p : List State) : Host.Outcome (List State) Fault Refusal :=
  match p[k]? with
  | none => .next p
  | some s =>
    match step s with
    | .next t => .next (p.set k t)
    | .fault f => .fault f
    | .refused r => .refused r

end Sys2Proof.Machine
end

