-- ==== Sys2Proof/Machine/HostView.lean ====
section
/-! DEFINITION. What the host can see: every register at any time (spec 10_state R28, 70 R217), the palette, and the
bytes of a space whose unit is not BUSY (70 R213, R216). What holds no defined value is seen as a free value. -/

namespace Sys2Proof.Machine

/-- The registers of the block by name, the palette slots apart (R17, R20, R21). -/
inductive Reg where
  | pqSt | pqW | pqH | pqN | pqI | pqPcount | pqErr | pqEinfo
  | reSt | reN | reCur | reWo | reWarn
  | rdSt | rdClen | rdOlen | rdRd | rdWr | rdErr | rdEinfo
  deriving DecidableEq, Repr

/-- The number a register holds at the last step boundary (R28). -/
def readReg (s : State) : Reg → Nat
  | .pqSt => s.pq.st.code
  | .pqW => s.pq.w
  | .pqH => s.pq.h
  | .pqN => s.pq.n
  | .pqI => s.pq.i
  | .pqPcount => s.pq.pcount
  | .pqErr => s.pq.err.code
  | .pqEinfo => s.pq.einfo
  | .reSt => s.re.st.code
  | .reN => s.re.n
  | .reCur => s.re.cur
  | .reWo => s.re.wo
  | .reWarn => s.re.warn.toNat
  | .rdSt => s.rd.st.code
  | .rdClen => s.rd.clen
  | .rdOlen => s.rd.olen
  | .rdRd => s.rd.rd
  | .rdWr => s.rd.wr
  | .rdErr => s.rd.err.code
  | .rdEinfo => s.rd.einfo

/-- The range of the number a register can hold: 2 to the power of its width (R17, R20, R21). -/
def Reg.range : Reg → Nat
  | .pqSt | .reSt | .rdSt => 4
  | .pqErr | .rdErr => 8
  | .pqPcount => 256
  | .reWarn => 2
  | _ => Config.cwRange

/-- A palette slot as the host sees it: a slot of the palette while PQ is BUSY (an intermediate value, 70 R217) or DONE,
a free value else (R16, 60 R191, 93 U5, U6, U8; log entries 9, 19). Only PQ's own START and the reset event draw it anew.
The free value does not depend on the instance of the block it is read from (DESIGN CHOICE, log entry 24). -/
def hostPal (s : State) (j : Fin 128) : Rgb :=
  if j.val < s.pq.pcount ∧ (s.pq.st = .busy ∨ s.pq.st = .done) then s.pq.pal[j]
  else Config.freePixel s.pqDraw j (decide (j.val < s.pq.pcount))

/-- A byte of a space as the host sees it: not while a unit owns its storage (20 R46, 70 R216); a free value where the
byte holds no defined value (93 U3, U5, U8; log entry 9). Reading changes nothing and reading twice gives the same byte
(20 R48): the free value is the storage's, whichever space names it, until the byte is written or loses its value again.
It does not depend on the instance of the block it is read from (DESIGN CHOICE, log entry 24). -/
def hostByte (s : State) (sp : SpaceId) (a : Nat) : Host.Outcome Byte Fault Refusal :=
  if s.owned (s.bind.store sp) then .refused .busySpaceTouched
  else match s.readSpace sp a with
    | .ok v => .next v
    | .error .unplacedByte => .next (Config.freeByte ((s.space sp).drawOf a) (s.bind.store sp) a)
    | .error f => .fault f

end Sys2Proof.Machine
end

