-- ==== Sys2Proof/Safety.lean ====
section
/-! DEFINITION. What counts as a safe run, in the terms the statements use: the invariants of the block. -/

namespace Sys2Proof.Machine

/-- Every byte array is in canonical form and its contents lie inside it (spec 20_memory R40). -/
def State.wf (s : State) : Prop := ∀ k : StoreId, (s.buf k).wf

/-- Where the cursors are: none passes its limit, RD's write cursor is at most 128 times its read cursor, RE's write
cursor is never ahead of its read cursor (10_state R17, R18, R20, R24, R26; 41 R112; 42 R139, R141); every length is at
most `LEN_MAX` (00 R8); RE is never in ERR (60 R186). -/
structure State.CursorsOk (s : State) : Prop where
  pq_width : s.pq.w < Config.cwRange
  pq_height : s.pq.h < Config.cwRange
  pq_count : s.pq.n = s.pq.w * s.pq.h
  pq_length : s.pq.n ≤ Config.lenMax
  pq_cursor : s.pq.i ≤ s.pq.n
  pq_palette : s.pq.pcount ≤ Config.palMax
  pq_palette_cursor : s.pq.pcount ≤ s.pq.i
  pq_info : s.pq.einfo ≤ Config.lenMax
  re_length : s.re.n ≤ Config.lenMax
  re_cursor : s.re.cur ≤ s.re.n
  re_output : s.re.wo ≤ s.re.cur
  re_no_error : s.re.st ≠ .err
  rd_stream : s.rd.clen ≤ Config.lenMax
  rd_expected : s.rd.olen ≤ Config.lenMax
  rd_cursor : s.rd.rd ≤ s.rd.clen
  rd_output : s.rd.wr ≤ 128 * s.rd.rd
  rd_info : s.rd.einfo ≤ Config.lenMax

/-- The error registers of the two units that raise errors: each holds no error or the unit's only kind (60 R194), and
an error exactly in ERR (R190, R196). -/
structure State.ErrorsOk (s : State) : Prop where
  pq_err : s.pq.st = .err ↔ s.pq.err = .paletteOverflow
  pq_none : s.pq.st ≠ .err ↔ s.pq.err = .noError
  rd_err : s.rd.st = .err ↔ s.rd.err = .malformedStream
  rd_none : s.rd.st ≠ .err ↔ s.rd.err = .noError

/-- What the host owes a running call (70 R212) still holds: the spaces of every BUSY unit are large enough, its input
is placed (RE's below 0x80), and no BUSY unit shares storage with itself or another (20 R46, R55). -/
structure State.CallsReady (s : State) : Prop where
  pq_input : s.pq.st = .busy → (s.space .pqPix).len = 3 * s.pq.n ∧ (s.space .pqPix).placed (3 * s.pq.n) = true
  pq_room : s.pq.st = .busy → s.pq.n ≤ (s.space .pqIdx).len
  re_input : s.re.st = .busy → s.re.n ≤ (s.space .reSrc).len ∧ s.sourceBelow80 s.re.n = true
  re_room : s.re.st = .busy → s.re.n ≤ (s.space .reDst).len
  rd_input : s.rd.st = .busy → s.rd.clen ≤ (s.space .rdSrc).len ∧ (s.space .rdSrc).placed s.rd.clen = true
  rd_room : s.rd.st = .busy → s.rd.olen ≤ (s.space .rdDst).len
  own : ∀ u, s.st u = .busy → s.bind.store u.readSpace ≠ s.bind.store u.writeSpace
  apart : ∀ u v, u ≠ v → s.st u = .busy → ∀ k, s.owns u k = true → s.owns v k = false

/-- The invariant of the block. -/
structure State.Safe (s : State) : Prop where
  wf : s.wf
  cursors : s.CursorsOk
  errors : s.ErrorsOk
  ready : s.CallsReady

/-- The pixel of a row-major index in `PQ.PIX` (20 R41). -/
def State.pixel (s : State) (k : Nat) : Option Rgb :=
  match readPixel s (3 * k) with
  | .ok p => some p
  | .error _ => none

/-- The palette invariants (10_state R18 (a) to (e)) at a step boundary of a PQ call: the palette is the list of
distinct colours among the pixels already handled, in order of first occurrence, and every index written names the
colour of its pixel. -/
def State.PaletteOk (s : State) : Prop :=
  s.pq.st = .busy →
    ∃ cs : List Rgb, cs.length = s.pq.i ∧ (∀ k, k < s.pq.i → s.pixel k = cs[k]?) ∧
      s.pq.palette = firsts cs ∧
      ∀ k, (h : k < cs.length) →
        (s.space .pqIdx).mem.read k = some (byteOf ((firsts cs).idxOf cs[k]))

/-- RD's registers and the bytes of `RD.DST` after a token of run length `r`, value `v` and `len` bytes: the cursors have
moved, `v` stands at the indices of R131, every other register and byte is as it was (42 R131, R132, R123 to R126). -/
def TokenDone (r len : Nat) (v : Byte) (s t : State) : Prop :=
  t.rd = { s.rd with wr := s.rd.wr + r, rd := s.rd.rd + len } ∧
    ∀ a, (t.space .rdDst).mem.read a =
      if s.rd.wr ≤ a ∧ a < s.rd.wr + r ∧ a < s.rd.olen then some v else (s.space .rdDst).mem.read a

/-- The bytes `bs` stand in a space from index `a` on. -/
def State.holds (s : State) (sp : SpaceId) (a : Nat) (bs : List Byte) : Prop :=
  ∀ j, (h : j < bs.length) → s.readSpace sp (a + j) = .ok bs[j]

/-- A canonical stream (30 R70): whole tokens, every value below 0x80, each of the kind RE uses for its run length, and
a run followed by the same value only at the cap. -/
def Canonical (bs : List Byte) : Prop :=
  ∃ is, decodeStream bs.length 0 bs = .ok is ∧
    (∀ i ∈ is, i.value.toNat < 0x80 ∧ 1 ≤ i.run ∧ i = runToken i.run i.value) ∧
    is.IsChain (fun i j => i.value = j.value → i.run = 383)

end Sys2Proof.Machine
end

