-- ==== Sys2Proof/Certificates/Slice0/Obligations.lean ====
section
/-! DEFINITION. The statements for the provers. Each docstring names the rule of the spec it formalises. -/

open Sys2Proof Sys2Proof.Machine

/-! ## Encoding -/

/-- 30 R72, R65: decoding the bytes of a well-formed token, whatever follows them, gives the token and what follows. -/
def Obligations.EncodeThenDecode : Prop :=
  ∀ (i : Instr) (rest : List Byte), i.wellFormed = true → decode (encode i ++ rest) = .ok (i, rest)

/-- 30 R65, R66, R72: a decoded token is well formed, its bytes are the ones read, and there are as many as its length. -/
def Obligations.DecodeThenEncode : Prop :=
  ∀ (bs : List Byte) (i : Instr) (rest : List Byte), decode bs = .ok (i, rest) →
    i.wellFormed = true ∧ encode i ++ rest = bs ∧ (encode i).length = i.bytes

/-- 20 R43, 42 R137: the bytes of well-formed tokens laid end to end parse back to those tokens. -/
def Obligations.StreamParsesToItsTokens : Prop :=
  ∀ (is : List Instr) (fuel p : Nat), (∀ i ∈ is, i.wellFormed = true) → (encodeStream is).length ≤ fuel →
    decodeStream fuel p (encodeStream is) = .ok is

/-- 30 R75: exactly one row of the opcode table applies to every pair of first bytes, and the decoder gives a token of
that row's kind and length. -/
def Obligations.OpcodeRowsAgreeWithDecoder : Prop :=
  ∀ (b0 b1 b2 : Byte) (rest : List Byte), ∃ row i rest', rowsFor b0 b1 = [row] ∧
    decode (b0 :: b1 :: b2 :: rest) = .ok (i, rest') ∧ row.kind = i.kind ∧ row.length = i.bytes

/-- 30 R65: the table of first bytes, range by range. -/
def Obligations.DispatchByFirstBytes : Prop :=
  (∀ (b0 : Byte) (rest : List Byte), b0.toNat < 0x80 → decode (b0 :: rest) = .ok (.lit b0, rest)) ∧
  (∀ (b1 : Byte) (rest : List Byte), decode (0x80#8 :: b1 :: rest) = .ok (.runs 0 b1, rest)) ∧
  (∀ (b1 b2 : Byte) (rest : List Byte), decode (0x81#8 :: b1 :: b2 :: rest) = .ok (.runx b1.toNat b2, rest)) ∧
  (∀ (b1 : Byte) (rest : List Byte), b1.toNat < 0x80 → decode (0x82#8 :: b1 :: rest) = .ok (.runs 2 b1, rest)) ∧
  (∀ (b1 b2 : Byte) (rest : List Byte), 0x80 ≤ b1.toNat →
    decode (0x82#8 :: b1 :: b2 :: rest) = .ok (.runl (256 + b1.toNat % 128) b2, rest)) ∧
  (∀ (b0 b1 : Byte) (rest : List Byte), 0x83 ≤ b0.toNat →
    decode (b0 :: b1 :: rest) = .ok (.runs (b0.toNat - 0x80) b1, rest))

/-- 95 V-ENC-2, 3, 6, 9, 12, 15: words written out from the formats of 30 R61 to R64 decode to their tokens. -/
def Obligations.WrittenWordsDecode : Prop :=
  decode [0x7F] = .ok (.lit 0x7F, []) ∧ decode [0x80, 0x11] = .ok (.runs 0 0x11, []) ∧
  decode [0x81, 0x80, 0x05] = .ok (.runx 128 5, []) ∧ decode [0x82, 0x00] = .ok (.runs 2 0, []) ∧
  decode [0x82, 0xFF, 0x05] = .ok (.runl 383 5, []) ∧ decode [0x85, 0x90] = .ok (.runs 5 0x90, [])

/-! ## The four tokens -/

/-- 42 R123: LIT. -/
def Obligations.LitWritesOneByte : Prop :=
  (∀ (b0 : Byte) (rest : List Byte), b0.toNat < 0x80 → decode (b0 :: rest) = .ok (.lit b0, rest)) ∧
  ∀ (v : Byte) (s : State), s.rd.olen ≤ (s.space .rdDst).len →
    ∃ t, exec (.lit v) s = .next t ∧ TokenDone 1 1 v s t

/-- 42 R124: RUNS, its operands from the bytes, its truncation, and its effect for every run length. -/
def Obligations.RunsWritesRun : Prop :=
  (∀ (b0 b1 : Byte) (rest : List Byte),
    (b0.toNat = 0x80 ∨ (b0.toNat = 0x82 ∧ b1.toNat < 0x80) ∨ 0x83 ≤ b0.toNat) →
      decode (b0 :: b1 :: rest) = .ok (.runs (b0.toNat - 0x80) b1, rest)) ∧
  (∀ b0 : Byte, 0x80 ≤ b0.toNat → decode [b0] = .error .noSecondByte) ∧
  ∀ (r : Nat) (v : Byte) (s : State), s.rd.olen ≤ (s.space .rdDst).len →
    ∃ t, exec (.runs r v) s = .next t ∧ TokenDone r 2 v s t

/-- 42 R125: RUNX, its operands from the bytes, its truncation, and its effect for every run length. -/
def Obligations.RunxWritesRun : Prop :=
  (∀ (b1 b2 : Byte) (rest : List Byte), decode (0x81#8 :: b1 :: b2 :: rest) = .ok (.runx b1.toNat b2, rest)) ∧
  (decode [0x81#8] = .error .noSecondByte ∧ ∀ b1 : Byte, decode [0x81#8, b1] = .error .noThirdByte) ∧
  ∀ (r : Nat) (v : Byte) (s : State), s.rd.olen ≤ (s.space .rdDst).len →
    ∃ t, exec (.runx r v) s = .next t ∧ TokenDone r 3 v s t

/-- 42 R126: RUNL, its operands from the bytes, its truncation, and its effect for every run length. -/
def Obligations.RunlWritesRun : Prop :=
  (∀ (b1 b2 : Byte) (rest : List Byte), 0x80 ≤ b1.toNat →
    decode (0x82#8 :: b1 :: b2 :: rest) = .ok (.runl ((b1.toNat - 0x80) + 256) b2, rest)) ∧
  (decode [0x82#8] = .error .noSecondByte ∧
    ∀ b1 : Byte, 0x80 ≤ b1.toNat → decode [0x82#8, b1] = .error .noThirdByte) ∧
  ∀ (r : Nat) (v : Byte) (s : State), s.rd.olen ≤ (s.space .rdDst).len →
    ∃ t, exec (.runl r v) s = .next t ∧ TokenDone r 3 v s t

/-- 42 R123 to R126, R131, R132, 20 R53, 10 R27: the frame of LIT, RUNS, RUNX and RUNL. PQ's and RE's registers, RD's
registers but the two cursors, the bindings and lengths of the spaces, the free values, and every byte but those `fill` writes (indices
`RD.wr` up to `RD.wr + fillCount` of `RD.DST`) are unchanged. -/
def Obligations.TokenFrame : Prop :=
  ∀ (i : Instr) (s t : State), exec i s = .next t →
    t.pq = s.pq ∧ t.re = s.re ∧ t.rd = { s.rd with wr := s.rd.wr + i.run, rd := s.rd.rd + i.bytes } ∧
    t.bind = s.bind ∧ t.agenda = s.agenda ∧ t.draws = s.draws ∧ t.pqDraw = s.pqDraw ∧
    (∀ k : StoreId, (t.buf k).len = (s.buf k).len ∧ ∀ a, (t.buf k).drawOf a = (s.buf k).drawOf a) ∧
    ∀ (k : StoreId) (a : Nat),
      ¬ (k = s.bind.store .rdDst ∧ s.rd.wr ≤ a ∧ a < s.rd.wr + fillCount i.run s) →
        (t.buf k).mem.read a = (s.buf k).mem.read a

/-- 20 R44: a token stops only when `fill` would write beyond the end of `RD.DST`. That it stops there, by the fault
`outOfSpace`, is the model's choice (log entry 12); R44 says a model may do so. -/
def Obligations.TokenStopsOnlyOutsideSpace : Prop :=
  ∀ (i : Instr) (s : State),
    if fillCount i.run s ≠ 0 ∧ (s.space .rdDst).len < s.rd.wr + fillCount i.run s
    then exec i s = .fault .outOfSpace
    else ∃ t, exec i s = .next t

/-- 42 R131: `fill(r, v)` writes `v` to the indices from `RD.wr` that are below both `RD.wr + r` and `RD.olen`, and
changes nothing else: no register, no flag, no index at or beyond `RD.olen`. -/
def Obligations.FillTruncatesSilently : Prop :=
  ∀ (r : Nat) (v : Byte) (s : State), s.rd.olen ≤ (s.space .rdDst).len →
    ∃ t, fill r v s = .ok t ∧ t.pq = s.pq ∧ t.re = s.re ∧ t.rd = s.rd ∧ t.bind = s.bind ∧
      ∀ (k : StoreId) (a : Nat), (t.buf k).mem.read a =
        if k = s.bind.store .rdDst ∧ s.rd.wr ≤ a ∧ a < min (s.rd.wr + r) s.rd.olen then some v
        else (s.buf k).mem.read a

/-- 30 R68: the degenerate tokens are no-operations that only advance the program counter, in every state. -/
def Obligations.ZeroRunsOnlyAdvance : Prop :=
  ∀ (v : Byte) (s : State),
    exec (.runs 0 v) s = .next (s.withRd { s.rd with rd := s.rd.rd + 2 }) ∧
    exec (.runx 0 v) s = .next (s.withRd { s.rd with rd := s.rd.rd + 3 })

/-! ## RD's steps -/

/-- 10 R13, 42 R122: when the bytes at the program counter decode to a token, RD's step is the token's meaning. Which unit
steps next is the model's choice (log entry 1; the spec fixes no order): RD when the agenda is empty, also with RE or PQ
BUSY, and else the unit the agenda's next event names. -/
def Obligations.StepRunsDecodedToken : Prop :=
  ∀ (s : State) (bs : List Byte) (i : Instr) (rest : List Event),
    s.rd.st = .busy → decode bs = .ok (i, []) → s.rd.rd + bs.length ≤ s.rd.clen → s.holds .rdSrc s.rd.rd bs →
      (s.agenda = [] → step s = exec i s) ∧
      (s.agenda = .unit .rd :: rest → step s = exec i (s.withAgenda rest))

/-- 42 R130: with the remaining bytes of the stream readable, RD's step raises MalformedStream exactly in the three cases
of R130, recording the index of the truncated token, with every register but `st`, `err`, `einfo` as it was and no byte
written (60 R190); the output of the call then has no defined value (60 R191). Else RD stays BUSY. -/
def Obligations.TruncatedTokenRaises : Prop :=
  ∀ (s : State) (bs : List Byte), s.rd.st = .busy → s.rd.rd < s.rd.clen → bs.length = s.rd.clen - s.rd.rd →
    s.holds .rdSrc s.rd.rd bs → s.rd.olen ≤ (s.space .rdDst).len →
    if (∃ b0, bs = [b0] ∧ 0x80 ≤ b0.toNat) ∨ (∃ b1, bs = [0x81#8, b1]) ∨
        (∃ b1, bs = [0x82#8, b1] ∧ 0x80 ≤ b1.toNat)
    then ∃ t, rdStep s = .next t ∧
      t.rd = { s.rd with st := .err, err := .malformedStream, einfo := s.rd.rd } ∧ t.pq = s.pq ∧ t.re = s.re ∧
      ∀ (k : StoreId) (a : Nat), (t.buf k).mem.read a =
        if k = s.bind.store .rdDst ∧ a < s.rd.olen then none else (s.buf k).mem.read a
    else ∃ t, rdStep s = .next t ∧ t.rd.st = .busy ∧ t.rd.err = s.rd.err ∧ t.rd.einfo = s.rd.einfo

/-- 42 R133, R136: at the end of the stream RD completes whatever `RD.wr` is; the bytes an underrun left unwritten hold
no defined value (log entry 8), and nothing else changes. -/
def Obligations.DecoderCompletes : Prop :=
  ∀ s : State, s.rd.rd = s.rd.clen → ∃ t, rdStep s = .next t ∧ t.rd = { s.rd with st := .done } ∧
    t.pq = s.pq ∧ t.re = s.re ∧ t.bind = s.bind ∧
    ∀ (k : StoreId) (a : Nat), (t.buf k).mem.read a =
      if k = s.bind.store .rdDst ∧ s.rd.wr ≤ a ∧ a < s.rd.olen then none else (s.buf k).mem.read a

/-- 42 R139, 10 R24: a step of a BUSY RD either moves the program counter forward by 1, 2 or 3, never past the end of the
stream, or ends the call with it unmoved; the call is DONE only with the program counter at the end. -/
def Obligations.ProgramCounterAdvances : Prop :=
  ∀ s t : State, s.rd.st = .busy → unitStep .rd s = .next t →
    (t.rd.st = .busy ∧ s.rd.rd < t.rd.rd ∧ t.rd.rd ≤ s.rd.rd + 3 ∧ t.rd.rd ≤ s.rd.clen) ∨
    (t.rd.rd = s.rd.rd ∧ ((t.rd.st = .done ∧ s.rd.rd = s.rd.clen) ∨ (t.rd.st = .err ∧ s.rd.rd < s.rd.clen)))

/-! ## PQ's steps -/

/-- 40 R82, R83: a pixel whose colour is palette entry `j` (the least such) emits `j`, a slot number; nothing else
changes but the cursor. -/
def Obligations.QuantizerHit : Prop :=
  ∀ (s : State) (p : Rgb) (j : Nat), s.pq.i < s.pq.n → s.pixel s.pq.i = some p →
    s.pq.palette[j]? = some p → (∀ k, k < j → s.pq.palette[k]? ≠ some p) → s.pq.i < (s.space .pqIdx).len →
    j < 128 ∧ ∃ t, pqStep s = .next t ∧ t.pq = { s.pq with i := s.pq.i + 1 } ∧ t.re = s.re ∧ t.rd = s.rd ∧ t.bind = s.bind ∧
      ∀ (k : StoreId) (a : Nat), (t.buf k).mem.read a =
        if k = s.bind.store .pqIdx ∧ a = s.pq.i then some (byteOf j) else (s.buf k).mem.read a

/-- 40 R82, R84: a pixel of a new colour, with a slot free, takes the next slot and emits its number. -/
def Obligations.QuantizerAppend : Prop :=
  ∀ (s : State) (p : Rgb), s.pq.i < s.pq.n → s.pixel s.pq.i = some p → p ∉ s.pq.palette → s.pq.pcount < 128 →
    s.pq.i < (s.space .pqIdx).len →
    ∃ t, pqStep s = .next t ∧ t.pq.i = s.pq.i + 1 ∧ t.pq.pcount = s.pq.pcount + 1 ∧
      t.pq.palette = s.pq.palette ++ [p] ∧
      (∀ j : Fin 128, t.pq.pal[j] = if j.val = s.pq.pcount then p else s.pq.pal[j]) ∧
      t.pq.st = s.pq.st ∧ t.pq.w = s.pq.w ∧ t.pq.h = s.pq.h ∧ t.pq.n = s.pq.n ∧ t.pq.err = s.pq.err ∧
      t.pq.einfo = s.pq.einfo ∧ t.re = s.re ∧ t.rd = s.rd ∧ t.bind = s.bind ∧
      ∀ (k : StoreId) (a : Nat), (t.buf k).mem.read a =
        if k = s.bind.store .pqIdx ∧ a = s.pq.i then some (byteOf s.pq.pcount) else (s.buf k).mem.read a

/-- 40 R82, R85, 60 R187, R190, R191: a pixel of a 129th colour raises PaletteOverflow with its index; the other
registers of the block are as they were, no byte is written, and the indexed image has no defined value (log entry
8). -/
def Obligations.QuantizerOverflow : Prop :=
  ∀ (s : State) (p : Rgb), s.pq.i < s.pq.n → s.pixel s.pq.i = some p → p ∉ s.pq.palette → 128 ≤ s.pq.pcount →
    ∃ t, pqStep s = .next t ∧
      t.pq = { s.pq with st := .err, err := .paletteOverflow, einfo := s.pq.i } ∧ t.re = s.re ∧ t.rd = s.rd ∧
      t.bind = s.bind ∧
      ∀ (k : StoreId) (a : Nat), (t.buf k).mem.read a =
        if k = s.bind.store .pqIdx ∧ a < s.pq.n then none else (s.buf k).mem.read a

/-! ## RE's steps -/

/-- 41 R102, R104 to R108: with `r` the longest run of `v` below 0x80 (R113) at the cursor (at most 383 or the remaining input), RE emits
the token of R104, R105, R106 or R107 by the value of `r`, advances `RE.wo` by its length and `RE.cur` by `r`, and
changes nothing else. -/
def Obligations.EncoderEmitsRun : Prop :=
  ∀ (s : State) (r : Nat) (v : Byte), s.re.cur < s.re.n → v.toNat < 0x80 → 1 ≤ r → r ≤ 383 → s.re.cur + r ≤ s.re.n →
    s.holds .reSrc s.re.cur (List.replicate r v) →
    (r = 383 ∨ s.re.cur + r = s.re.n ∨ ∃ b, b ≠ v ∧ s.readSpace .reSrc (s.re.cur + r) = .ok b) →
    s.re.wo + r ≤ (s.space .reDst).len →
    ∃ (t : State) (out : List Byte), reStep s = .next t ∧
      (r = 1 → out = [v]) ∧
      (2 ≤ r ∧ r ≤ 127 → out = [byteOf (128 + r), v]) ∧
      (128 ≤ r ∧ r ≤ 255 → out = [0x81#8, byteOf r, v]) ∧
      (256 ≤ r → out = [0x82#8, byteOf (128 + (r - 256)), v]) ∧
      t.re = { s.re with cur := s.re.cur + r, wo := s.re.wo + out.length } ∧ t.pq = s.pq ∧ t.rd = s.rd ∧
      t.bind = s.bind ∧
      ∀ (k : StoreId) (a : Nat), (t.buf k).mem.read a =
        if k = s.bind.store .reDst ∧ s.re.wo ≤ a ∧ a < s.re.wo + out.length then out[a - s.re.wo]?
        else (s.buf k).mem.read a

/-- 41 R109: at the end of its input RE completes, with the warning exactly above 8192 bytes; nothing else changes. -/
def Obligations.EncoderCompletes : Prop :=
  ∀ s : State, s.re.cur = s.re.n →
    reStep s = .next (s.withRe { s.re with st := .done, warn := decide (s.re.wo > 8192) })

/-- 30 R73, 41 R104 to R107: for every run RE can emit, the bytes are those of a well-formed token of that run length and
value. -/
def Obligations.EmittedRunIsItsToken : Prop :=
  ∀ (r : Nat) (v : Byte), 1 ≤ r → r ≤ 383 → v.toNat < 0x80 →
    emitted r v = encode (runToken r v) ∧ (runToken r v).wellFormed = true ∧
      (runToken r v).run = r ∧ (runToken r v).value = v

/-! ## The host's operations -/

/-- 10 R12, 40 R81, R86: PQ.START with everything 70 R212 asks for is accepted and sets every register of PQ as R81 says,
the palette slots apart; with no pixel left PQ completes. A width or height no 32-bit register holds (the other is then
0) is accepted too; what its register then holds is a free value of 32 bits (log entry 10), and nothing else is said of
it. -/
def Obligations.QuantizerStartsAndCompletes : Prop :=
  (∀ (s : State) (w h : Nat), s.pq.st ≠ .busy → w * h ≤ 16777216 → s.disjointFor .pq = true →
    (s.space .pqPix).len = 3 * (w * h) → w * h ≤ (s.space .pqIdx).len →
    (s.space .pqPix).placed (3 * (w * h)) = true →
    ∃ t, pqStart w h s = .next t ∧
      t.pq = { st := .busy, w := t.pq.w, h := t.pq.h, n := w * h, i := 0, pcount := 0, pal := s.pq.pal,
               err := .noError, einfo := 0 } ∧
      (w < 4294967296 → t.pq.w = w) ∧ (h < 4294967296 → t.pq.h = h) ∧
      t.pq.w < 4294967296 ∧ t.pq.h < 4294967296 ∧
      t.re = s.re ∧ t.rd = s.rd ∧ t.bufs = s.bufs ∧ t.bind = s.bind ∧ t.agenda = s.agenda) ∧
  ∀ s : State, s.pq.i = s.pq.n → pqStep s = .next (s.withPq { s.pq with st := .done })

/-- 10 R12, 41 R101: RE.START with everything 70 R212 asks for (20 R44, R55; 41 R113) is accepted and sets RE's registers;
nothing else changes but the call counter. That counter and its advance by 1 are the model's choice (log entry 9). -/
def Obligations.EncoderStarts : Prop :=
  ∀ (s : State) (n : Nat), s.re.st ≠ .busy → n ≤ 16777216 → s.disjointFor .re = true →
    n ≤ (s.space .reSrc).len → n ≤ (s.space .reDst).len →
    (∀ a, a < n → ∃ v : Byte, (s.space .reSrc).mem.read a = some v ∧ v.toNat < 0x80) →
    ∃ t, reStart n s = .next t ∧ t.re = { st := .busy, n := n, cur := 0, wo := 0, warn := false } ∧
      t.pq = s.pq ∧ t.rd = s.rd ∧ t.bufs = s.bufs ∧ t.bind = s.bind ∧ t.agenda = s.agenda ∧ t.pqDraw = s.pqDraw ∧
      t.draws = s.draws + 1

/-- 10 R12, 42 R121: RD.START with everything 70 R212 asks for (20 R44, R55) is accepted and sets RD's registers; `RD.DST`
is not cleared, and nothing else changes but the call counter. That counter and its advance by 1 are the model's choice
(log entry 9). -/
def Obligations.DecoderStarts : Prop :=
  ∀ (s : State) (clen olen : Nat), s.rd.st ≠ .busy → clen ≤ 16777216 → olen ≤ 16777216 →
    s.disjointFor .rd = true → clen ≤ (s.space .rdSrc).len → olen ≤ (s.space .rdDst).len →
    (s.space .rdSrc).placed clen = true →
    ∃ t, rdStart clen olen s = .next t ∧
      t.rd = { st := .busy, clen := clen, olen := olen, rd := 0, wr := 0, err := .noError, einfo := 0 } ∧
      t.pq = s.pq ∧ t.re = s.re ∧ t.bufs = s.bufs ∧ t.bind = s.bind ∧ t.agenda = s.agenda ∧ t.pqDraw = s.pqDraw ∧
      t.draws = s.draws + 1

/-- 70 R218, R219, 20 R41, R55, 41 R113: a START of a BUSY unit, above `LEN_MAX`, with a pixel buffer of another length,
with an input byte of 0x80 or more, with too small or with overlapping spaces is refused. -/
def Obligations.IllegalStartsRefused : Prop :=
  ∀ (s : State) (w h n clen olen : Nat),
    ((s.pq.st = .busy ∨ 16777216 < w * h ∨ (s.space .pqPix).len ≠ 3 * (w * h) ∨ (s.space .pqIdx).len < w * h ∨
        s.disjointFor .pq = false) → ∃ r, pqStart w h s = .refused r) ∧
    ((s.re.st = .busy ∨ 16777216 < n ∨ (s.space .reSrc).len < n ∨ (s.space .reDst).len < n ∨
        s.disjointFor .re = false ∨
        ∃ (a : Nat) (v : Byte), a < n ∧ (s.space .reSrc).mem.read a = some v ∧ 0x80 ≤ v.toNat) →
      ∃ r, reStart n s = .refused r) ∧
    ((s.rd.st = .busy ∨ 16777216 < clen ∨ 16777216 < olen ∨ (s.space .rdSrc).len < clen ∨
        (s.space .rdDst).len < olen ∨ s.disjointFor .rd = false) → ∃ r, rdStart clen olen s = .refused r)

/-- 20 R40, R46, 70 R216: while a unit is BUSY the host can neither read nor write its spaces, nor provide their storage
anew, nor make them another storage, nor make any space their storage. -/
def Obligations.BusySpacesUntouchable : Prop :=
  ∀ (s : State) (u : UnitId), s.st u = .busy → ∀ sp : SpaceId, sp.unit = u →
    (∀ a, hostByte s sp a = .refused .busySpaceTouched) ∧
    (∀ pos bytes, place (s.bind.store sp) pos bytes s = .refused .busySpaceTouched) ∧
    (∀ len, provide (s.bind.store sp) len s = .refused .busySpaceTouched) ∧
    (∀ k, handOver sp k s = .refused .busySpaceTouched) ∧
    ∀ other, handOver other (s.bind.store sp) s = .refused .busySpaceTouched

/-- 20 R40, R48, R52, 70 R212, R213: with no BUSY unit owning a storage, the host places bytes inside it and nothing else
changes, provides it anew at any length with no byte holding a defined value (log entry 6), and reads from it the bytes
that hold one. -/
def Obligations.HostAccessCompletes : Prop :=
  ∀ (s : State) (k : StoreId), s.owned k = false →
    (∀ (pos : Nat) (bytes : List Byte), pos + bytes.length ≤ (s.buf k).len →
      ∃ t, place k pos bytes s = .next t ∧ t.pq = s.pq ∧ t.re = s.re ∧ t.rd = s.rd ∧ t.bind = s.bind ∧
        t.agenda = s.agenda ∧ t.draws = s.draws ∧ t.pqDraw = s.pqDraw ∧
        (∀ j : StoreId, (t.buf j).len = (s.buf j).len) ∧
        ∀ (j : StoreId) (a : Nat), (t.buf j).mem.read a =
          if j = k ∧ pos ≤ a ∧ a < pos + bytes.length then bytes[a - pos]? else (s.buf j).mem.read a) ∧
    (∀ len : Nat, ∃ t, provide k len s = .next t ∧ t.pq = s.pq ∧ t.re = s.re ∧ t.rd = s.rd ∧ t.bind = s.bind ∧
      t.agenda = s.agenda ∧ t.pqDraw = s.pqDraw ∧ (t.buf k).len = len ∧ (∀ a, (t.buf k).mem.read a = none) ∧
      ∀ j : StoreId, j ≠ k → t.buf j = s.buf j) ∧
    ∀ (sp : SpaceId) (a : Nat) (v : Byte), s.bind.store sp = k → a < (s.buf k).len →
      (s.buf k).mem.read a = some v → hostByte s sp a = .next v

/-- 20 R48: "reading twice gives the same byte", one that holds no defined value too (log entry 9). A byte of a storage no
BUSY unit owns reads the same through every space that is that storage, and the same before and after a step of a unit,
a START that leaves it unowned, a hand-off of another space, and a placing of other bytes. -/
def Obligations.ReadingTwiceGivesSameByte : Prop :=
  (∀ (s : State) (c d : SpaceId) (a : Nat), s.bind.store c = s.bind.store d → hostByte s c a = hostByte s d a) ∧
  (∀ (u : UnitId) (s t : State) (c : SpaceId) (a : Nat), unitStep u s = .next t →
    s.owned (s.bind.store c) = false → hostByte t c a = hostByte s c a) ∧
  (∀ (s t : State) (w h n clen olen : Nat) (c : SpaceId) (a : Nat),
    (pqStart w h s = .next t ∨ reStart n s = .next t ∨ rdStart clen olen s = .next t) →
    t.owned (t.bind.store c) = false → hostByte t c a = hostByte s c a) ∧
  (∀ (s t : State) (sp c : SpaceId) (k : StoreId) (a : Nat), handOver sp k s = .next t → c ≠ sp →
    hostByte t c a = hostByte s c a) ∧
  ∀ (s t : State) (k : StoreId) (pos : Nat) (bytes : List Byte) (c : SpaceId) (a : Nat),
    place k pos bytes s = .next t → ¬ (s.bind.store c = k ∧ pos ≤ a ∧ a < pos + bytes.length) →
    hostByte t c a = hostByte s c a

/-- 20 R46, R52: the hand-off. A space made another's storage, between calls of the space's unit and of every unit that
owns the storage, reads as that storage reads. That the hand-off is a change of binding is the model's choice (log
entry 7). -/
def Obligations.HandOffSharesStorage : Prop :=
  ∀ (s : State) (a b : SpaceId), s.st a.unit ≠ .busy → s.owned (s.bind.store b) = false →
    ∃ t, handOver a (s.bind.store b) s = .next t ∧ t.space a = s.space b ∧
      (∀ c, c ≠ a → t.space c = s.space c) ∧ t.bufs = s.bufs ∧ t.pq = s.pq ∧ t.re = s.re ∧ t.rd = s.rd

/-- 70 R210, R222: after the reset event every unit is IDLE, from whatever state, and no byte of memory holds a defined
value (log entry 6); `State.reset` is such a state. That the arrays keep their lengths is the model's choice (log entry
13). That the other registers are 0 is the model's choice (log entry 5) and not stated
here. -/
def Obligations.ResetLeavesUnitsIdle : Prop :=
  (∀ u, State.reset.st u = .idle) ∧ (∀ (k : StoreId) (a : Nat), (State.reset.buf k).mem.read a = none) ∧
  ∀ s : State, ∃ t, hostStep .resetEvent s = .next t ∧ (∀ u, t.st u = .idle) ∧
    ∀ (k : StoreId) (a : Nat), (t.buf k).mem.read a = none ∧ (t.buf k).len = (s.buf k).len

/-- 60 R196: a unit in ERR stays in ERR with its error registers held until the next START of that unit, or the reset
event (70 R222). -/
def Obligations.ErrorHeldUntilStart : Prop :=
  ∀ s t : State, step s = .next t →
    (s.pq.st = .err → (t.pq.st = .err ∧ t.pq.err = s.pq.err ∧ t.pq.einfo = s.pq.einfo) ∨
      (∃ w h rest, s.agenda = .host (.pqStart w h) :: rest) ∨ ∃ rest, s.agenda = .host .resetEvent :: rest) ∧
    (s.rd.st = .err → (t.rd.st = .err ∧ t.rd.err = s.rd.err ∧ t.rd.einfo = s.rd.einfo) ∨
      (∃ clen olen rest, s.agenda = .host (.rdStart clen olen) :: rest) ∨
      ∃ rest, s.agenda = .host .resetEvent :: rest)

/-- 10 R10, 20 R52, R53: a step of one unit changes no register of another unit, no binding and no length, and no byte
outside the unit's own write space; in particular the stream RD executes is never written unless it is that space. -/
def Obligations.UnitsDoNotInterfere : Prop :=
  ∀ (u : UnitId) (s t : State), unitStep u s = .next t →
    (u ≠ .pq → t.pq = s.pq) ∧ (u ≠ .re → t.re = s.re) ∧ (u ≠ .rd → t.rd = s.rd) ∧
    t.bind = s.bind ∧ t.agenda = s.agenda ∧ t.draws = s.draws ∧ t.pqDraw = s.pqDraw ∧
    (∀ k : StoreId, (t.buf k).len = (s.buf k).len) ∧
    ∀ (k : StoreId) (a : Nat), k ≠ s.bind.store u.writeSpace → (t.buf k).mem.read a = (s.buf k).mem.read a

/-- 10 R13, 60 R193: a unit's step is never refused; only a host operation can be. -/
def Obligations.UnitStepsNeverRefused : Prop :=
  ∀ (u : UnitId) (s : State) (r : Refusal), unitStep u s ≠ .refused r

/-- 60 R205: a step of one instance leaves every other instance as it was. -/
def Obligations.InstancesIndependent : Prop :=
  ∀ (k : Nat) (p q : List State), platformStep k p = .next q →
    q.length = p.length ∧ (∀ j, j ≠ k → q[j]? = p[j]?) ∧
    ∀ s, p[k]? = some s → ∃ t, step s = .next t ∧ q[k]? = some t

/-! ## Invariants -/

/-- 20 R40, R47: every step keeps the canonical form of every byte array, its contents inside it. -/
def Obligations.MemoryFormKept : Prop := ∀ s t : State, s.wf → step s = .next t → t.wf

/-- 10 R18, R20, R24, R26, 41 R112, 42 R139, R141, 60 R186: every step keeps every cursor within its limit, `RE.wo` at
most `RE.cur`, `RD.wr` at most 128 times `RD.rd`, every length at most `LEN_MAX`, and RE out of ERR. For the reset event
it rests on the registers being 0 after it, the model's choice (log entry 13). -/
def Obligations.CursorBoundsKept : Prop := ∀ s t : State, s.CursorsOk → step s = .next t → t.CursorsOk

/-- 60 R190, R194, R196: every step keeps the error registers in agreement with the unit states. For the reset event it
rests on the error registers holding no error after it, the model's choice (log entry 13). -/
def Obligations.ErrorRegistersKept : Prop := ∀ s t : State, s.ErrorsOk → step s = .next t → t.ErrorsOk

/-- 20 R46, R55, 70 R212: what START checked of a call's spaces holds until the call ends, whatever the other units and
the host do. -/
def Obligations.CallsReadyKept : Prop := ∀ s t : State, s.CallsReady → step s = .next t → t.CallsReady

/-- 70 R210: the invariant holds at reset. It rests on the reset values the model chose (log entries 5, 6, 7). -/
def Obligations.SafeAtReset : Prop := State.reset.Safe

/-- 20 R44, 10 R13: from a state of the invariant no step ends in a fault. -/
def Obligations.SafeStatesNeverFault : Prop := ∀ (s : State) (f : Fault), s.Safe → step s ≠ .fault f

/-- 10 R18: every step keeps the palette invariants (a) to (e) of a running PQ call. -/
def Obligations.PaletteInvariantKept : Prop :=
  ∀ s t : State, s.Safe → s.PaletteOk → step s = .next t → t.PaletteOk

/-- 10 R17, R20, R21, 42 R141: in a state of the invariant every register holds a number its width can hold. -/
def Obligations.RegistersFitTheirWidths : Prop := ∀ (s : State) (r : Reg), s.Safe → readReg s r < r.range

/-! ## Whole calls -/

/-- 41 R111: an accepted RE call ends DONE with `rle_enc` of its input, its length and the warning. -/
def Obligations.EncoderCallComputes : Prop :=
  ∀ (s t : State) (n : Nat) (bs : List Byte), reStart n s = .next t → (s.space .reSrc).prefixOf n = some bs →
    ∃ f, runUnit .re (n + 1) t = .next f ∧ f.re.st = .done ∧ f.re.wo = (rleEnc bs).length ∧
      (f.space .reDst).prefixOf f.re.wo = some (rleEnc bs) ∧ f.re.warn = decide (f.re.wo > 8192)

/-- 42 R137: an accepted RD call ends in ERR with the index of the truncated token, or DONE with the expanded stream up
to `olen` and its full length in `RD.wr`. -/
def Obligations.DecoderCallComputes : Prop :=
  ∀ (s t : State) (clen olen : Nat) (bs : List Byte), rdStart clen olen s = .next t →
    (s.space .rdSrc).prefixOf clen = some bs →
    ∃ f, runUnit .rd (clen + 1) t = .next f ∧
      match rleDec bs olen with
      | .error p => f.rd.st = .err ∧ f.rd.err = .malformedStream ∧ f.rd.einfo = p
      | .ok (out, total) => f.rd.st = .done ∧ f.rd.wr = total ∧ f.rd.rd = clen ∧
          (f.space .rdDst).prefixOf out.length = some out

/-- 40 R88: an accepted PQ call ends DONE with the palette of distinct colours and the index of every pixel, or in ERR
with the index of the first pixel of the 129th distinct colour. -/
def Obligations.QuantizerCallComputes : Prop :=
  ∀ (s t : State) (w h : Nat) (bs : List Byte), pqStart w h s = .next t →
    (s.space .pqPix).prefixOf (3 * (w * h)) = some bs →
    ∃ f, runUnit .pq (w * h + 1) t = .next f ∧
      match pqCall (toPixels bs) with
      | .error i => f.pq.st = .err ∧ f.pq.err = .paletteOverflow ∧ f.pq.einfo = i
      | .ok (pal, idx) => f.pq.st = .done ∧ f.pq.pcount = pal.length ∧ f.pq.palette = pal ∧
          (f.space .pqIdx).prefixOf (w * h) = some idx

/-- 40 R90, 41 R110, 42 R140: the number of steps of a call, one that fails too. -/
def Obligations.CallsEndInTheirStepCount : Prop :=
  (∀ (s t : State) (n : Nat) (bs : List Byte), reStart n s = .next t → (s.space .reSrc).prefixOf n = some bs →
    callSteps .re (n + 1) t = some ((runsOf bs.length bs).length + 1)) ∧
  (∀ (s t : State) (clen olen : Nat) (bs : List Byte), rdStart clen olen s = .next t →
    (s.space .rdSrc).prefixOf clen = some bs →
      callSteps .rd (clen + 1) t = some (tokensIn bs.length bs + 1) ∧ tokensIn bs.length bs ≤ clen ∧
      (∀ is, decodeStream bs.length 0 bs = .ok is → tokensIn bs.length bs = is.length) ∧
      ∀ p, decodeStream bs.length 0 bs = .error p →
        ∃ is, decodeStream p 0 (bs.take p) = .ok is ∧ tokensIn bs.length bs = is.length) ∧
  ∀ (s t : State) (w h : Nat) (bs : List Byte), pqStart w h s = .next t →
    (s.space .pqPix).prefixOf (3 * (w * h)) = some bs →
    callSteps .pq (w * h + 1) t = some (match pqCall (toPixels bs) with
      | .error i => i + 1
      | .ok _ => w * h + 1)

/-- 10 R30, 70 R211: the result of an RD call is a function of its operands and its input: two calls from any two states
with the same stream and expected length end alike, in every register and in every output byte that has a defined value.
That a byte below `olen` which an underrun or an error leaves at any value (42 R136, 60 R191) has no value after either
call is the model's reading (log entry 8), and for such a byte the equality says that alone. -/
def Obligations.DecoderCallStateless : Prop :=
  ∀ (s s' t t' : State) (clen olen : Nat) (bs : List Byte),
    rdStart clen olen s = .next t → rdStart clen olen s' = .next t' →
    (s.space .rdSrc).prefixOf clen = some bs → (s'.space .rdSrc).prefixOf clen = some bs →
    ∃ f f', runUnit .rd (clen + 1) t = .next f ∧ runUnit .rd (clen + 1) t' = .next f' ∧ f.rd = f'.rd ∧
      ∀ a, a < olen → (f.space .rdDst).mem.read a = (f'.space .rdDst).mem.read a

/-- 41 R114: decoding what RE emits gives the input back, with nothing truncated. -/
def Obligations.EncodingRoundTrips : Prop :=
  ∀ s : List Byte, (∀ b ∈ s, b.toNat < 0x80) → rleDec (rleEnc s) s.length = .ok (s, s.length)

/-- 41 R112: the stream of an input whose bytes are below 0x80 (R111) is never longer than it, and as long exactly when no
three consecutive bytes are equal. -/
def Obligations.EncodingNeverLonger : Prop :=
  ∀ s : List Byte, (∀ b ∈ s, b.toNat < 0x80) → (rleEnc s).length ≤ s.length ∧
    ((rleEnc s).length = s.length ↔
      ¬ ∃ (k : Nat) (v : Byte), s[k]? = some v ∧ s[k + 1]? = some v ∧ s[k + 2]? = some v)

/-- 41 R103: `m` equal bytes below 0x80 (R111) give `m div 383` tokens of run length 383 and one for the remainder, if there is one. -/
def Obligations.LongRunsCutAtCap : Prop :=
  ∀ (m : Nat) (v : Byte), v.toNat < 0x80 → rleEnc (List.replicate m v) =
    (List.replicate (m / 383) [0x82, 0xFF, v]).flatten ++ (if m % 383 = 0 then [] else emitted (m % 383) v)

/-- 30 R70: the canonical streams are exactly the streams RE produces. -/
def Obligations.CanonicalStreamsAreEncodings : Prop :=
  ∀ bs : List Byte, Canonical bs ↔ ∃ s : List Byte, (∀ b ∈ s, b.toNat < 0x80) ∧ rleEnc s = bs

/-- 40 R89, R92: the index of a colour is the number of distinct colours strictly before its first occurrence; it names
the pixel's colour and is below 128. -/
def Obligations.PaletteIndexStable : Prop :=
  ∀ (cs pal : List Rgb) (idx : List Byte), pqCall cs = .ok (pal, idx) →
    pal.length ≤ 128 ∧ idx.length = cs.length ∧
    ∀ (k : Nat) (c : Rgb), cs[k]? = some c →
      ∃ j, idx[k]? = some (byteOf j) ∧ j = (firsts (cs.take (cs.idxOf c))).length ∧ j < 128 ∧ pal[j]? = some c

/-- 40 R88, 60 R187: PaletteOverflow names the first pixel, in order, of the 129th distinct colour. -/
def Obligations.OverflowAt129thColour : Prop :=
  ∀ (cs : List Rgb) (i : Nat), pqCall cs = .error i ↔
    i < cs.length ∧ (firsts (cs.take i)).length = 128 ∧ (firsts (cs.take (i + 1))).length = 129

/-! ## The file record and the façade (context outside the block) -/

/-- 43 R151 to R158: a record whose integers fit in 32 bits survives being written and read. -/
def Obligations.RecordRoundTrips : Prop :=
  ∀ f : FileRecord, f.totalSize < 4294967296 → f.width < 4294967296 → f.height < 4294967296 →
    parse (serialize f) = .value f ∧ (serialize f).length = f.totalSize

/-- 44 R178: every pixel buffer within the accepted dimensions and with at most 128 distinct colours is encoded, and
decoding the file gives it back. That an image of width or height 0 is encoded and decoded too is the model's choice
(log entry 25). -/
def Obligations.FacadeRoundTrips : Prop :=
  ∀ (pixels : List Byte) (w h : Nat), w ≤ 320 → h ≤ 90 → pixels.length = 3 * (w * h) →
    (firsts (toPixels pixels)).length ≤ 128 →
    ∃ file warn, facadeEncode pixels w h = .value (file, warn) ∧ facadeDecode file = .value (pixels, w, h)

/-- 43 R160: the worked example, byte by byte. -/
def Obligations.WorkedExampleFile : Prop :=
  facadeEncode [10, 20, 30, 10, 20, 30] 2 1 = .value
    ([0x4D, 0x52, 0x24, 0, 0, 0, 0, 0, 0, 0, 0x22, 0, 0, 0, 2, 0, 0, 0, 1, 0, 0, 0, 0, 0, 0, 0, 1, 0, 0, 0,
      0x1E, 0x14, 0x0A, 0, 0x82, 0], false)

/-- 44 R171, 60 R194: each dimension is tested on its own and first, whatever the pixels. -/
def Obligations.DimensionsTestedFirst : Prop :=
  ∀ (pixels : List Byte) (w h : Nat), 320 < w ∨ 90 < h →
    facadeEncode pixels w h = .failed .dimensionTooLarge none
end

