-- ==== Sys2Proof/Laws/Decode.lean ====
section
/-! SUPPORT. The laws of a token's bytes: what the tag arithmetic gives, and what a decoded token can be. -/

namespace Sys2Proof

@[simp] theorem byteOf_toNat (n : Nat) : (byteOf n).toNat = n % 256 := BitVec.toNat_ofNat n 8

/-- A byte is the byte of its own value. -/
@[simp] theorem byteOf_of_toNat (b : Byte) : byteOf b.toNat = b := by
  apply BitVec.eq_of_toNat_eq
  have := b.isLt
  rw [byteOf_toNat]
  omega

/-- `0x80 | r` is `128 + r` for `r` up to 127 (41 R115). -/
theorem tagOr (r : Nat) (h : r < 128) : 0x80#8 ||| byteOf r = byteOf (128 + r) := by
  have : ∀ k : Fin 128, 0x80#8 ||| byteOf k.val = byteOf (128 + k.val) := by decide
  exact this ⟨r, h⟩

/-- A tag byte is `0x80 | (b - 0x80)` (00 R9). -/
theorem tagOr_sub (b : Byte) (h : 0x80 ≤ b.toNat) : 0x80#8 ||| byteOf (b.toNat - 0x80) = b := by
  have hb := b.isLt
  rw [tagOr _ (by omega)]
  have : 128 + (b.toNat - 0x80) = b.toNat := by omega
  rw [this, byteOf_of_toNat]

/-- Everything the decoder can answer on a nonempty string, by its first bytes (30 R65; 42 R130). -/
theorem decode_cons (b0 : Byte) (t : List Byte) :
    (b0.toNat < 0x80 ∧ decode (b0 :: t) = .ok (.lit b0, t)) ∨
    (0x80 ≤ b0.toNat ∧ t = [] ∧ decode (b0 :: t) = .error .noSecondByte) ∨
    (∃ b1, b0 = 0x81#8 ∧ t = [b1] ∧ decode (b0 :: t) = .error .noThirdByte) ∨
    (∃ b1 b2 u, b0 = 0x81#8 ∧ t = b1 :: b2 :: u ∧ decode (b0 :: t) = .ok (.runx b1.toNat b2, u)) ∨
    (∃ b1, b0 = 0x82#8 ∧ 0x80 ≤ b1.toNat ∧ t = [b1] ∧ decode (b0 :: t) = .error .noThirdByte) ∨
    (∃ b1 b2 u, b0 = 0x82#8 ∧ 0x80 ≤ b1.toNat ∧ t = b1 :: b2 :: u ∧
      decode (b0 :: t) = .ok (.runl (b1.toNat - 0x80 + 256) b2, u)) ∨
    (∃ b1 u, 0x80 ≤ b0.toNat ∧ b0 ≠ 0x81#8 ∧ ¬ (b0 = 0x82#8 ∧ 0x80 ≤ b1.toNat) ∧ t = b1 :: u ∧
      decode (b0 :: t) = .ok (.runs (b0.toNat - 0x80) b1, u)) := by
  by_cases h0 : b0.toNat < 0x80
  · exact .inl ⟨h0, by simp only [decode, if_pos h0]⟩
  · have h0' : 0x80 ≤ b0.toNat := by omega
    refine .inr ?_
    cases t with
    | nil => exact .inl ⟨h0', rfl, by simp only [decode, if_neg h0]⟩
    | cons b1 t1 =>
      refine .inr ?_
      by_cases h1 : b0 = 0x81#8
      · cases t1 with
        | nil => exact .inl ⟨b1, h1, rfl, by simp only [decode, if_neg h0, if_pos h1]⟩
        | cons b2 t2 => exact .inr (.inl ⟨b1, b2, t2, h1, rfl, by simp only [decode, if_neg h0, if_pos h1]⟩)
      · refine .inr (.inr ?_)
        by_cases h2 : b0 = 0x82#8 ∧ 0x80 ≤ b1.toNat
        · cases t1 with
          | nil => exact .inl ⟨b1, h2.1, h2.2, rfl, by simp only [decode, if_neg h0, if_neg h1, if_pos h2]⟩
          | cons b2 t2 =>
            exact .inr (.inl ⟨b1, b2, t2, h2.1, h2.2, rfl, by simp only [decode, if_neg h0, if_neg h1, if_pos h2]⟩)
        · exact .inr (.inr ⟨b1, t1, h0', h1, h2, rfl, by simp only [decode, if_neg h0, if_neg h1, if_neg h2]⟩)

/-- A decoded token consumes as many bytes as its length (30 R66). -/
theorem decode_length {bs rest : List Byte} {i : Instr} (h : decode bs = .ok (i, rest)) :
    bs.length = i.bytes + rest.length := by
  cases bs with
  | nil => simp [decode] at h
  | cons b0 t =>
    rcases decode_cons b0 t with ⟨_, e⟩ | ⟨_, _, e⟩ | ⟨_, _, _, e⟩ | ⟨_, _, _, _, rfl, e⟩ | ⟨_, _, _, _, e⟩ |
      ⟨_, _, _, _, _, rfl, e⟩ | ⟨_, _, _, _, _, rfl, e⟩ <;> rw [e] at h <;> cases h <;>
      simp only [Instr.bytes, List.length_cons] <;> omega

/-- The run of a decoded token grows `RD.wr` by fewer than 128 per byte of the stream (42 R141). -/
theorem decode_run_le {bs rest : List Byte} {i : Instr} (h : decode bs = .ok (i, rest)) :
    i.run ≤ 128 * i.bytes := by
  cases bs with
  | nil => simp [decode] at h
  | cons b0 t =>
    have hb := b0.isLt
    rcases decode_cons b0 t with ⟨_, e⟩ | ⟨_, _, e⟩ | ⟨_, _, _, e⟩ | ⟨b1, _, _, _, rfl, e⟩ | ⟨_, _, _, _, e⟩ |
      ⟨b1, _, _, _, _, rfl, e⟩ | ⟨b1, _, _, _, _, rfl, e⟩ <;> rw [e] at h <;> cases h <;>
      simp only [Instr.bytes, Instr.run] <;> omega

end Sys2Proof
end

