-- ==== Sys2Proof/Laws/Memory.lean ====
section
/-! SUPPORT. The laws of the contents of a byte array: what a read gives after a write or a forgetting, and that both
keep the canonical form. -/

namespace Sys2Proof.Machine

@[simp] theorem Memory.read_nil (i : Nat) : Memory.read [] i = none := rfl

theorem Memory.read_cons (a : Nat) (v : Byte) (t : Memory) (i : Nat) :
    Memory.read ((a, v) :: t) i = if a = i then some v else Memory.read t i := rfl

theorem Memory.read_append (m m' : Memory) (i : Nat) :
    Memory.read (m ++ m') i = (Memory.read m i).or (Memory.read m' i) := by
  induction m with
  | nil => simp
  | cons c t ih =>
    obtain ⟨a, v⟩ := c
    by_cases h : a = i <;> simp [Memory.read_cons, h, ih]

/-- Filtering by the index keeps exactly the reads at the indices kept. -/
theorem Memory.read_filter (p : Nat → Prop) [DecidablePred p] (m : Memory) (i : Nat) :
    Memory.read (m.filter (fun c => decide (p c.1))) i = if p i then Memory.read m i else none := by
  induction m with
  | nil => simp
  | cons c t ih =>
    obtain ⟨a, v⟩ := c
    by_cases h : a = i
    · subst h
      by_cases hp : p a <;> simp [Memory.read_cons, hp, ih]
    · by_cases hp : p a <;> simp [Memory.read_cons, hp, ih, h]

theorem Memory.read_cells (lo : Nat) (bs : List Byte) (i : Nat) :
    Memory.read (Memory.cells lo bs) i = if lo ≤ i then bs[i - lo]? else none := by
  induction bs generalizing lo with
  | nil => simp [Memory.cells]
  | cons b t ih =>
    rw [Memory.cells, Memory.read_cons, ih]
    by_cases h : lo = i
    · simp [h]
    · by_cases h' : lo ≤ i
      · obtain ⟨d, rfl⟩ : ∃ d, i = lo + 1 + d := ⟨i - lo - 1, by omega⟩
        have e : lo + 1 + d - lo = d + 1 := by omega
        simp [h, h', e]
      · have h2 : ¬ lo + 1 ≤ i := by omega
        simp [h, h', h2]

/-- A read after a write: the byte written inside the run, the old byte outside it. -/
theorem Memory.read_splice (lo : Nat) (bs : List Byte) (m : Memory) (i : Nat) :
    Memory.read (Memory.splice lo bs m) i =
      if lo ≤ i ∧ i < lo + bs.length then bs[i - lo]? else Memory.read m i := by
  unfold Memory.splice
  rw [Memory.read_append, Memory.read_append, Memory.read_filter (fun a => a < lo),
    Memory.read_filter (fun a => lo + bs.length ≤ a), Memory.read_cells]
  by_cases h1 : i < lo
  · have h2 : ¬ lo ≤ i := by omega
    have h3 : ¬ lo + bs.length ≤ i := by omega
    simp [h1, h2, h3]
  · by_cases h2 : i < lo + bs.length
    · have h3 : ¬ lo + bs.length ≤ i := by omega
      have h4 : lo ≤ i := by omega
      simp [h1, h2, h3, h4]
    · have h3 : lo + bs.length ≤ i := by omega
      have h4 : lo ≤ i := by omega
      have h5 : bs[i - lo]? = none := List.getElem?_eq_none (by omega)
      simp [h1, h2, h3, h4, h5]

theorem Memory.read_forget (lo hi : Nat) (m : Memory) (i : Nat) :
    Memory.read (Memory.forget lo hi m) i = if lo ≤ i ∧ i < hi then none else Memory.read m i := by
  unfold Memory.forget
  rw [Memory.read_filter (fun a => a < lo ∨ hi ≤ a)]
  by_cases h : lo ≤ i ∧ i < hi
  · have : ¬ (i < lo ∨ hi ≤ i) := by omega
    simp [h, this]
  · have : i < lo ∨ hi ≤ i := by omega
    simp [h, this]

theorem Memory.cells_index (lo : Nat) (bs : List Byte) (c : Host.Cell) (h : c ∈ Memory.cells lo bs) :
    lo ≤ c.1 ∧ c.1 < lo + bs.length := by
  induction bs generalizing lo with
  | nil => simp [Memory.cells] at h
  | cons b t ih =>
    rw [Memory.cells, List.mem_cons] at h
    rcases h with rfl | h
    · simp
    · have := ih (lo + 1) h
      simp only [List.length_cons]
      omega

theorem Memory.wf_cells (lo : Nat) (bs : List Byte) : (Memory.cells lo bs).wf := by
  induction bs generalizing lo with
  | nil => exact List.Pairwise.nil
  | cons b t ih =>
    refine List.Pairwise.cons (fun c hc => ?_) (ih (lo + 1))
    have := Memory.cells_index (lo + 1) t c hc
    simp only
    omega

/-- A write keeps the canonical form. -/
theorem Memory.wf_splice (lo : Nat) (bs : List Byte) (m : Memory) (h : m.wf) : (Memory.splice lo bs m).wf := by
  unfold Memory.splice Memory.wf
  rw [List.pairwise_append, List.pairwise_append]
  refine ⟨⟨h.sublist List.filter_sublist, Memory.wf_cells lo bs, ?_⟩, h.sublist List.filter_sublist, ?_⟩
  · intro c hc d hd
    have h1 := (List.mem_filter.mp hc).2
    have h2 := Memory.cells_index lo bs d hd
    simp only [decide_eq_true_eq] at h1
    omega
  · intro c hc d hd
    have h2 := (List.mem_filter.mp hd).2
    simp only [decide_eq_true_eq] at h2
    rcases List.mem_append.mp hc with hc | hc
    · have h1 := (List.mem_filter.mp hc).2
      simp only [decide_eq_true_eq] at h1
      omega
    · have h1 := Memory.cells_index lo bs c hc
      omega

/-- Forgetting keeps the canonical form. -/
theorem Memory.wf_forget (lo hi : Nat) (m : Memory) (h : m.wf) : (Memory.forget lo hi m).wf :=
  h.sublist List.filter_sublist

theorem Memory.splice_index (lo : Nat) (bs : List Byte) (m : Memory) (c : Host.Cell)
    (h : c ∈ Memory.splice lo bs m) : c ∈ m ∨ (lo ≤ c.1 ∧ c.1 < lo + bs.length) := by
  unfold Memory.splice at h
  rcases List.mem_append.mp h with h | h
  · rcases List.mem_append.mp h with h | h
    · exact .inl (List.mem_filter.mp h).1
    · exact .inr (Memory.cells_index lo bs c h)
  · exact .inl (List.mem_filter.mp h).1

/-- A byte array stays in canonical form when bytes inside it are written. -/
theorem Buffer.wf_splice (b : Buffer) (lo : Nat) (bs : List Byte) (h : b.wf) (hl : lo + bs.length ≤ b.len) :
    Buffer.wf { b with mem := Memory.splice lo bs b.mem } := by
  refine ⟨Memory.wf_splice lo bs b.mem h.1, fun c hc => ?_⟩
  rcases Memory.splice_index lo bs b.mem c hc with hc | hc
  · exact h.2 c hc
  · simp only
    omega

/-- A byte array stays in canonical form when bytes are forgotten. -/
theorem Buffer.wf_forget (b : Buffer) (lo hi : Nat) (losses : List Loss) (h : b.wf) :
    Buffer.wf { b with mem := Memory.forget lo hi b.mem, losses := losses } :=
  ⟨Memory.wf_forget lo hi b.mem h.1, fun c hc => h.2 c (List.mem_filter.mp hc).1⟩

/-- A byte array with nothing placed is in canonical form. -/
theorem Buffer.wf_empty (len draw : Nat) : Buffer.wf { len := len, mem := [], draw := draw, losses := [] } :=
  ⟨List.Pairwise.nil, fun _ h => absurd h (List.not_mem_nil)⟩

/-- What one byte of a byte array reads as. -/
theorem Buffer.read_ok (b : Buffer) (a : Nat) (v : Byte) :
    b.read a = .ok v ↔ a < b.len ∧ b.mem.read a = some v := by
  unfold Buffer.read
  by_cases h : a < b.len
  · cases hm : b.mem.read a <;> simp [h]
  · simp [h]

/-- The first bytes of a byte array are placed when each of them has a value. -/
theorem Buffer.placed_iff (b : Buffer) (n : Nat) :
    b.placed n = true ↔ ∀ a, a < n → ∃ v, b.mem.read a = some v := by
  simp [Buffer.placed, Option.isSome_iff_exists]

end Sys2Proof.Machine
end

