-- ==== Sys2Proof/Laws/State.lean ====
section
/-! SUPPORT. One lemma per field per update of the state, each true by definition, and what a space and a byte array
are after an update. -/

namespace Sys2Proof.Machine

/-! ## withPq -/
@[simp] theorem State.withPq_pq (s : State) (r : PqRegs) : (s.withPq r).pq = r := rfl
@[simp] theorem State.withPq_re (s : State) (r : PqRegs) : (s.withPq r).re = s.re := rfl
@[simp] theorem State.withPq_rd (s : State) (r : PqRegs) : (s.withPq r).rd = s.rd := rfl
@[simp] theorem State.withPq_buf (s : State) (r : PqRegs) (k : StoreId) : (s.withPq r).buf k = s.buf k := rfl
@[simp] theorem State.withPq_bufs (s : State) (r : PqRegs) : (s.withPq r).bufs = s.bufs := rfl
@[simp] theorem State.withPq_bind (s : State) (r : PqRegs) : (s.withPq r).bind = s.bind := rfl
@[simp] theorem State.withPq_agenda (s : State) (r : PqRegs) : (s.withPq r).agenda = s.agenda := rfl
@[simp] theorem State.withPq_draws (s : State) (r : PqRegs) : (s.withPq r).draws = s.draws := rfl
@[simp] theorem State.withPq_pqDraw (s : State) (r : PqRegs) : (s.withPq r).pqDraw = s.pqDraw := rfl
@[simp] theorem State.withPq_space (s : State) (r : PqRegs) (sp : SpaceId) : (s.withPq r).space sp = s.space sp := rfl

/-! ## withRe -/
@[simp] theorem State.withRe_pq (s : State) (r : ReRegs) : (s.withRe r).pq = s.pq := rfl
@[simp] theorem State.withRe_re (s : State) (r : ReRegs) : (s.withRe r).re = r := rfl
@[simp] theorem State.withRe_rd (s : State) (r : ReRegs) : (s.withRe r).rd = s.rd := rfl
@[simp] theorem State.withRe_buf (s : State) (r : ReRegs) (k : StoreId) : (s.withRe r).buf k = s.buf k := rfl
@[simp] theorem State.withRe_bufs (s : State) (r : ReRegs) : (s.withRe r).bufs = s.bufs := rfl
@[simp] theorem State.withRe_bind (s : State) (r : ReRegs) : (s.withRe r).bind = s.bind := rfl
@[simp] theorem State.withRe_agenda (s : State) (r : ReRegs) : (s.withRe r).agenda = s.agenda := rfl
@[simp] theorem State.withRe_draws (s : State) (r : ReRegs) : (s.withRe r).draws = s.draws := rfl
@[simp] theorem State.withRe_pqDraw (s : State) (r : ReRegs) : (s.withRe r).pqDraw = s.pqDraw := rfl
@[simp] theorem State.withRe_space (s : State) (r : ReRegs) (sp : SpaceId) : (s.withRe r).space sp = s.space sp := rfl

/-! ## withRd -/
@[simp] theorem State.withRd_pq (s : State) (r : RdRegs) : (s.withRd r).pq = s.pq := rfl
@[simp] theorem State.withRd_re (s : State) (r : RdRegs) : (s.withRd r).re = s.re := rfl
@[simp] theorem State.withRd_rd (s : State) (r : RdRegs) : (s.withRd r).rd = r := rfl
@[simp] theorem State.withRd_buf (s : State) (r : RdRegs) (k : StoreId) : (s.withRd r).buf k = s.buf k := rfl
@[simp] theorem State.withRd_bufs (s : State) (r : RdRegs) : (s.withRd r).bufs = s.bufs := rfl
@[simp] theorem State.withRd_bind (s : State) (r : RdRegs) : (s.withRd r).bind = s.bind := rfl
@[simp] theorem State.withRd_agenda (s : State) (r : RdRegs) : (s.withRd r).agenda = s.agenda := rfl
@[simp] theorem State.withRd_draws (s : State) (r : RdRegs) : (s.withRd r).draws = s.draws := rfl
@[simp] theorem State.withRd_pqDraw (s : State) (r : RdRegs) : (s.withRd r).pqDraw = s.pqDraw := rfl
@[simp] theorem State.withRd_space (s : State) (r : RdRegs) (sp : SpaceId) : (s.withRd r).space sp = s.space sp := rfl

/-! ## withAgenda and nextCall -/
@[simp] theorem State.withAgenda_pq (s : State) (l : List Event) : (s.withAgenda l).pq = s.pq := rfl
@[simp] theorem State.withAgenda_re (s : State) (l : List Event) : (s.withAgenda l).re = s.re := rfl
@[simp] theorem State.withAgenda_rd (s : State) (l : List Event) : (s.withAgenda l).rd = s.rd := rfl
@[simp] theorem State.withAgenda_buf (s : State) (l : List Event) (k : StoreId) : (s.withAgenda l).buf k = s.buf k := rfl
@[simp] theorem State.withAgenda_bufs (s : State) (l : List Event) : (s.withAgenda l).bufs = s.bufs := rfl
@[simp] theorem State.withAgenda_bind (s : State) (l : List Event) : (s.withAgenda l).bind = s.bind := rfl
@[simp] theorem State.withAgenda_agenda (s : State) (l : List Event) : (s.withAgenda l).agenda = l := rfl
@[simp] theorem State.withAgenda_draws (s : State) (l : List Event) : (s.withAgenda l).draws = s.draws := rfl
@[simp] theorem State.withAgenda_pqDraw (s : State) (l : List Event) : (s.withAgenda l).pqDraw = s.pqDraw := rfl
@[simp] theorem State.withAgenda_space (s : State) (l : List Event) (sp : SpaceId) :
    (s.withAgenda l).space sp = s.space sp := rfl
@[simp] theorem State.nextCall_pq (s : State) : s.nextCall.pq = s.pq := rfl
@[simp] theorem State.nextCall_re (s : State) : s.nextCall.re = s.re := rfl
@[simp] theorem State.nextCall_rd (s : State) : s.nextCall.rd = s.rd := rfl
@[simp] theorem State.nextCall_buf (s : State) (k : StoreId) : s.nextCall.buf k = s.buf k := rfl
@[simp] theorem State.nextCall_bufs (s : State) : s.nextCall.bufs = s.bufs := rfl
@[simp] theorem State.nextCall_bind (s : State) : s.nextCall.bind = s.bind := rfl
@[simp] theorem State.nextCall_agenda (s : State) : s.nextCall.agenda = s.agenda := rfl
@[simp] theorem State.nextCall_draws (s : State) : s.nextCall.draws = s.draws + 1 := rfl
@[simp] theorem State.nextCall_pqDraw (s : State) : s.nextCall.pqDraw = s.pqDraw := rfl
@[simp] theorem State.nextCall_space (s : State) (sp : SpaceId) : s.nextCall.space sp = s.space sp := rfl

/-! ## nextPqCall -/
@[simp] theorem State.nextPqCall_pq (s : State) : s.nextPqCall.pq = s.pq := rfl
@[simp] theorem State.nextPqCall_re (s : State) : s.nextPqCall.re = s.re := rfl
@[simp] theorem State.nextPqCall_rd (s : State) : s.nextPqCall.rd = s.rd := rfl
@[simp] theorem State.nextPqCall_bufs (s : State) : s.nextPqCall.bufs = s.bufs := rfl
@[simp] theorem State.nextPqCall_bind (s : State) : s.nextPqCall.bind = s.bind := rfl
@[simp] theorem State.nextPqCall_agenda (s : State) : s.nextPqCall.agenda = s.agenda := rfl
@[simp] theorem State.nextPqCall_buf (s : State) (k : StoreId) : s.nextPqCall.buf k = s.buf k := rfl
@[simp] theorem State.nextPqCall_space (s : State) (sp : SpaceId) : s.nextPqCall.space sp = s.space sp := rfl
@[simp] theorem State.nextPqCall_draws (s : State) : s.nextPqCall.draws = s.draws + 1 := rfl
@[simp] theorem State.nextPqCall_pqDraw (s : State) : s.nextPqCall.pqDraw = s.draws + 1 := rfl

/-! ## setBuf -/
@[simp] theorem State.setBuf_pq (s : State) (k : StoreId) (b : Buffer) : (s.setBuf k b).pq = s.pq := rfl
@[simp] theorem State.setBuf_re (s : State) (k : StoreId) (b : Buffer) : (s.setBuf k b).re = s.re := rfl
@[simp] theorem State.setBuf_rd (s : State) (k : StoreId) (b : Buffer) : (s.setBuf k b).rd = s.rd := rfl
@[simp] theorem State.setBuf_bind (s : State) (k : StoreId) (b : Buffer) : (s.setBuf k b).bind = s.bind := rfl
@[simp] theorem State.setBuf_agenda (s : State) (k : StoreId) (b : Buffer) : (s.setBuf k b).agenda = s.agenda := rfl
@[simp] theorem State.setBuf_draws (s : State) (k : StoreId) (b : Buffer) : (s.setBuf k b).draws = s.draws := rfl
@[simp] theorem State.setBuf_pqDraw (s : State) (k : StoreId) (b : Buffer) : (s.setBuf k b).pqDraw = s.pqDraw := rfl

/-- A byte array after one is replaced. -/
theorem State.setBuf_buf (s : State) (k j : StoreId) (b : Buffer) :
    (s.setBuf k b).buf j = if k = j then b else s.buf j := by
  unfold State.setBuf State.buf
  rw [Fin.getElem_fin, Fin.getElem_fin, Vector.getElem_set]
  simp only [Fin.ext_iff]

/-- A space after one byte array is replaced. -/
theorem State.setBuf_space (s : State) (k : StoreId) (b : Buffer) (sp : SpaceId) :
    (s.setBuf k b).space sp = if k = s.bind.store sp then b else s.space sp :=
  State.setBuf_buf s k (s.bind.store sp) b

/-- A space whose own byte array is replaced. -/
@[simp] theorem State.setBuf_space_self (s : State) (b : Buffer) (sp : SpaceId) :
    (s.setBuf (s.bind.store sp) b).space sp = b := by
  rw [State.setBuf_space, if_pos rfl]

/-! ## forgetSpace -/
@[simp] theorem State.forgetSpace_pq (s : State) (sp : SpaceId) (lo hi : Nat) : (s.forgetSpace sp lo hi).pq = s.pq := rfl
@[simp] theorem State.forgetSpace_re (s : State) (sp : SpaceId) (lo hi : Nat) : (s.forgetSpace sp lo hi).re = s.re := rfl
@[simp] theorem State.forgetSpace_rd (s : State) (sp : SpaceId) (lo hi : Nat) : (s.forgetSpace sp lo hi).rd = s.rd := rfl
@[simp] theorem State.forgetSpace_bind (s : State) (sp : SpaceId) (lo hi : Nat) :
    (s.forgetSpace sp lo hi).bind = s.bind := rfl
@[simp] theorem State.forgetSpace_agenda (s : State) (sp : SpaceId) (lo hi : Nat) :
    (s.forgetSpace sp lo hi).agenda = s.agenda := rfl
@[simp] theorem State.forgetSpace_draws (s : State) (sp : SpaceId) (lo hi : Nat) :
    (s.forgetSpace sp lo hi).draws = s.draws := rfl
@[simp] theorem State.forgetSpace_pqDraw (s : State) (sp : SpaceId) (lo hi : Nat) :
    (s.forgetSpace sp lo hi).pqDraw = s.pqDraw := rfl

end Sys2Proof.Machine
end

