-- ==== Sys2Proof/Laws/Ops.lean ====
section
/-! SUPPORT. One lemma per shared operation that says everything it can do; the provers cite these instead of unfolding
the operation. -/

namespace Sys2Proof.Machine

/-- The two states differ in their byte arrays alone, and there only in contents. -/
structure SameBut (s t : State) : Prop where
  pq : t.pq = s.pq
  re : t.re = s.re
  rd : t.rd = s.rd
  bind : t.bind = s.bind
  agenda : t.agenda = s.agenda
  draws : t.draws = s.draws
  pqDraw : t.pqDraw = s.pqDraw
  len : ∀ k : StoreId, (t.buf k).len = (s.buf k).len

/-- Everything a write can do: it reaches no index beyond the space, changes the bytes it writes and nothing else, and
keeps the canonical form. -/
theorem State.writeSpace_ok {s t : State} {sp : SpaceId} {a : Nat} {bs : List Byte}
    (h : s.writeSpace sp a bs = .ok t) :
    SameBut s t ∧ (bs ≠ [] → a + bs.length ≤ (s.space sp).len) ∧
      (∀ (k : StoreId) (i : Nat), (t.buf k).mem.read i =
        if k = s.bind.store sp ∧ a ≤ i ∧ i < a + bs.length then bs[i - a]? else (s.buf k).mem.read i) ∧
      (s.wf → t.wf) := by
  unfold State.writeSpace at h
  by_cases hb : bs = []
  · rw [if_pos hb] at h
    cases h
    subst hb
    refine ⟨⟨rfl, rfl, rfl, rfl, rfl, rfl, rfl, fun _ => rfl⟩, fun h => absurd rfl h, fun k i => ?_, id⟩
    have : ¬ (k = s.bind.store sp ∧ a ≤ i ∧ i < a + ([] : List Byte).length) := by
      simp only [List.length_nil]
      omega
    rw [if_neg this]
  · rw [if_neg hb] at h
    by_cases hl : a + bs.length ≤ (s.space sp).len
    · rw [if_pos hl] at h
      cases h
      refine ⟨⟨rfl, rfl, rfl, rfl, rfl, rfl, rfl, fun k => ?_⟩, fun _ => hl, fun k i => ?_, fun w k => ?_⟩
      · rw [State.setBuf_buf]
        by_cases hk : s.bind.store sp = k
        · subst hk
          rw [if_pos rfl]
          rfl
        · rw [if_neg hk]
      · rw [State.setBuf_buf]
        by_cases hk : s.bind.store sp = k
        · subst hk
          rw [if_pos rfl, Memory.read_splice]
          simp only [true_and]
          rfl
        · have : ¬ (k = s.bind.store sp ∧ a ≤ i ∧ i < a + bs.length) := fun h => hk h.1.symm
          rw [if_neg hk, if_neg this]
      · rw [State.setBuf_buf]
        by_cases hk : s.bind.store sp = k
        · rw [if_pos hk]
          exact Buffer.wf_splice (s.space sp) a bs (w (s.bind.store sp)) hl
        · rw [if_neg hk]
          exact w k
    · rw [if_neg hl] at h
      cases h

/-- A write inside the space completes. -/
theorem State.writeSpace_completes (s : State) (sp : SpaceId) (a : Nat) (bs : List Byte)
    (h : bs ≠ [] → a + bs.length ≤ (s.space sp).len) : ∃ t, s.writeSpace sp a bs = .ok t := by
  unfold State.writeSpace
  by_cases hb : bs = []
  · exact ⟨s, if_pos hb⟩
  · exact ⟨_, by rw [if_neg hb, if_pos (h hb)]⟩

/-- A write that reaches beyond the space is the fault `outOfSpace`. -/
theorem State.writeSpace_faults (s : State) (sp : SpaceId) (a : Nat) (bs : List Byte)
    (hb : bs ≠ []) (h : (s.space sp).len < a + bs.length) : s.writeSpace sp a bs = .error .outOfSpace := by
  unfold State.writeSpace
  rw [if_neg hb, if_neg (by omega)]

/-- Everything forgetting can do. -/
theorem State.forgetSpace_spec (s : State) (sp : SpaceId) (lo hi : Nat) :
    SameBut s (s.forgetSpace sp lo hi) ∧
      (∀ (k : StoreId) (i : Nat), ((s.forgetSpace sp lo hi).buf k).mem.read i =
        if k = s.bind.store sp ∧ lo ≤ i ∧ i < hi then none else (s.buf k).mem.read i) ∧
      (s.wf → (s.forgetSpace sp lo hi).wf) := by
  unfold State.forgetSpace
  refine ⟨⟨rfl, rfl, rfl, rfl, rfl, rfl, rfl, fun k => ?_⟩, fun k i => ?_, fun w k => ?_⟩
  · rw [State.setBuf_buf]
    by_cases hk : s.bind.store sp = k
    · subst hk
      rw [if_pos rfl]
      rfl
    · rw [if_neg hk]
  · rw [State.setBuf_buf]
    by_cases hk : s.bind.store sp = k
    · subst hk
      rw [if_pos rfl, Memory.read_forget]
      simp only [true_and]
      rfl
    · have : ¬ (k = s.bind.store sp ∧ lo ≤ i ∧ i < hi) := fun h => hk h.1.symm
      rw [if_neg hk, if_neg this]
  · rw [State.setBuf_buf]
    by_cases hk : s.bind.store sp = k
    · rw [if_pos hk]
      exact Buffer.wf_forget (s.space sp) lo hi _ (w (s.bind.store sp))
    · rw [if_neg hk]
      exact w k

/-- A write leaves every other byte array as it was, and every free value of its own. -/
theorem State.writeSpace_buf {s t : State} {sp : SpaceId} {a : Nat} {bs : List Byte}
    (h : s.writeSpace sp a bs = .ok t) :
    (∀ k : StoreId, k ≠ s.bind.store sp → t.buf k = s.buf k) ∧
      ∀ (k : StoreId) (i : Nat), (t.buf k).drawOf i = (s.buf k).drawOf i := by
  unfold State.writeSpace at h
  split at h
  · cases h
    exact ⟨fun _ _ => rfl, fun _ _ => rfl⟩
  · split at h
    · cases h
      refine ⟨fun k hk => ?_, fun k i => ?_⟩ <;> rw [State.setBuf_buf]
      · rw [if_neg (Ne.symm hk)]
      · split
        · rename_i hk
          subst hk
          rfl
        · rfl
    · cases h

/-- Forgetting leaves every other byte array as it was. -/
theorem State.forgetSpace_buf (s : State) (sp : SpaceId) (lo hi : Nat) (k : StoreId) (hk : k ≠ s.bind.store sp) :
    (s.forgetSpace sp lo hi).buf k = s.buf k := by
  unfold State.forgetSpace
  rw [State.setBuf_buf, if_neg (Ne.symm hk)]

/-- The space of a state whose bindings and byte arrays are those of another. -/
theorem State.space_eq {s t : State} (hb : t.bind = s.bind) (sp : SpaceId) :
    t.space sp = t.buf (s.bind.store sp) := by
  unfold State.space
  rw [hb]

/-- How far `fill` reaches: never beyond the expected length, unless it writes nothing. -/
theorem fillCount_le (r : Nat) (s : State) :
    fillCount r s ≤ r ∧ (fillCount r s ≠ 0 → s.rd.wr + fillCount r s ≤ s.rd.olen) := by
  unfold fillCount
  omega

/-- The indices `fill` writes are those of R131. -/
theorem lt_fillCount (r i : Nat) (s : State) :
    (s.rd.wr ≤ i ∧ i < s.rd.wr + fillCount r s) ↔ (s.rd.wr ≤ i ∧ i < s.rd.wr + r ∧ i < s.rd.olen) := by
  unfold fillCount
  omega

/-- Everything the shared effect of a token can do, if it answers a next state. -/
theorem execToken_next {r len : Nat} {v : Byte} {s t : State} (h : execToken r v len s = .next t) :
    t.pq = s.pq ∧ t.re = s.re ∧ t.bind = s.bind ∧ t.agenda = s.agenda ∧ t.draws = s.draws ∧
      t.rd = { s.rd with wr := s.rd.wr + r, rd := s.rd.rd + len } ∧
      (∀ k : StoreId, (t.buf k).len = (s.buf k).len) ∧
      (∀ (k : StoreId) (i : Nat), (t.buf k).mem.read i =
        if k = s.bind.store .rdDst ∧ s.rd.wr ≤ i ∧ i < s.rd.wr + r ∧ i < s.rd.olen then some v
        else (s.buf k).mem.read i) ∧
      (s.wf → t.wf) := by
  unfold execToken at h
  cases hf : fill r v s with
  | error f => rw [hf] at h; cases h
  | ok u =>
    rw [hf] at h
    simp only [Host.Outcome.next.injEq] at h
    subst h
    obtain ⟨e, -, hm, hw⟩ := State.writeSpace_ok hf
    refine ⟨e.pq, e.re, e.bind, e.agenda, e.draws, ?_, e.len, fun k i => ?_, hw⟩
    · simp only [advance, State.withRd_rd, e.rd]
    · simp only [advance, State.withRd_buf]
      rw [hm k i, List.length_replicate]
      by_cases hi : k = s.bind.store .rdDst ∧ s.rd.wr ≤ i ∧ i < s.rd.wr + r ∧ i < s.rd.olen
      · have h2 := (lt_fillCount r i s).mpr hi.2
        rw [if_pos ⟨hi.1, h2⟩, if_pos hi, List.getElem?_replicate, if_pos (by omega)]
      · have h2 : ¬ (k = s.bind.store .rdDst ∧ s.rd.wr ≤ i ∧ i < s.rd.wr + fillCount r s) :=
          fun h => hi ⟨h.1, (lt_fillCount r i s).mp h.2⟩
        rw [if_neg h2, if_neg hi]

/-- A token completes when `RD.DST` has room for the expected length (20 R44). -/
theorem execToken_completes (r len : Nat) (v : Byte) (s : State) (h : s.rd.olen ≤ (s.space .rdDst).len) :
    ∃ t, execToken r v len s = .next t := by
  obtain ⟨u, hu⟩ := State.writeSpace_completes s .rdDst s.rd.wr (List.replicate (fillCount r s) v) (by
    intro hne
    have h1 : fillCount r s ≠ 0 := by
      intro h0
      rw [h0] at hne
      exact hne rfl
    have h2 := (fillCount_le r s).2 h1
    rw [List.length_replicate]
    omega)
  exact ⟨advance r len u, by unfold execToken fill; rw [hu]⟩

/-- Raising an error in PQ (60 R190, R191). -/
theorem raiseError_pq (k : ErrKind) (info : Nat) (s : State) :
    let t := raiseError .pq k info s
    t.pq = { s.pq with st := .err, err := k, einfo := info } ∧ t.re = s.re ∧ t.rd = s.rd ∧
      t.bind = s.bind ∧ t.agenda = s.agenda ∧ t.draws = s.draws ∧
      (∀ j : StoreId, (t.buf j).len = (s.buf j).len) ∧
      (∀ (j : StoreId) (i : Nat), (t.buf j).mem.read i =
        if j = s.bind.store .pqIdx ∧ i < s.pq.n then none else (s.buf j).mem.read i) ∧
      (s.wf → t.wf) := by
  obtain ⟨e, hm, hw⟩ := State.forgetSpace_spec s .pqIdx 0 s.pq.n
  refine ⟨rfl, rfl, rfl, rfl, rfl, rfl, e.len, fun j i => ?_, hw⟩
  simpa [raiseError] using hm j i

/-- Raising an error in RD (60 R190, R191). -/
theorem raiseError_rd (k : ErrKind) (info : Nat) (s : State) :
    let t := raiseError .rd k info s
    t.rd = { s.rd with st := .err, err := k, einfo := info } ∧ t.pq = s.pq ∧ t.re = s.re ∧
      t.bind = s.bind ∧ t.agenda = s.agenda ∧ t.draws = s.draws ∧
      (∀ j : StoreId, (t.buf j).len = (s.buf j).len) ∧
      (∀ (j : StoreId) (i : Nat), (t.buf j).mem.read i =
        if j = s.bind.store .rdDst ∧ i < s.rd.olen then none else (s.buf j).mem.read i) ∧
      (s.wf → t.wf) := by
  obtain ⟨e, hm, hw⟩ := State.forgetSpace_spec s .rdDst 0 s.rd.olen
  refine ⟨rfl, rfl, rfl, rfl, rfl, rfl, e.len, fun j i => ?_, hw⟩
  simpa [raiseError] using hm j i

/-- Everything the START checks say when they pass. -/
theorem startCheck_none {u : UnitId} {input room : Nat} {s : State} (h : startCheck u input room s = none) :
    s.st u ≠ .busy ∧ s.disjointFor u = true ∧ input ≤ (s.space u.readSpace).len ∧
      room ≤ (s.space u.writeSpace).len ∧ (s.space u.readSpace).placed input = true := by
  unfold startCheck at h
  split at h
  · cases h
  · split at h
    · cases h
    · split at h
      · cases h
      · split at h
        · cases h
        · rename_i h1 h2 h3 h4
          refine ⟨h1, by simpa using h2, by omega, by omega, by simpa using h4⟩

end Sys2Proof.Machine
end

