-- ==== Sys2Proof/Laws/PerInstr.lean ====
section
/-! SUPPORT. A statement about every instruction, one lemma per constructor: the shape of a well-formed token's bytes. -/

namespace Sys2Proof.Laws.TokenShape

/-- A well-formed token is as many bytes as its length says, its value is the last of them (spec 30 R67), and its run
length is below 384 and at most 128 for each byte (42 R141). -/
def Statement (i : Instr) : Prop :=
  i.wellFormed = true →
    (encode i).length = i.bytes ∧ (encode i).getLast? = some i.value ∧ i.run < 384 ∧ i.run ≤ 128 * i.bytes

theorem lit (v : Byte) : Statement (.lit v) := by
  intro _
  simp [encode, Instr.bytes, Instr.value, Instr.run]

theorem runs (r : Nat) (v : Byte) : Statement (.runs r v) := by
  intro h
  simp only [Instr.wellFormed, Bool.and_eq_true, decide_eq_true_eq] at h
  refine ⟨rfl, rfl, ?_, ?_⟩ <;> simp only [Instr.run, Instr.bytes] <;> omega

theorem runx (r : Nat) (v : Byte) : Statement (.runx r v) := by
  intro h
  simp only [Instr.wellFormed, decide_eq_true_eq] at h
  refine ⟨rfl, rfl, ?_, ?_⟩ <;> simp only [Instr.run, Instr.bytes] <;> omega

theorem runl (r : Nat) (v : Byte) : Statement (.runl r v) := by
  intro h
  simp only [Instr.wellFormed, decide_eq_true_eq] at h
  refine ⟨rfl, rfl, ?_, ?_⟩ <;> simp only [Instr.run, Instr.bytes] <;> omega

end Sys2Proof.Laws.TokenShape
end

