-- ==== Sys2Proof/Laws/Units.lean ====
section
/-! SUPPORT. What fetching a token gives, and everything a step of each unit, of the host and of the block can do. -/

namespace Sys2Proof.Machine

/-! ## Fetching -/

theorem State.holds_nil (s : State) (sp : SpaceId) (a : Nat) : s.holds sp a [] :=
  fun _ h => absurd h (Nat.not_lt_zero _)

/-- The bytes read so far and the next one. -/
theorem State.holds_snoc {s : State} {sp : SpaceId} {a : Nat} {bs : List Byte} {b : Byte} (h : s.holds sp a bs)
    (hb : s.readSpace sp (a + bs.length) = .ok b) : s.holds sp a (bs ++ [b]) := by
  intro j hj
  rw [List.length_append, List.length_singleton] at hj
  by_cases hlt : j < bs.length
  · rw [List.getElem_append_left hlt]
    exact h j hlt
  · have : j = bs.length := by omega
    subst this
    simpa using hb

/-- The first of the bytes that stand somewhere. -/
theorem State.holds_head {s : State} {sp : SpaceId} {a : Nat} {b : Byte} {bs : List Byte} (h : s.holds sp a (b :: bs)) :
    s.readSpace sp a = .ok b := h 0 (by simp)

/-- All but the first of the bytes that stand somewhere. -/
theorem State.holds_tail {s : State} {sp : SpaceId} {a : Nat} {b : Byte} {bs : List Byte} (h : s.holds sp a (b :: bs)) :
    s.holds sp (a + 1) bs := by
  intro j hj
  have := h (j + 1) (by simpa using hj)
  simpa [Nat.add_assoc, Nat.add_comm 1 j] using this

theorem fetchFrom_token {s : State} {i : Instr} (fuel : Nat) (acc : List Byte) (h : fetchFrom s fuel acc = .token i)
    (ha : s.holds .rdSrc s.rd.rd acc) (hl : s.rd.rd + acc.length ≤ s.rd.clen) :
    ∃ bs rest, decode bs = .ok (i, rest) ∧ s.holds .rdSrc s.rd.rd bs ∧ s.rd.rd + bs.length ≤ s.rd.clen := by
  induction fuel generalizing acc with
  | zero => simp [fetchFrom] at h
  | succ fuel ih =>
    unfold fetchFrom at h
    split at h
    · rename_i j rest e
      cases h
      exact ⟨acc, rest, e, ha, hl⟩
    · split at h
      · rename_i hlt
        split at h
        · rename_i b hb
          exact ih (acc ++ [b]) h (State.holds_snoc ha hb) (by simp; omega)
        · cases h
      · cases h

/-- A fetched token was decoded from bytes at the program counter, all below the end of the stream (42 R122). -/
theorem fetch_token {s : State} {i : Instr} (h : fetch s = .token i) (hl : s.rd.rd ≤ s.rd.clen) :
    ∃ bs rest, decode bs = .ok (i, rest) ∧ s.holds .rdSrc s.rd.rd bs ∧ s.rd.rd + bs.length ≤ s.rd.clen :=
  fetchFrom_token 4 [] h (State.holds_nil s .rdSrc s.rd.rd) (by simpa using hl)

/-- One more byte is fetched while the bytes read are no whole token. -/
theorem fetchFrom_more {s : State} {fuel : Nat} {acc : List Byte} {e : DecodeError} {b : Byte}
    (hd : decode acc = .error e) (hl : s.rd.rd + acc.length < s.rd.clen)
    (hb : s.readSpace .rdSrc (s.rd.rd + acc.length) = .ok b) :
    fetchFrom s (fuel + 1) acc = fetchFrom s fuel (acc ++ [b]) := by
  rw [fetchFrom, hd]
  simp only [if_pos hl, hb]

theorem fetchFrom_done {s : State} {fuel : Nat} {acc rest : List Byte} {i : Instr} (hd : decode acc = .ok (i, rest)) :
    fetchFrom s (fuel + 1) acc = .token i := by
  rw [fetchFrom, hd]

theorem fetchFrom_end {s : State} {fuel : Nat} {acc : List Byte} {e : DecodeError}
    (hd : decode acc = .error e) (hl : ¬ s.rd.rd + acc.length < s.rd.clen) :
    fetchFrom s (fuel + 1) acc = .truncated := by
  rw [fetchFrom, hd]
  simp only [if_neg hl]

/-- A two-byte beginning of a tag is no token yet. -/
theorem decode_one {b0 : Byte} (h : 0x80 ≤ b0.toNat) : decode [b0] = .error .noSecondByte := by
  simp only [decode, if_neg (show ¬ b0.toNat < 0x80 by omega)]

/-- Bytes at the program counter that begin with a whole token are fetched as that token. -/
theorem fetch_of_decode {s : State} {bs rest : List Byte} {i : Instr} (hd : decode bs = .ok (i, rest))
    (hb : s.holds .rdSrc s.rd.rd bs) (hl : s.rd.rd + bs.length ≤ s.rd.clen) : fetch s = .token i := by
  have h0 : decode ([] : List Byte) = .error .noToken := rfl
  cases bs with
  | nil => cases hd
  | cons b0 t =>
    simp only [List.length_cons] at hl
    have r0 := State.holds_head hb
    have ht := State.holds_tail hb
    unfold fetch
    rw [fetchFrom_more h0 (b := b0) (by simp; omega) (by simpa using r0), List.nil_append]
    by_cases hlit : b0.toNat < 0x80
    · have e : decode (b0 :: t) = .ok (.lit b0, t) := by simp only [decode, if_pos hlit]
      rw [e] at hd
      cases hd
      exact fetchFrom_done (rest := []) (by simp only [decode, if_pos hlit])
    · have e0 := decode_one (b0 := b0) (by omega)
      cases t with
      | nil => rw [e0] at hd; cases hd
      | cons b1 u =>
        simp only [List.length_cons] at hl
        have r1 := State.holds_head ht
        have hu := State.holds_tail ht
        rw [fetchFrom_more e0 (b := b1) (by simp; omega) (by simpa using r1)]
        simp only [List.cons_append, List.nil_append]
        by_cases h1 : b0 = 0x81#8
        · cases u with
          | nil => simp [decode, h1] at hd
          | cons b2 w =>
            simp only [List.length_cons] at hl
            rw [fetchFrom_more (e := .noThirdByte) (b := b2) (by simp only [decode, if_neg hlit, if_pos h1])
              (by simp; omega) (by simpa [Nat.add_assoc] using State.holds_head hu)]
            simp only [List.cons_append, List.nil_append]
            simp only [decode, if_neg hlit, if_pos h1] at hd
            cases hd
            exact fetchFrom_done (rest := []) (by simp only [decode, if_neg hlit, if_pos h1])
        · by_cases h2 : b0 = 0x82#8 ∧ 0x80 ≤ b1.toNat
          · cases u with
            | nil => simp only [decode, if_neg hlit, if_neg h1, if_pos h2] at hd; cases hd
            | cons b2 w =>
              simp only [List.length_cons] at hl
              rw [fetchFrom_more (e := .noThirdByte) (b := b2)
                (by simp only [decode, if_neg hlit, if_neg h1, if_pos h2])
                (by simp; omega) (by simpa [Nat.add_assoc] using State.holds_head hu)]
              simp only [List.cons_append, List.nil_append]
              simp only [decode, if_neg hlit, if_neg h1, if_pos h2] at hd
              cases hd
              exact fetchFrom_done (rest := []) (by simp only [decode, if_neg hlit, if_neg h1, if_pos h2])
          · simp only [decode, if_neg hlit, if_neg h1, if_neg h2] at hd
            cases hd
            exact fetchFrom_done (rest := []) (by simp only [decode, if_neg hlit, if_neg h1, if_neg h2])

/-- A stream that ends inside its token is fetched as truncated (42 R130). -/
theorem fetch_of_truncated {s : State} {bs : List Byte} {e : DecodeError} (hd : decode bs = .error e)
    (hb : s.holds .rdSrc s.rd.rd bs) (hl : s.rd.rd + bs.length = s.rd.clen) : fetch s = .truncated := by
  have h0 : decode ([] : List Byte) = .error .noToken := rfl
  unfold fetch
  cases bs with
  | nil => exact fetchFrom_end h0 (by omega)
  | cons b0 t =>
    have r0 := State.holds_head hb
    have ht := State.holds_tail hb
    simp only [List.length_cons] at hl
    rw [fetchFrom_more h0 (b := b0) (by simp; omega) (by simpa using r0), List.nil_append]
    rcases decode_cons b0 t with ⟨_, e'⟩ | ⟨h, rfl, e'⟩ | ⟨b1, h, rfl, e'⟩ | ⟨_, _, _, _, _, e'⟩ |
      ⟨b1, h, h', rfl, e'⟩ | ⟨_, _, _, _, _, _, e'⟩ | ⟨_, _, _, _, _, _, e'⟩
    · rw [e'] at hd; cases hd
    · exact fetchFrom_end e' (by simp only [List.length_cons, List.length_nil] at hl ⊢; omega)
    · rw [fetchFrom_more (decode_one (b0 := b0) (by rw [h]; decide)) (b := b1)
        (by simp at hl ⊢; omega) (by simpa using State.holds_head ht)]
      exact fetchFrom_end e' (by simp at hl ⊢; omega)
    · rw [e'] at hd; cases hd
    · rw [fetchFrom_more (decode_one (b0 := b0) (by rw [h]; decide)) (b := b1)
        (by simp at hl ⊢; omega) (by simpa using State.holds_head ht)]
      exact fetchFrom_end e' (by simp at hl ⊢; omega)
    · rw [e'] at hd; cases hd
    · rw [e'] at hd; cases hd

/-! ## What a step can do -/

/-- A token's meaning is the shared effect at the token's own run length, value and length. -/
theorem exec_eq (i : Instr) (s : State) : exec i s = execToken i.run i.value i.bytes s := by
  cases i <;> rfl

/-- Everything a step of RD can do, if it answers a next state. -/
theorem rdStep_next {s t : State} (h : rdStep s = .next t) :
    (∃ i bs rest, s.rd.rd < s.rd.clen ∧ decode bs = .ok (i, rest) ∧ s.holds .rdSrc s.rd.rd bs ∧
      s.rd.rd + bs.length ≤ s.rd.clen ∧ exec i s = .next t) ∨
    (s.rd.rd < s.rd.clen ∧ fetch s = .truncated ∧ t = raiseError .rd .malformedStream s.rd.rd s) ∨
    (s.rd.rd = s.rd.clen ∧ t = rdComplete s) := by
  unfold rdStep at h
  split at h
  · rename_i hlt
    split at h
    · rename_i i hf
      obtain ⟨bs, rest, h1, h2, h3⟩ := fetch_token hf (by omega)
      exact .inl ⟨i, bs, rest, hlt, h1, h2, h3, h⟩
    · rename_i hf
      cases h
      exact .inr (.inl ⟨hlt, hf, rfl⟩)
    · cases h
  · split at h
    · rename_i _ heq
      cases h
      exact .inr (.inr ⟨heq, rfl⟩)
    · cases h

/-- RD's completion (42 R133, R136). -/
theorem rdComplete_spec (s : State) :
    let t := rdComplete s
    t.rd = { s.rd with st := .done } ∧ t.pq = s.pq ∧ t.re = s.re ∧ t.bind = s.bind ∧ t.agenda = s.agenda ∧
      t.draws = s.draws ∧ (∀ k : StoreId, (t.buf k).len = (s.buf k).len) ∧
      (∀ (k : StoreId) (a : Nat), (t.buf k).mem.read a =
        if k = s.bind.store .rdDst ∧ s.rd.wr ≤ a ∧ a < s.rd.olen then none else (s.buf k).mem.read a) ∧
      (s.wf → t.wf) := by
  obtain ⟨e, hm, hw⟩ := State.forgetSpace_spec s .rdDst s.rd.wr s.rd.olen
  by_cases hlt : s.rd.wr < s.rd.olen
  · have ht : rdComplete s = (s.forgetSpace .rdDst s.rd.wr s.rd.olen).withRd { s.rd with st := .done } := by
      unfold rdComplete
      rw [if_pos hlt]
    rw [ht]
    exact ⟨rfl, rfl, rfl, rfl, rfl, rfl, e.len, hm, hw⟩
  · have ht : rdComplete s = s.withRd { s.rd with st := .done } := by
      unfold rdComplete
      rw [if_neg hlt]
    rw [ht]
    refine ⟨rfl, rfl, rfl, rfl, rfl, rfl, fun _ => rfl, fun k a => ?_, id⟩
    have : ¬ (k = s.bind.store .rdDst ∧ s.rd.wr ≤ a ∧ a < s.rd.olen) := by omega
    rw [if_neg this]
    rfl

/-- Reading a pixel is reading its three bytes (00 R9). -/
theorem readPixel_ok {s : State} {a : Nat} {p : Rgb} :
    readPixel s a = .ok p ↔ s.readSpace .pqPix a = .ok p.red ∧ s.readSpace .pqPix (a + 1) = .ok p.green ∧
      s.readSpace .pqPix (a + 2) = .ok p.blue := by
  unfold readPixel
  cases h0 : s.readSpace .pqPix a <;> cases h1 : s.readSpace .pqPix (a + 1) <;>
    cases h2 : s.readSpace .pqPix (a + 2) <;> simp
  constructor
  · rintro rfl
    exact ⟨rfl, rfl, rfl⟩
  · rintro ⟨rfl, rfl, rfl⟩
    rfl

/-- The search finds the least slot below `PQ.pcount` that holds the pixel (40 R82). -/
theorem search_some {p : Rgb} {r : PqRegs} {j : Nat} :
    search p r = some j ↔ r.palette[j]? = some p ∧ ∀ k, k < j → r.palette[k]? ≠ some p := by
  unfold search
  rw [List.findIdx?_eq_some_iff_getElem]
  constructor
  · rintro ⟨hj, he, hk⟩
    refine ⟨?_, fun k hkj hc => ?_⟩
    · rw [List.getElem?_eq_getElem hj]
      simpa using he
    · have := hk k hkj
      rw [List.getElem?_eq_getElem (by omega)] at hc
      simp_all
  · rintro ⟨he, hk⟩
    obtain ⟨hj, he'⟩ := List.getElem?_eq_some_iff.mp he
    refine ⟨hj, by simpa using he', fun k hkj => ?_⟩
    have := hk k hkj
    rw [List.getElem?_eq_getElem (by omega)] at this
    simpa using this

/-- The search fails when no slot below `PQ.pcount` holds the pixel (40 R82). -/
theorem search_none {p : Rgb} {r : PqRegs} : search p r = none ↔ p ∉ r.palette := by
  unfold search
  rw [List.findIdx?_eq_none_iff]
  constructor
  · intro h hp
    simpa using h p hp
  · intro h x hx
    simp only [beq_eq_false_iff_ne, ne_eq]
    rintro rfl
    exact h hx

/-- Everything a step of PQ can do, if it answers a next state. -/
theorem pqStep_next {s t : State} (h : pqStep s = .next t) :
    (∃ p j u, s.pq.i < s.pq.n ∧ readPixel s (3 * s.pq.i) = .ok p ∧ search p s.pq = some j ∧
      s.writeSpace .pqIdx s.pq.i [byteOf j] = .ok u ∧ t = u.withPq { s.pq with i := s.pq.i + 1 }) ∨
    (∃ p u, s.pq.i < s.pq.n ∧ readPixel s (3 * s.pq.i) = .ok p ∧ search p s.pq = none ∧ s.pq.pcount < 128 ∧
      s.writeSpace .pqIdx s.pq.i [byteOf s.pq.pcount] = .ok u ∧
      t = u.withPq { s.pq with
        pal := s.pq.pal.setIfInBounds s.pq.pcount p, pcount := s.pq.pcount + 1, i := s.pq.i + 1 }) ∨
    (∃ p, s.pq.i < s.pq.n ∧ readPixel s (3 * s.pq.i) = .ok p ∧ search p s.pq = none ∧ 128 ≤ s.pq.pcount ∧
      t = raiseError .pq .paletteOverflow s.pq.i s) ∨
    (s.pq.i = s.pq.n ∧ t = s.withPq { s.pq with st := .done }) := by
  unfold pqStep at h
  split at h
  · rename_i hlt
    split at h
    · cases h
    · rename_i p hp
      split at h
      · rename_i j hj
        unfold pqHit at h
        split at h
        · cases h
        · rename_i u hu
          cases h
          exact .inl ⟨p, j, u, hlt, hp, hj, hu, rfl⟩
      · rename_i hn
        split at h
        · rename_i hc
          unfold pqAppend at h
          split at h
          · cases h
          · rename_i u hu
            cases h
            exact .inr (.inl ⟨p, u, hlt, hp, hn, hc, hu, rfl⟩)
        · rename_i hc
          cases h
          exact .inr (.inr (.inl ⟨p, hlt, hp, hn, by simpa using hc, rfl⟩))
  · split at h
    · rename_i _ he
      cases h
      exact .inr (.inr (.inr ⟨he, rfl⟩))
    · cases h

/-- What counting equal bytes gives: they are equal, and it stopped at the bound or at a byte that differs (41 R102). -/
theorem matching_ok {s : State} {v : Byte} {k a r : Nat} (h : matching s v k a = .ok r) :
    r ≤ k ∧ (∀ j, j < r → s.readSpace .reSrc (a + j) = .ok v) ∧
      (r = k ∨ ∃ b, b ≠ v ∧ s.readSpace .reSrc (a + r) = .ok b) := by
  induction k generalizing a r with
  | zero =>
    simp only [matching, Except.ok.injEq] at h
    subst h
    exact ⟨Nat.le_refl _, fun j hj => absurd hj (Nat.not_lt_zero _), .inl rfl⟩
  | succ k ih =>
    unfold matching at h
    split at h
    · cases h
    · rename_i b hb
      split at h
      · rename_i hbv
        split at h
        · cases h
        · rename_i q hq
          cases h
          obtain ⟨h1, h2, h3⟩ := ih hq
          refine ⟨by omega, fun j hj => ?_, ?_⟩
          · cases j with
            | zero => simpa [hbv] using hb
            | succ j =>
              have := h2 j (by omega)
              rwa [show a + (j + 1) = a + 1 + j by omega]
          · rcases h3 with h3 | ⟨c, hc, h3⟩
            · exact .inl (by omega)
            · exact .inr ⟨c, hc, by rwa [show a + (q + 1) = a + 1 + q by omega]⟩
      · rename_i hbv
        cases h
        exact ⟨by omega, fun j hj => absurd hj (Nat.not_lt_zero _), .inr ⟨b, hbv, by simpa using hb⟩⟩

/-- What a measured run is (41 R102). -/
theorem measure_ok {s : State} {r : Nat} {v : Byte} (h : measureRun s = .ok (r, v)) (hc : s.re.cur < s.re.n) :
    1 ≤ r ∧ r ≤ 383 ∧ s.re.cur + r ≤ s.re.n ∧ (∀ j, j < r → s.readSpace .reSrc (s.re.cur + j) = .ok v) ∧
      (r = 383 ∨ s.re.cur + r = s.re.n ∨ ∃ b, b ≠ v ∧ s.readSpace .reSrc (s.re.cur + r) = .ok b) := by
  unfold measureRun at h
  split at h
  · cases h
  · rename_i w hw
    split at h
    · cases h
    · rename_i q hq
      cases h
      obtain ⟨h1, h2, h3⟩ := matching_ok hq
      simp only [Config.runMax] at h1 h3
      refine ⟨by omega, by omega, by omega, fun j hj => ?_, ?_⟩
      · cases j with
        | zero => simpa using hw
        | succ j =>
          have := h2 j (by omega)
          rwa [show s.re.cur + (j + 1) = s.re.cur + 1 + j by omega]
      · rcases h3 with h3 | ⟨b, hb, h3⟩
        · omega
        · exact .inr (.inr ⟨b, hb, by rwa [show s.re.cur + (q + 1) = s.re.cur + 1 + q by omega]⟩)

/-- A run is never emitted longer than it is (41 R112). -/
theorem emitted_length_le (r : Nat) (v : Byte) (h : 1 ≤ r) : (emitted r v).length ≤ r ∧ 1 ≤ (emitted r v).length := by
  unfold emitted
  split
  · simp only [List.length_singleton]
    omega
  · split
    · simp only [List.length_cons, List.length_nil]
      omega
    · split <;> simp only [List.length_cons, List.length_nil] <;> omega

/-- Everything a step of RE can do, if it answers a next state. -/
theorem reStep_next {s t : State} (h : reStep s = .next t) :
    (∃ r v u, s.re.cur < s.re.n ∧ measureRun s = .ok (r, v) ∧ s.writeSpace .reDst s.re.wo (emitted r v) = .ok u ∧
      t = u.withRe { s.re with wo := s.re.wo + (emitted r v).length, cur := s.re.cur + r }) ∨
    (s.re.cur = s.re.n ∧ t = s.withRe { s.re with warn := oversize s.re.wo, st := .done }) := by
  unfold reStep at h
  split at h
  · rename_i hlt
    split at h
    · cases h
    · rename_i r v hm
      unfold reEmit at h
      split at h
      · cases h
      · rename_i u hu
        cases h
        exact .inl ⟨r, v, u, hlt, hm, hu, rfl⟩
  · split at h
    · rename_i _ he
      cases h
      exact .inr ⟨he, rfl⟩
    · cases h

/-! ## START -/

/-- What an operand register of PQ holds after a START (40 R81, log entry 10): the operand where it fits, and in any
case a number its width holds. -/
theorem latch_spec (draw : Nat) (height : Bool) (x : Nat) :
    (x < 4294967296 → latch draw height x = x) ∧ latch draw height x < 4294967296 := by
  unfold latch
  by_cases hx : x < Config.cwRange
  · rw [if_pos hx]
    exact ⟨fun _ => rfl, hx⟩
  · rw [if_neg hx]
    exact ⟨fun h => absurd h hx, (Config.freeOperand draw height).isLt⟩

/-- The product of the latched operands is that of the operands: an operand no register holds meets a 0. -/
theorem latch_mul (draw w h : Nat) (hl : w * h ≤ 16777216) :
    latch draw false w * latch draw true h = w * h := by
  by_cases hw : w < 4294967296
  · rw [(latch_spec draw false w).1 hw]
    by_cases hh : h < 4294967296
    · rw [(latch_spec draw true h).1 hh]
    · have : w = 0 := by
        by_contra h0
        have : 1 * h ≤ w * h := Nat.mul_le_mul_right h (by omega)
        omega
      subst this
      simp
  · have : h = 0 := by
      by_contra h0
      have : w * 1 ≤ w * h := Nat.mul_le_mul_left w (by omega)
      omega
    subst this
    rw [(latch_spec draw true 0).1 (by decide)]
    simp

/-- What an accepted PQ.START says and does (40 R81). -/
theorem pqStart_next {s t : State} {w h : Nat} (e : pqStart w h s = .next t) :
    w * h ≤ 16777216 ∧ s.pq.st ≠ .busy ∧ s.disjointFor .pq = true ∧
      (s.space .pqPix).len = 3 * (w * h) ∧ w * h ≤ (s.space .pqIdx).len ∧
      (s.space .pqPix).placed (3 * (w * h)) = true ∧
      t = s.nextPqCall.withPq
        { st := .busy, w := latch (s.draws + 1) false w, h := latch (s.draws + 1) true h, n := w * h, i := 0,
          pcount := 0, pal := s.pq.pal, err := .noError, einfo := 0 } := by
  unfold pqStart at e
  split at e
  · cases e
  · rename_i h0
    simp only [Config.lenMax] at h0
    split at e
    · cases e
    · rename_i hc
      obtain ⟨h1, h2, h3, h4, h5⟩ := startCheck_none hc
      split at e
      · cases e
      · rename_i hl
        cases e
        exact ⟨by omega, h1, h2, by simpa using hl, h4, h5, rfl⟩

/-- What an accepted RE.START says and does (41 R101). -/
theorem reStart_next {s t : State} {n : Nat} (e : reStart n s = .next t) :
    n ≤ 16777216 ∧ s.re.st ≠ .busy ∧ s.disjointFor .re = true ∧ n ≤ (s.space .reSrc).len ∧
      n ≤ (s.space .reDst).len ∧ s.sourceBelow80 n = true ∧
      t = s.nextCall.withRe { st := .busy, n := n, cur := 0, wo := 0, warn := false } := by
  unfold reStart at e
  split at e
  · cases e
  · rename_i h0
    simp only [Config.lenMax] at h0
    split at e
    · cases e
    · rename_i hc
      obtain ⟨h1, h2, h3, h4, h5⟩ := startCheck_none hc
      split at e
      · cases e
      · rename_i hl
        cases e
        exact ⟨by omega, h1, h2, h3, h4, by simpa using hl, rfl⟩

/-- What an accepted RD.START says and does (42 R121). -/
theorem rdStart_next {s t : State} {clen olen : Nat} (e : rdStart clen olen s = .next t) :
    clen ≤ 16777216 ∧ olen ≤ 16777216 ∧ s.rd.st ≠ .busy ∧ s.disjointFor .rd = true ∧
      clen ≤ (s.space .rdSrc).len ∧ olen ≤ (s.space .rdDst).len ∧ (s.space .rdSrc).placed clen = true ∧
      t = s.nextCall.withRd { st := .busy, clen := clen, olen := olen, rd := 0, wr := 0, err := .noError,
                              einfo := 0 } := by
  unfold rdStart at e
  split at e
  · cases e
  · rename_i h0
    simp only [Config.lenMax] at h0
    split at e
    · cases e
    · rename_i hc
      obtain ⟨h1, h2, h3, h4, h5⟩ := startCheck_none hc
      cases e
      exact ⟨by omega, by omega, h1, h2, h3, h4, h5, rfl⟩

/-! ## The block -/

/-- Everything a step of the block can be: a unit's step or an operation of the host, on the state with the event taken
off the agenda (10 R13). -/
theorem step_next {s t : State} (h : step s = .next t) :
    (∃ u, s.agenda = [] ∧ s.st u = .busy ∧ busyStep u s = .next t) ∨
    (s.agenda = [] ∧ (∀ u, s.st u ≠ .busy) ∧ t = s) ∨
    (∃ u rest, s.agenda = .unit u :: rest ∧ unitStep u (s.withAgenda rest) = .next t) ∨
    (∃ op rest, s.agenda = .host op :: rest ∧ hostStep op (s.withAgenda rest) = .next t) := by
  unfold step at h
  split at h
  · rename_i ha
    unfold restStep at h
    split at h
    · rename_i hb
      exact .inl ⟨.rd, ha, hb, h⟩
    · split at h
      · rename_i _ hb
        exact .inl ⟨.re, ha, hb, h⟩
      · split at h
        · rename_i _ _ hb
          exact .inl ⟨.pq, ha, hb, h⟩
        · rename_i h1 h2 h3
          cases h
          refine .inr (.inl ⟨ha, fun u => ?_, rfl⟩)
          cases u
          · exact h3
          · exact h2
          · exact h1
  · rename_i e rest ha
    cases e with
    | unit u => exact .inr (.inr (.inl ⟨u, rest, ha, h⟩))
    | host op => exact .inr (.inr (.inr ⟨op, rest, ha, h⟩))

/-- The induction over steps: a property that taking an event off the agenda, every step of a BUSY unit and every
operation of the host keep, every step of the block keeps. -/
theorem step_induction (P : State → Prop) (agenda : ∀ s l, P s → P (s.withAgenda l))
    (busy : ∀ u s t, P s → s.st u = .busy → busyStep u s = .next t → P t)
    (host : ∀ op s t, P s → hostStep op s = .next t → P t) : ∀ s t, P s → step s = .next t → P t := by
  intro s t hp h
  rcases step_next h with ⟨u, _, hu, h⟩ | ⟨_, _, rfl⟩ | ⟨u, rest, _, h⟩ | ⟨op, rest, _, h⟩
  · exact busy u s t hp hu h
  · exact hp
  · unfold unitStep at h
    split at h
    · rename_i hu
      exact busy u _ t (agenda s rest hp) hu h
    · cases h
      exact agenda s rest hp
  · exact host op _ t (agenda s rest hp) h

/-! ## Ownership and the host's other operations -/

/-- What owning a byte array is (20 R46). -/
theorem owns_iff {s : State} {u : UnitId} {k : StoreId} :
    s.owns u k = true ↔ s.st u = .busy ∧ (s.bind.store u.readSpace = k ∨ s.bind.store u.writeSpace = k) := by
  simp [State.owns]

/-- A byte array is owned when some unit owns it. -/
theorem owned_iff {s : State} {k : StoreId} : s.owned k = true ↔ ∃ u, s.owns u k = true := by
  simp only [State.owned, Bool.or_eq_true]
  constructor
  · rintro ((h | h) | h) <;> exact ⟨_, h⟩
  · rintro ⟨u, h⟩
    cases u <;> simp [h]

/-- Providing a byte array, when it is not refused. -/
theorem provide_next {k : StoreId} {len : Nat} {s t : State} (h : provide k len s = .next t) :
    s.owned k = false ∧
      t = s.nextCall.setBuf k { len := len, mem := [], draw := s.draws + 1, losses := [] } := by
  unfold provide at h
  split at h
  · cases h
  · rename_i ho
    cases h
    exact ⟨by simpa using ho, rfl⟩

/-- Placing bytes, when it is not refused. -/
theorem place_next {k : StoreId} {pos : Nat} {bytes : List Byte} {s t : State}
    (h : place k pos bytes s = .next t) :
    s.owned k = false ∧ pos + bytes.length ≤ (s.buf k).len ∧
      t = s.setBuf k { s.buf k with mem := Memory.splice pos bytes (s.buf k).mem } := by
  unfold place at h
  split at h
  · cases h
  · rename_i ho
    split at h
    · rename_i hl
      cases h
      exact ⟨by simpa using ho, hl, rfl⟩
    · cases h

/-- The hand-off, when it is not refused. -/
theorem handOver_next {sp : SpaceId} {k : StoreId} {s t : State} (h : handOver sp k s = .next t) :
    s.st sp.unit ≠ .busy ∧ s.owned k = false ∧ t = { s with bind := s.bind.setStore sp k } := by
  unfold handOver at h
  split at h
  · cases h
  · rename_i hb
    cases h
    rw [not_or] at hb
    exact ⟨hb.1, by simpa using hb.2, rfl⟩

/-- The START checks pass when everything they ask for is there. -/
theorem startCheck_passes {u : UnitId} {input room : Nat} {s : State} (h1 : s.st u ≠ .busy)
    (h2 : s.disjointFor u = true) (h3 : input ≤ (s.space u.readSpace).len) (h4 : room ≤ (s.space u.writeSpace).len)
    (h5 : (s.space u.readSpace).placed input = true) : startCheck u input room s = none := by
  unfold startCheck
  rw [if_neg h1, if_neg (by simp [h2]), if_neg (by omega), if_neg (by simp [h5])]

end Sys2Proof.Machine
end

