-- ==== Sys2Proof/Tests/Slice0.lean ====
section
/-! SUPPORT. Small checks of the model, each result taken from the spec (95_test_vectors, or the rule named), and for
each statement with hypotheses a witness: a concrete state and operands that meet them. -/

namespace Sys2Proof.Tests

open Sys2Proof Sys2Proof.Machine

/-! ## Helpers -/

/-- The next state, if there is one. -/
def after (o : Host.Outcome State Fault Refusal) : Option State :=
  match o with
  | .next t => some t
  | _ => none

/-- The fault, if there is one. -/
def faultOf (o : Host.Outcome State Fault Refusal) : Option Fault :=
  match o with
  | .fault f => some f
  | _ => none

/-- The refusal, if there is one. -/
def refusalOf (o : Host.Outcome State Fault Refusal) : Option Refusal :=
  match o with
  | .refused r => some r
  | _ => none

theorem next_of {o : Host.Outcome State Fault Refusal} (h : (after o).isSome = true) : ∃ t, o = .next t := by
  cases o with
  | next t => exact ⟨t, rfl⟩
  | fault f => cases h
  | refused r => cases h

/-- A byte array that holds these bytes and no more. -/
def array (bytes : List Byte) : Buffer := ⟨bytes.length, Memory.cells 0 bytes, 0, []⟩

/-- A byte array of a length with nothing placed. -/
def room (len : Nat) : Buffer := ⟨len, [], 0, []⟩

/-- RD after `RD.START(clen, olen)` on a stream. -/
def decState (stream : List Byte) (olen : Nat) : State :=
  ((State.reset.setBuf 4 (array stream)).setBuf 5 (room olen)).withRd ⟨.busy, stream.length, olen, 0, 0, .noError, 0⟩

/-- RE after `RE.START(n)` on an input. -/
def encState (src : List Byte) : State :=
  ((State.reset.setBuf 2 (array src)).setBuf 3 (room src.length)).withRe ⟨.busy, src.length, 0, 0, false⟩

/-- A palette whose slot `j` is `(j, 0, 0)`, as after 95 V-PQ-4. -/
def ramp : Vector Rgb 128 := Vector.ofFn (fun j => ⟨byteOf j.val, 0, 0⟩)

/-- PQ at the first pixel of a buffer, the first `pcount` slots of `ramp` its palette. -/
def quantState (pixels : List Byte) (w h pcount : Nat) : State :=
  ((State.reset.setBuf 0 (array pixels)).setBuf 1 (room (w * h))).withPq
    ⟨.busy, w, h, w * h, 0, pcount, ramp, .noError, 0⟩

/-- All three units BUSY, each on its own spaces: a 2 by 1 image, an input of four bytes, a stream of two tokens. -/
def allBusy : State :=
  let s := ((State.reset.setBuf 0 (array [1, 2, 3, 1, 2, 4])).setBuf 1 (room 2)).withPq
    ⟨.busy, 2, 1, 2, 0, 0, ramp, .noError, 0⟩
  let s := ((s.setBuf 2 (array [5, 5, 5, 0])).setBuf 3 (room 4)).withRe ⟨.busy, 4, 0, 0, false⟩
  ((s.setBuf 4 (array [0x84, 1, 2])).setBuf 5 (room 3)).withRd ⟨.busy, 3, 3, 0, 0, .noError, 0⟩

/-- All three units IDLE with the same byte arrays provided and placed. -/
def allIdle : State := ((allBusy.withPq State.reset.pq).withRe State.reset.re).withRd State.reset.rd

/-- The first bytes of a space, after an outcome. -/
def bytesAfter (sp : SpaceId) (n : Nat) (o : Host.Outcome State Fault Refusal) : Option (List Byte) :=
  match o with
  | .next t => (t.space sp).prefixOf n
  | _ => none

/-! ## Well-formed tokens (30 R72): an ill-formed term for each check -/

theorem test_wellFormed_lit : (Instr.lit 0x7F).wellFormed = true ∧ (Instr.lit 0x80).wellFormed = false := by decide
theorem test_wellFormed_runs :
    (Instr.runs 0 0xFF).wellFormed = true ∧ (Instr.runs 1 0).wellFormed = false ∧
      (Instr.runs 127 0xFF).wellFormed = true ∧ (Instr.runs 128 0).wellFormed = false := by decide
theorem test_wellFormed_runs_shared_tag :
    (Instr.runs 2 0x7F).wellFormed = true ∧ (Instr.runs 2 0x80).wellFormed = false ∧
      (Instr.runs 3 0x80).wellFormed = true := by decide
theorem test_wellFormed_runx : (Instr.runx 255 0xFF).wellFormed = true ∧ (Instr.runx 256 0).wellFormed = false := by
  decide
theorem test_wellFormed_runl :
    (Instr.runl 256 0xFF).wellFormed = true ∧ (Instr.runl 255 0).wellFormed = false ∧
      (Instr.runl 383 0).wellFormed = true ∧ (Instr.runl 384 0).wellFormed = false := by decide

/-! ## Encodings written out from 30 R61 to R65 (95 V-ENC) -/

theorem test_decode_lit : decode [0x00] = .ok (.lit 0, []) ∧ decode [0x7F, 0x80] = .ok (.lit 0x7F, [0x80]) := by decide
theorem test_decode_runs_zero : decode [0x80, 0x11] = .ok (.runs 0 0x11, []) := by decide
theorem test_decode_runs_two : decode [0x82, 0x00] = .ok (.runs 2 0, []) ∧ decode [0x82, 0x7F] = .ok (.runs 2 0x7F, []) := by
  decide
theorem test_decode_runs_rows :
    decode [0x83, 0x05] = .ok (.runs 3 5, []) ∧ decode [0x85, 0x90] = .ok (.runs 5 0x90, []) ∧
      decode [0x88, 0x05] = .ok (.runs 8 5, []) ∧ decode [0x90, 0x05] = .ok (.runs 16 5, []) ∧
      decode [0xA0, 0x05] = .ok (.runs 32 5, []) ∧ decode [0xC0, 0x05] = .ok (.runs 64 5, []) ∧
      decode [0xFF, 0x05] = .ok (.runs 127 5, []) := by decide
theorem test_decode_runx :
    decode [0x81, 0x00, 0x07] = .ok (.runx 0 7, []) ∧ decode [0x81, 0x80, 0x05] = .ok (.runx 128 5, []) ∧
      decode [0x81, 0xFF, 0x05] = .ok (.runx 255 5, []) ∧ decode [0x81, 0x81, 0x82] = .ok (.runx 129 0x82, []) := by decide
theorem test_decode_runl :
    decode [0x82, 0x80, 0x01] = .ok (.runl 256 1, []) ∧ decode [0x82, 0xFF, 0x05] = .ok (.runl 383 5, []) ∧
      decode [0x82, 0x82, 0x82] = .ok (.runl 258 0x82, []) := by decide
theorem test_decode_truncated :
    decode [0x82, 0x80] = .error .noThirdByte ∧ decode [0x81, 0x05] = .error .noThirdByte ∧
      decode [0xFF] = .error .noSecondByte ∧ decode [0x80] = .error .noSecondByte := by decide
theorem test_encode :
    encode (.lit 0x7F) = [0x7F] ∧ encode (.runs 127 5) = [0xFF, 5] ∧ encode (.runx 128 5) = [0x81, 0x80, 5] ∧
      encode (.runl 383 5) = [0x82, 0xFF, 5] := by decide

/-- 30 R75: no two rows of the opcode table apply to the same first bytes. -/
theorem test_rows_disjoint :
    opcodeRows.Pairwise (fun x y => x.pat &&& (x.mask &&& y.mask) ≠ y.pat &&& (x.mask &&& y.mask)) := by decide

/-- The table's own words: LIT, RUNS, RUNX and RUNL rows of opcode_table.json, operand bits zero. -/
theorem test_table_words :
    decodeTableWord 8 0x00 = some (.lit 0) ∧ decodeTableWord 16 0x8000 = some (.runs 0 0) ∧
      decodeTableWord 24 0x8100 = some (.runx 0 0) ∧ decodeTableWord 16 0x8200 = some (.runs 2 0) ∧
      decodeTableWord 24 0x8280 = some (.runl 256 0) ∧ decodeTableWord 16 0xC000 = some (.runs 64 0) := by decide

/-- A table word placed at reset is fetched and run by the very next step (42 R126). -/
theorem test_fetch_word :
    ((after (step (State.reset.withFetchWord 24 0x8280))).map (fun t => (t.rd.rd, t.rd.wr))) = some (3, 256) := by decide

/-! ## The tokens -/

/-- 95 V-RD-12: a literal. -/
theorem test_lit : bytesAfter .rdDst 1 (exec (.lit 1) (decState [1, 1, 1] 3)) = some [1] := by decide
/-- 95 V-RD-24: with `olen` = 0 a literal writes nothing and both cursors advance. -/
theorem test_lit_full :
    ((after (exec (.lit 5) (decState [5, 5] 0))).map (fun t => (t.rd.rd, t.rd.wr))) = some (1, 1) := by decide
/-- 95 V-RD-5: an overrun by one byte is dropped, `RD.wr` is not. -/
theorem test_runs_overrun :
    ((after (exec (.runs 3 5) (decState [0x83, 5] 2))).map (fun t => (t.rd.rd, t.rd.wr))) = some (2, 3) ∧
      bytesAfter .rdDst 2 (exec (.runs 3 5) (decState [0x83, 5] 2)) = some [5, 5] := by decide
/-- 95 V-RD-7: RUNS 0 is a no-operation of two bytes. -/
theorem test_runs_zero :
    ((after (exec (.runs 0 0x11) (decState [0x80, 0x11, 3] 1))).map (fun t => (t.rd.rd, t.rd.wr))) = some (2, 0) := by decide
/-- 95 V-RD-9: a non-canonical RUNX. -/
theorem test_runx : bytesAfter .rdDst 3 (exec (.runx 3 9) (decState [0x81, 3, 9] 3)) = some [9, 9, 9] := by decide
/-- 95 V-RD-14: a run length of 0x80 or more is unsigned, and a value above 0x7F is honoured. -/
theorem test_runx_unsigned :
    ((after (exec (.runx 129 0x82) (decState [0x81, 0x81, 0x82] 129))).map
      (fun t => (t.rd.rd, t.rd.wr, (t.space .rdDst).mem.read 128))) = some (3, 129, some 0x82) := by decide +kernel
/-- 95 V-RD-15: RUNL 258. -/
theorem test_runl :
    ((after (exec (.runl 258 0x82) (decState [0x82, 0x82, 0x82] 258))).map
      (fun t => (t.rd.rd, t.rd.wr, (t.space .rdDst).mem.read 257))) = some (3, 258, some 0x82) := by decide +kernel
/-- 20 R44: no token writes outside its space. -/
theorem test_outside_space :
    faultOf (exec (.runs 3 5) ((decState [0x83, 5] 3).setBuf 5 (room 2))) = some .outOfSpace := by decide

/-! ## Steps of the units -/

/-- 95 P1, step 1. -/
theorem test_rd_step :
    ((after (step (decState [0x82, 0, 1, 0x83, 2, 3] 7))).map (fun t => (t.rd.rd, t.rd.wr, t.rd.st))) =
      some (2, 2, .busy) := by decide
/-- 95 V-RD-18: `82 80` ends inside a RUNL; nothing but the state and the error registers changes. -/
theorem test_rd_truncated :
    ((after (step (decState [0x82, 0x80] 256))).map (fun t => t.rd)) =
      some ⟨.err, 2, 256, 0, 0, .malformedStream, 0⟩ := by decide
/-- 95 V-PQ-3: the second pixel differs in one channel, so it is a new colour; here after the palette's one entry. -/
theorem test_pq_append :
    ((after (step (quantState [0, 0, 1] 1 1 1))).map
      (fun t => (t.pq.pcount, t.pq.pal[1], (t.space .pqIdx).mem.read 0))) = some (2, ⟨0, 0, 1⟩, some 1) := by decide +kernel
/-- 95 V-PQ-6: a full palette still answers a hit. -/
theorem test_pq_hit_full :
    ((after (step (quantState [5, 0, 0] 1 1 128))).map (fun t => (t.pq.pcount, (t.space .pqIdx).mem.read 0))) =
      some (128, some 5) := by decide
/-- 95 V-PQ-5, V-PQ-6: a 129th colour. -/
theorem test_pq_overflow :
    ((after (step (quantState [0, 0, 1] 1 1 128))).map (fun t => (t.pq.st, t.pq.err, t.pq.einfo, t.pq.i))) =
      some (.err, .paletteOverflow, 0, 0) := by decide
/-- 95 V-RE-5: `00 00 01 ...` begins with RUNS 2, 0. -/
theorem test_re_step :
    ((after (step (encState [0, 0, 1, 2, 2, 2, 3]))).map (fun t => (t.re.cur, t.re.wo, (t.space .reDst).prefixOf 2))) =
      some (2, 2, some [0x82, 0]) := by decide
/-- 95 S3: the patterns at the boundary run lengths. -/
theorem test_re_boundaries :
    emitted 1 5 = [5] ∧ emitted 2 5 = [0x82, 5] ∧ emitted 127 5 = [0xFF, 5] ∧ emitted 128 5 = [0x81, 0x80, 5] ∧
      emitted 255 5 = [0x81, 0xFF, 5] ∧ emitted 256 5 = [0x82, 0x80, 5] ∧ emitted 383 5 = [0x82, 0xFF, 5] := by decide
/-- 95 S7: 8192 bytes give no warning, 8193 do. -/
theorem test_re_warning : oversize 8192 = false ∧ oversize 8193 = true := by decide
/-- 41 R113: an input byte of 0x80 is refused. -/
theorem test_re_source :
    refusalOf (reStart 1 (((State.reset.setBuf 2 (array [0x80])).setBuf 3 (room 1)))) = some .sourceByteAbove7F := by decide
/-- 40 R81, R91: a width of 2^32 with no rows is accepted, and the pixel count is 0. -/
theorem test_pq_start_wide :
    ((after (pqStart 4294967296 0 State.reset)).map (fun t => (t.pq.st, t.pq.n, t.pq.h))) = some (.busy, 0, 0) := by decide
/-- 20 R40: no space becomes the storage of a BUSY unit. -/
theorem test_hand_off_busy :
    refusalOf (handOver .reSrc 1 (quantState [1, 2, 3] 1 1 0)) = some .busySpaceTouched := by decide
/-- 70 R218: START while BUSY is refused. -/
theorem test_start_busy : refusalOf (hostStep (.rdStart 0 0) allBusy) = some .startWhileBusy := by decide
/-- 95 S3: 384 equal bytes are cut at the cap. -/
theorem test_rle_enc : rleEnc (List.replicate 384 5) = [0x82, 0xFF, 5, 5] := by decide +kernel
/-- 95 V-RD-6. -/
theorem test_rle_dec : rleDec [0x84, 1, 2] 3 = .ok ([1, 1, 1], 5) := by decide
/-- 95 V-RD-23. -/
theorem test_rle_dec_truncated : rleDec [1, 2, 0x83] 2 = .error 2 := by decide
/-- 95 V-PQ-2. -/
theorem test_pq_call :
    pqCall (toPixels [0xFF, 0, 0, 0, 0xFF, 0, 0xFF, 0, 0, 0, 0, 0xFF, 0, 0xFF, 0, 0xFF, 0, 0]) =
      .ok ([⟨0xFF, 0, 0⟩, ⟨0, 0xFF, 0⟩, ⟨0, 0, 0xFF⟩], [0, 1, 0, 2, 1, 0]) := by decide
/-- 43 R158: no magic; then a short file. -/
theorem test_parse_errors :
    parse [0x4D, 0x00] = .failed .badMagic none ∧ parse [0x4D, 0x52] = .failed .truncatedFile none := by decide

/-! ## Witnesses: encoding -/

theorem witness_wellFormed :
    (Instr.lit 0x7F).wellFormed = true ∧ (Instr.runs 127 0xFF).wellFormed = true ∧ (Instr.runs 2 0x7F).wellFormed = true ∧
      (Instr.runx 255 0xFF).wellFormed = true ∧ (Instr.runl 383 0xFF).wellFormed = true := by decide
theorem witness_stream :
    (∀ i ∈ [Instr.lit 0x7F, .runs 2 0, .runx 255 0xFF, .runl 256 0], i.wellFormed = true) ∧
      (encodeStream [Instr.lit 0x7F, .runs 2 0, .runx 255 0xFF, .runl 256 0]).length ≤ 9 := by decide
/-- The clauses of the dispatch, at the ends of their ranges. -/
theorem witness_dispatch :
    (0x00#8).toNat < 0x80 ∧ (0x7F#8).toNat < 0x80 ∧ 0x80 ≤ (0x80#8).toNat ∧ 0x80 ≤ (0xFF#8).toNat ∧
      0x83 ≤ (0x83#8).toNat ∧ 0x83 ≤ (0xFF#8).toNat := by decide
theorem witness_emitted_run :
    (1 ≤ 1 ∧ 1 ≤ 383) ∧ (1 ≤ 383 ∧ 383 ≤ 383) ∧ (0x00#8).toNat < 0x80 ∧ (0x7F#8).toNat < 0x80 := by decide

/-! ## Witnesses: tokens and RD's steps -/

/-- LIT, RUNS, RUNX, RUNL: room for the expected length, exactly. -/
theorem witness_token_room :
    (decState [0x83, 5] 2).rd.olen ≤ ((decState [0x83, 5] 2).space .rdDst).len ∧
      (decState [0x83, 5] 0).rd.olen ≤ ((decState [0x83, 5] 0).space .rdDst).len := by decide
theorem witness_token_next :
    (∃ t, exec (.lit 5) (decState [5] 1) = .next t) ∧ (∃ t, exec (.runs 3 5) (decState [0x83, 5] 2) = .next t) ∧
      (∃ t, exec (.runx 0 5) (decState [0x81, 0, 5] 2) = .next t) ∧
      ∃ t, exec (.runl 383 5) (decState [0x82, 0xFF, 5] 383) = .next t :=
  ⟨next_of (by decide), next_of (by decide), next_of (by decide), next_of (by decide +kernel)⟩
/-- Both sides of the stop: one byte too few, and just enough. -/
theorem witness_token_stop :
    (fillCount 3 ((decState [0x83, 5] 3).setBuf 5 (room 2)) ≠ 0 ∧
      (((decState [0x83, 5] 3).setBuf 5 (room 2)).space .rdDst).len <
        ((decState [0x83, 5] 3).setBuf 5 (room 2)).rd.wr + fillCount 3 ((decState [0x83, 5] 3).setBuf 5 (room 2))) ∧
    ¬ (fillCount 3 (decState [0x83, 5] 3) ≠ 0 ∧ ((decState [0x83, 5] 3).space .rdDst).len <
        (decState [0x83, 5] 3).rd.wr + fillCount 3 (decState [0x83, 5] 3)) := by decide

/-- A stream stands in RD's read space. -/
theorem decState_holds (stream : List Byte) (olen : Nat) : (decState stream olen).holds .rdSrc 0 stream := by
  intro j h
  refine (Buffer.read_ok _ _ _).mpr ?_
  have : (decState stream olen).space .rdSrc = array stream := by
    show ((State.reset.setBuf 4 (array stream)).setBuf 5 (room olen)).buf 4 = _
    rw [State.setBuf_buf, State.setBuf_buf, if_neg (by decide), if_pos rfl]
  rw [this]
  refine ⟨by simpa [array] using h, ?_⟩
  simp only [array, Memory.read_cells, Nat.zero_le, if_true, Nat.zero_add, Nat.sub_zero]
  exact List.getElem?_eq_getElem h

theorem witness_step_runs_token :
    (decState [0x82, 0x80, 1] 256).rd.st = .busy ∧ decode [0x82, 0x80, 1] = .ok (.runl 256 1, []) ∧
      (decState [0x82, 0x80, 1] 256).rd.rd + [0x82#8, 0x80, 1].length ≤ (decState [0x82, 0x80, 1] 256).rd.clen ∧
      (decState [0x82, 0x80, 1] 256).holds .rdSrc (decState [0x82, 0x80, 1] 256).rd.rd [0x82, 0x80, 1] ∧
      (decState [0x82, 0x80, 1] 256).agenda = [] ∧
      ((decState [0x82, 0x80, 1] 256).withAgenda [.unit .rd]).agenda = .unit .rd :: [] :=
  ⟨by decide, by decide, by decide, decState_holds _ _, by decide, by decide⟩

/-- Everything TruncatedTokenRaises asks for, of a stream of at least one byte. -/
theorem witness_truncated (stream : List Byte) (h : stream ≠ []) (olen : Nat) :
    let s := decState stream olen
    s.rd.st = .busy ∧ s.rd.rd < s.rd.clen ∧ stream.length = s.rd.clen - s.rd.rd ∧ s.holds .rdSrc s.rd.rd stream ∧
      s.rd.olen ≤ (s.space .rdDst).len := by
  refine ⟨rfl, List.length_pos_iff.mpr h, rfl, decState_holds stream olen, ?_⟩
  have : (decState stream olen).space .rdDst = room olen := by
    show ((State.reset.setBuf 4 (array stream)).setBuf 5 (room olen)).buf 5 = _
    rw [State.setBuf_buf, if_pos rfl]
  rw [this]
  exact Nat.le_refl _
/-- The three cases of 42 R130, each at its boundary, and the whole token beside the third. -/
theorem witness_truncated_cases :
    (∃ b0, [0x80#8] = [b0] ∧ 0x80 ≤ b0.toNat) ∧ (∃ b0, [0xFF#8] = [b0] ∧ 0x80 ≤ b0.toNat) ∧
      (∃ b1, [0x81#8, 5] = [0x81#8, b1]) ∧ (∃ b1, [0x82#8, 0x80] = [0x82#8, b1] ∧ 0x80 ≤ b1.toNat) ∧
      ¬ ∃ b1 : Byte, [0x82#8, 0x7F] = [0x82#8, b1] ∧ 0x80 ≤ b1.toNat := by
  refine ⟨⟨_, rfl, by decide⟩, ⟨_, rfl, by decide⟩, ⟨_, rfl⟩, ⟨_, rfl, by decide⟩, ?_⟩
  rintro ⟨b1, h, h'⟩
  simp only [List.cons.injEq, and_true, true_and] at h
  subst h
  exact absurd h' (by decide)
theorem witness_decoder_completes :
    (decState [] 0).rd.rd = (decState [] 0).rd.clen ∧ (decState [] 4).rd.rd = (decState [] 4).rd.clen ∧
      (decState [] 4).rd.wr < (decState [] 4).rd.olen := by decide
/-- A step that goes on, one that completes, one that raises. -/
theorem witness_program_counter :
    (decState [5, 5] 2).rd.st = .busy ∧ (decState [] 0).rd.st = .busy ∧ (decState [0x81, 5] 5).rd.st = .busy ∧
    (∃ t, unitStep .rd (decState [5, 5] 2) = .next t) ∧ (∃ t, unitStep .rd (decState [] 0) = .next t) ∧
      ∃ t, unitStep .rd (decState [0x81, 5] 5) = .next t :=
  ⟨rfl, rfl, rfl, next_of (by decide), next_of (by decide), next_of (by decide)⟩

/-! ## Witnesses: PQ's steps -/

/-- A hit in the first slot and one in the last. -/
theorem witness_hit (j : Nat) (hj : j = 0 ∨ j = 127) :
    let s := quantState [byteOf j, 0, 0] 1 1 128
    s.pq.i < s.pq.n ∧ s.pixel s.pq.i = some ⟨byteOf j, 0, 0⟩ ∧ s.pq.palette[j]? = some ⟨byteOf j, 0, 0⟩ ∧
      (∀ k, k < j → s.pq.palette[k]? ≠ some ⟨byteOf j, 0, 0⟩) ∧ s.pq.i < (s.space .pqIdx).len := by
  rcases hj with rfl | rfl <;> decide +kernel
/-- A new colour with no slot taken, and with one slot left. -/
theorem witness_append (n : Nat) (hn : n = 0 ∨ n = 127) :
    let s := quantState [0, 0, 1] 1 1 n
    s.pq.i < s.pq.n ∧ s.pixel s.pq.i = some ⟨0, 0, 1⟩ ∧ ⟨0, 0, 1⟩ ∉ s.pq.palette ∧ s.pq.pcount < 128 ∧
      s.pq.i < (s.space .pqIdx).len := by
  rcases hn with rfl | rfl <;> decide +kernel
theorem witness_overflow :
    let s := quantState [0, 0, 1] 1 1 128
    s.pq.i < s.pq.n ∧ s.pixel s.pq.i = some ⟨0, 0, 1⟩ ∧ ⟨0, 0, 1⟩ ∉ s.pq.palette ∧ 128 ≤ s.pq.pcount := by
  decide +kernel
theorem witness_quantizer_completes : (quantState [] 0 0 0).pq.i = (quantState [] 0 0 0).pq.n := by decide

/-! ## Witnesses: RE's steps -/

/-- An input stands in RE's read space. -/
theorem encState_read (src : List Byte) (a : Nat) (h : a < src.length) :
    (encState src).readSpace .reSrc a = .ok src[a] := by
  refine (Buffer.read_ok _ _ _).mpr ?_
  have : (encState src).space .reSrc = array src := by
    show ((State.reset.setBuf 2 (array src)).setBuf 3 (room src.length)).buf 2 = _
    rw [State.setBuf_buf, State.setBuf_buf, if_neg (by decide), if_pos rfl]
  rw [this]
  refine ⟨by simpa [array] using h, ?_⟩
  simp only [array, Memory.read_cells, Nat.zero_le, if_true, Nat.sub_zero]
  exact List.getElem?_eq_getElem h

/-- There is room for the output. -/
theorem encState_room (src : List Byte) : ((encState src).space .reDst).len = src.length := by
  show (((State.reset.setBuf 2 (array src)).setBuf 3 (room src.length)).buf 3).len = _
  rw [State.setBuf_buf, if_pos rfl]
  rfl

/-- Every run length from 1 to 383, ended by the end of the input; so at every boundary of R104 to R107. -/
theorem witness_run_to_end (r : Nat) (h : 1 ≤ r) (h' : r ≤ 383) :
    let s := encState (List.replicate r 7)
    s.re.cur < s.re.n ∧ (7#8).toNat < 0x80 ∧ 1 ≤ r ∧ r ≤ 383 ∧ s.re.cur + r ≤ s.re.n ∧ s.holds .reSrc s.re.cur (List.replicate r 7) ∧
      (r = 383 ∨ s.re.cur + r = s.re.n ∨ ∃ b, b ≠ 7 ∧ s.readSpace .reSrc (s.re.cur + r) = .ok b) ∧
      s.re.wo + r ≤ (s.space .reDst).len := by
  have hn : (encState (List.replicate r (7 : Byte))).re.n = r := List.length_replicate
  have hc : (encState (List.replicate r (7 : Byte))).re.cur = 0 := rfl
  have hw : (encState (List.replicate r (7 : Byte))).re.wo = 0 := rfl
  refine ⟨by omega, by decide, h, h', by omega, ?_, .inr (.inl (by omega)), ?_⟩
  · intro j hj
    rw [hc, Nat.zero_add]
    exact encState_read _ j hj
  · rw [encState_room, List.length_replicate, hw]
    omega
/-- A run ended by another byte. -/
theorem witness_run_to_byte :
    let s := encState [7, 7, 8]
    s.re.cur < s.re.n ∧ s.re.cur + 2 ≤ s.re.n ∧ s.holds .reSrc s.re.cur [7, 7] ∧
      (∃ b, b ≠ 7 ∧ s.readSpace .reSrc (s.re.cur + 2) = .ok b) ∧ s.re.wo + 2 ≤ (s.space .reDst).len := by
  refine ⟨by decide, by decide, ?_, ⟨8, by decide, encState_read [7, 7, 8] 2 (by decide)⟩, by decide⟩
  intro j hj
  match j, hj with
  | 0, _ => exact encState_read [7, 7, 8] 0 (by decide)
  | 1, _ => exact encState_read [7, 7, 8] 1 (by decide)
theorem witness_encoder_completes : (encState []).re.cur = (encState []).re.n := by decide

/-! ## Witnesses: the host's operations -/

theorem witness_quantizer_starts :
    allIdle.pq.st ≠ .busy ∧ 2 * 1 ≤ 16777216 ∧ allIdle.disjointFor .pq = true ∧
      (allIdle.space .pqPix).len = 3 * (2 * 1) ∧ 2 * 1 ≤ (allIdle.space .pqIdx).len ∧
      (allIdle.space .pqPix).placed (3 * (2 * 1)) = true := by decide
/-- A width no 32-bit register holds, of an image with no rows (40 R91). -/
theorem witness_quantizer_starts_wide :
    let s := State.reset
    s.pq.st ≠ .busy ∧ 4294967296 * 0 ≤ 16777216 ∧ s.disjointFor .pq = true ∧
      (s.space .pqPix).len = 3 * (4294967296 * 0) ∧ 4294967296 * 0 ≤ (s.space .pqIdx).len ∧
      (s.space .pqPix).placed (3 * (4294967296 * 0)) = true := by decide
theorem witness_encoder_starts :
    allIdle.re.st ≠ .busy ∧ 4 ≤ 16777216 ∧ allIdle.disjointFor .re = true ∧ 4 ≤ (allIdle.space .reSrc).len ∧
      4 ≤ (allIdle.space .reDst).len ∧
      ∀ a, a < 4 → ∃ v : Byte, (allIdle.space .reSrc).mem.read a = some v ∧ v.toNat < 0x80 := by
  refine ⟨by decide, by decide, by decide, by decide, by decide, ?_⟩
  intro a ha
  match a, ha with
  | 0, _ => exact ⟨5, by decide, by decide⟩
  | 1, _ => exact ⟨5, by decide, by decide⟩
  | 2, _ => exact ⟨5, by decide, by decide⟩
  | 3, _ => exact ⟨0, by decide, by decide⟩
theorem witness_decoder_starts :
    allIdle.rd.st ≠ .busy ∧ 3 ≤ 16777216 ∧ 3 ≤ 16777216 ∧ allIdle.disjointFor .rd = true ∧
      3 ≤ (allIdle.space .rdSrc).len ∧ 3 ≤ (allIdle.space .rdDst).len ∧ (allIdle.space .rdSrc).placed 3 = true := by
  decide
/-- One state for each reason PQ.START, RE.START and RD.START are refused. -/
theorem witness_refused :
    allBusy.pq.st = .busy ∧ 16777216 < 16777217 * 1 ∧ (allIdle.space .pqPix).len ≠ 3 * (1 * 1) ∧
      (allIdle.space .pqIdx).len < 3 * 1 ∧
      State.disjointFor ⟨State.reset.pq, State.reset.re, State.reset.rd, State.reset.bufs, ⟨0, 0, 2, 2, 4, 4⟩, [], 0, 0⟩
        .pq = false ∧
      State.disjointFor ⟨State.reset.pq, State.reset.re, State.reset.rd, State.reset.bufs, ⟨0, 0, 2, 2, 4, 4⟩, [], 0, 0⟩
        .re = false ∧
      State.disjointFor ⟨State.reset.pq, State.reset.re, State.reset.rd, State.reset.bufs, ⟨0, 0, 2, 2, 4, 4⟩, [], 0, 0⟩
        .rd = false ∧
      allBusy.re.st = .busy ∧ 16777216 < 16777217 ∧ (allIdle.space .reSrc).len < 5 ∧ (allIdle.space .reDst).len < 5 ∧
      (encState [0x80]).readSpace .reSrc 0 = .ok 0x80 ∧ 0x80 ≤ (0x80#8).toNat ∧
      allBusy.rd.st = .busy ∧ (allIdle.space .rdSrc).len < 4 ∧ (allIdle.space .rdDst).len < 4 := by decide
theorem witness_busy_spaces : (∀ u, allBusy.st u = .busy) ∧ (∀ u : UnitId, u.readSpace.unit = u ∧ u.writeSpace.unit = u) := by
  refine ⟨fun u => ?_, fun u => ?_⟩ <;> cases u <;> decide
theorem witness_hand_off :
    (∀ sp : SpaceId, allIdle.st sp.unit ≠ .busy) ∧ ∀ k : StoreId, allIdle.owned k = false := by
  refine ⟨fun sp => ?_, by decide⟩
  cases sp <;> decide
/-- An array no BUSY unit owns while RD is BUSY, an index in it, and one that holds a value. -/
theorem witness_host_access :
    (decState [0x83, 5] 3).owned 2 = false ∧ ((encState [7]).withRe State.reset.re).owned 2 = false ∧
      0 + [9#8].length ≤ (((encState [7]).withRe State.reset.re).buf 2).len ∧
      ((encState [7]).withRe State.reset.re).bind.store .reSrc = 2 ∧
      (((encState [7]).withRe State.reset.re).buf 2).mem.read 0 = some 7 := by decide

/-- RD BUSY on arrays 4 and 5, RE idle on array 2 with one byte placed, and PQ's two spaces made one storage. -/
def sharedState : State :=
  { decState [0x83, 5] 3 with
    bufs := ((decState [0x83, 5] 3).setBuf 2 ⟨2, Memory.cells 0 [7], 0, []⟩).bufs
    bind := ⟨2, 2, 2, 3, 4, 5⟩ }

/-- Each clause of ReadingTwiceGivesSameByte has its premises met. -/
theorem witness_reading_twice :
    sharedState.bind.store .pqPix = sharedState.bind.store .reSrc ∧
      (∃ t, unitStep .rd sharedState = .next t) ∧ sharedState.owned (sharedState.bind.store .reSrc) = false ∧
      ((after (pqStart 2 1 allIdle)).map (fun t => t.owned (t.bind.store .reSrc))) = some false ∧
      ((after (reStart 4 allIdle)).map (fun t => t.owned (t.bind.store .rdSrc))) = some false ∧
      ((after (rdStart 0 0 allIdle)).map (fun t => t.owned (t.bind.store .reSrc))) = some false ∧
      (∃ t, handOver .pqIdx 2 sharedState = .next t) ∧ SpaceId.reSrc ≠ .pqIdx ∧
      (∃ t, place 2 0 [9] sharedState = .next t) ∧ ¬ (sharedState.bind.store .reSrc = 2 ∧ 0 ≤ 1 ∧ 1 < 0 + [9#8].length) :=
  ⟨by decide, next_of (by decide), by decide, by decide, by decide, by decide, next_of (by decide), by decide,
    next_of (by decide), by decide⟩

/-- PQ and RD both in ERR. -/
def bothErr : State :=
  (allIdle.withPq ⟨.err, 2, 1, 2, 1, 1, ramp, .paletteOverflow, 1⟩).withRd ⟨.err, 3, 3, 2, 2, .malformedStream, 2⟩

/-- At rest, before a step of a unit, before a START of each, and before the reset event. -/
theorem witness_error_held :
    bothErr.pq.st = .err ∧ bothErr.rd.st = .err ∧ (∃ t, step bothErr = .next t) ∧
      (∃ t, step (bothErr.withAgenda [.unit .pq]) = .next t) ∧
      (∃ t, step (bothErr.withAgenda [.host (.pqStart 2 1)]) = .next t) ∧
      (∃ t, step (bothErr.withAgenda [.host (.rdStart 3 3)]) = .next t) ∧
      ∃ t, step (bothErr.withAgenda [.host .resetEvent]) = .next t :=
  ⟨rfl, rfl, next_of (by decide), next_of (by decide), next_of (by decide), next_of (by decide), next_of (by decide)⟩
theorem witness_unit_steps :
    (∃ t, unitStep .pq allBusy = .next t) ∧ (∃ t, unitStep .re allBusy = .next t) ∧
      ∃ t, unitStep .rd allBusy = .next t :=
  ⟨next_of (by decide), next_of (by decide), next_of (by decide)⟩
theorem witness_instances :
    ∃ q, platformStep 1 [State.reset, decState [5] 1] = .next q ∧ [State.reset, decState [5] 1][1]? = some (decState [5] 1) := by
  obtain ⟨t, ht⟩ := next_of (o := step (decState [5] 1)) (by decide)
  refine ⟨[State.reset, t], ?_, rfl⟩
  unfold platformStep
  show (match step (decState [5] 1) with
    | .next t => Host.Outcome.next ([State.reset, decState [5] 1].set 1 t)
    | .fault f => .fault f
    | .refused r => .refused r) = _
  rw [ht]
  rfl

/-! ## Witnesses: invariants -/

theorem allBusy_wf : allBusy.wf := by
  unfold State.wf
  decide
theorem allBusy_cursors : allBusy.CursorsOk := by constructor <;> decide
theorem allBusy_errors : allBusy.ErrorsOk := by constructor <;> decide
theorem allBusy_ready : allBusy.CallsReady := by
  constructor
  · decide
  · decide
  · decide
  · decide
  · decide
  · decide
  · intro u
    cases u <;> decide
  · intro u v
    cases u <;> cases v <;> decide
/-- The invariant with all three units BUSY, and a step from there. -/
theorem witness_safe : allBusy.Safe ∧ ∃ t, step allBusy = .next t :=
  ⟨⟨allBusy_wf, allBusy_cursors, allBusy_errors, allBusy_ready⟩, next_of (by decide)⟩
/-- The palette invariant of a BUSY PQ at its first pixel, and PQ's step. -/
theorem witness_palette :
    allBusy.Safe ∧ allBusy.PaletteOk ∧ ∃ t, unitStep .pq allBusy = .next t :=
  ⟨witness_safe.1, fun _ => ⟨[], rfl, fun k h => absurd h (Nat.not_lt_zero k), by decide,
    fun k h => absurd h (Nat.not_lt_zero k)⟩, next_of (by decide)⟩

/-! ## Witnesses: whole calls, and the context outside the block -/

theorem witness_encoder_call :
    (∃ t, reStart 4 allIdle = .next t) ∧ (allIdle.space .reSrc).prefixOf 4 = some [5, 5, 5, 0] :=
  ⟨next_of (by decide), by decide⟩
/-- A stream that overruns, and one that ends inside a token. -/
theorem witness_decoder_call :
    ((∃ t, rdStart 3 3 allIdle = .next t) ∧ (allIdle.space .rdSrc).prefixOf 3 = some [0x84, 1, 2] ∧
      rleDec [0x84, 1, 2] 3 = .ok ([1, 1, 1], 5)) ∧
    ((∃ t, rdStart 1 3 allIdle = .next t) ∧ (allIdle.space .rdSrc).prefixOf 1 = some [0x84] ∧
      rleDec [0x84] 3 = .error 0) :=
  ⟨⟨next_of (by decide), by decide, by decide⟩, next_of (by decide), by decide, by decide⟩
theorem witness_quantizer_call :
    (∃ t, pqStart 2 1 allIdle = .next t) ∧
      (allIdle.space .pqPix).prefixOf (3 * (2 * 1)) = some [1, 2, 3, 1, 2, 4] :=
  ⟨next_of (by decide), by decide⟩
/-- Two different states with the same stream. -/
theorem witness_stateless :
    (∃ t, rdStart 3 3 allIdle = .next t) ∧ (∃ t, rdStart 3 3 bothErr = .next t) ∧
      (allIdle.space .rdSrc).prefixOf 3 = some [0x84, 1, 2] ∧ (bothErr.space .rdSrc).prefixOf 3 = some [0x84, 1, 2] :=
  ⟨next_of (by decide), next_of (by decide), by decide, by decide⟩
/-- The same for an underrun, with a byte the host placed in one output before, and for a stream that ends inside its
token. -/
theorem witness_stateless_undefined :
    let s := (decState [0x82, 1] 3).withRd State.reset.rd
    let s' := (s.setBuf 5 (array [9, 9, 9])).withRd bothErr.rd
    (∃ t, rdStart 2 3 s = .next t) ∧ (∃ t, rdStart 2 3 s' = .next t) ∧
      (s.space .rdSrc).prefixOf 2 = some [0x82, 1] ∧ (s'.space .rdSrc).prefixOf 2 = some [0x82, 1] ∧
      rleDec [0x82, 1] 3 = .ok ([1, 1], 2) ∧
      (∃ t, rdStart 1 3 s = .next t) ∧ (∃ t, rdStart 1 3 s' = .next t) ∧
      (s.space .rdSrc).prefixOf 1 = some [0x82] ∧ (s'.space .rdSrc).prefixOf 1 = some [0x82] ∧
      rleDec [0x82] 3 = .error 0 :=
  ⟨next_of (by decide), next_of (by decide), by decide, by decide, by decide, next_of (by decide),
    next_of (by decide), by decide, by decide, by decide⟩
/-- A zero-sized image, the boundary of FacadeRoundTrips (log entry 25), and the largest accepted dimensions. -/
theorem witness_facade_bounds :
    (0 ≤ 320 ∧ 90 ≤ 90 ∧ ([] : List Byte).length = 3 * (0 * 90) ∧ (firsts (toPixels [])).length ≤ 128) ∧
      320 ≤ 320 ∧ 90 ≤ 90 := by decide
/-- 42 R140: one whole token before the truncated one. -/
theorem witness_failing_call : decodeStream 3 0 [5, 0x81, 5] = .error 1 ∧ tokensIn 3 [5, 0x81, 5] = 1 := by decide
theorem witness_round_trip : ∀ b ∈ [0x00#8, 0x7F, 0x7F], b.toNat < 0x80 := by decide
theorem witness_index_stable :
    pqCall [⟨1, 2, 3⟩, ⟨1, 2, 4⟩, ⟨1, 2, 3⟩] = .ok ([⟨1, 2, 3⟩, ⟨1, 2, 4⟩], [0, 1, 0]) ∧
      [Rgb.mk 1 2 3, ⟨1, 2, 4⟩, ⟨1, 2, 3⟩][1]? = some ⟨1, 2, 4⟩ := by decide
/-- 95 V-PQ-5. -/
theorem witness_overflow_call :
    pqCall ((List.range 129).map (fun k => ⟨byteOf k, 0, 0⟩)) = .error 128 := by decide +kernel
theorem witness_record :
    FileRecord.totalSize ⟨2, 1, [⟨10, 20, 30⟩], [0x82, 0]⟩ < 4294967296 ∧ 2 < 4294967296 ∧ 1 < 4294967296 := by decide
theorem witness_facade :
    2 ≤ 320 ∧ 1 ≤ 90 ∧ [10#8, 20, 30, 10, 20, 30].length = 3 * (2 * 1) ∧
      (firsts (toPixels [10, 20, 30, 10, 20, 30])).length ≤ 128 := by decide
theorem witness_dimensions : (320 < 321 ∨ 90 < 0) ∧ (320 < 0 ∨ 90 < 91) := by decide

end Sys2Proof.Tests
end

/-! SUPPORT. What a step of a unit leaves unchanged, and the statements that say so: the frame of a token, units that do
not interfere, steps that are never refused. -/

namespace Sys2Proof.Machine

/-! ## The frame of a unit's step -/

/-- `t` differs from `s` at most in the registers of unit `u` and in the contents of `u`'s write space (10_state R10,
20_memory R52, R53). -/
structure UnitFrame (u : UnitId) (s t : State) : Prop where
  pq : u ≠ .pq → t.pq = s.pq
  re : u ≠ .re → t.re = s.re
  rd : u ≠ .rd → t.rd = s.rd
  bind : t.bind = s.bind
  agenda : t.agenda = s.agenda
  draws : t.draws = s.draws
  pqDraw : t.pqDraw = s.pqDraw
  len : ∀ k : StoreId, (t.buf k).len = (s.buf k).len
  bytes : ∀ (k : StoreId) (a : Nat), k ≠ s.bind.store u.writeSpace → (t.buf k).mem.read a = (s.buf k).mem.read a

theorem UnitFrame.refl (u : UnitId) (s : State) : UnitFrame u s s :=
  ⟨fun _ => rfl, fun _ => rfl, fun _ => rfl, rfl, rfl, rfl, rfl, fun _ => rfl, fun _ _ _ => rfl⟩

/-- Two states that differ in their byte arrays alone. -/
theorem SameBut.unitFrame {u : UnitId} {s t : State} (e : SameBut s t)
    (bytes : ∀ (k : StoreId) (a : Nat), k ≠ s.bind.store u.writeSpace →
      (t.buf k).mem.read a = (s.buf k).mem.read a) : UnitFrame u s t :=
  ⟨fun _ => e.pq, fun _ => e.re, fun _ => e.rd, e.bind, e.agenda, e.draws, e.pqDraw, e.len, bytes⟩

theorem UnitFrame.withPq {s t : State} (f : UnitFrame .pq s t) (r : PqRegs) : UnitFrame .pq s (t.withPq r) :=
  ⟨fun h => absurd rfl h, f.re, f.rd, f.bind, f.agenda, f.draws, f.pqDraw, f.len, f.bytes⟩

theorem UnitFrame.withRe {s t : State} (f : UnitFrame .re s t) (r : ReRegs) : UnitFrame .re s (t.withRe r) :=
  ⟨f.pq, fun h => absurd rfl h, f.rd, f.bind, f.agenda, f.draws, f.pqDraw, f.len, f.bytes⟩

theorem UnitFrame.withRd {s t : State} (f : UnitFrame .rd s t) (r : RdRegs) : UnitFrame .rd s (t.withRd r) :=
  ⟨f.pq, f.re, fun h => absurd rfl h, f.bind, f.agenda, f.draws, f.pqDraw, f.len, f.bytes⟩

theorem State.writeSpace_frame {u : UnitId} {s t : State} {a : Nat} {bs : List Byte}
    (h : s.writeSpace u.writeSpace a bs = .ok t) : UnitFrame u s t := by
  obtain ⟨e, -, -, -⟩ := State.writeSpace_ok h
  exact e.unitFrame fun k i hk => by rw [(State.writeSpace_buf h).1 k hk]

theorem State.forgetSpace_frame (u : UnitId) (s : State) (lo hi : Nat) :
    UnitFrame u s (s.forgetSpace u.writeSpace lo hi) := by
  obtain ⟨e, -, -⟩ := State.forgetSpace_spec s u.writeSpace lo hi
  exact e.unitFrame fun k i hk => by rw [State.forgetSpace_buf s _ lo hi k hk]

/-- A token that completes is its `fill` followed by the move of the cursors (42 R122). -/
theorem execToken_fill {r len : Nat} {v : Byte} {s t : State} (h : execToken r v len s = .next t) :
    ∃ u, fill r v s = .ok u ∧ t = advance r len u := by
  unfold execToken at h
  split at h
  · cases h
  · rename_i u hu
    cases h
    exact ⟨u, hu, rfl⟩

theorem exec_frame {i : Instr} {s t : State} (h : exec i s = .next t) : UnitFrame .rd s t := by
  rw [exec_eq] at h
  obtain ⟨u, hu, rfl⟩ := execToken_fill h
  exact (State.writeSpace_frame (u := .rd) hu).withRd _

theorem rdComplete_frame (s : State) : UnitFrame .rd s (rdComplete s) := by
  unfold rdComplete
  split
  · exact (State.forgetSpace_frame .rd s _ _).withRd _
  · exact (UnitFrame.refl .rd s).withRd _

theorem rdStep_frame {s t : State} (h : rdStep s = .next t) : UnitFrame .rd s t := by
  rcases rdStep_next h with ⟨i, _, _, _, _, _, _, he⟩ | ⟨_, _, rfl⟩ | ⟨_, rfl⟩
  · exact exec_frame he
  · exact (State.forgetSpace_frame .rd s _ _).withRd _
  · exact rdComplete_frame s

theorem reStep_frame {s t : State} (h : reStep s = .next t) : UnitFrame .re s t := by
  rcases reStep_next h with ⟨r, v, u, _, _, hu, rfl⟩ | ⟨_, rfl⟩
  · exact (State.writeSpace_frame (u := .re) hu).withRe _
  · exact (UnitFrame.refl .re s).withRe _

theorem pqStep_frame {s t : State} (h : pqStep s = .next t) : UnitFrame .pq s t := by
  rcases pqStep_next h with ⟨_, _, u, _, _, _, hu, rfl⟩ | ⟨_, u, _, _, _, _, hu, rfl⟩ | ⟨_, _, _, _, _, rfl⟩ | ⟨_, rfl⟩
  · exact (State.writeSpace_frame (u := .pq) hu).withPq _
  · exact (State.writeSpace_frame (u := .pq) hu).withPq _
  · exact (State.forgetSpace_frame .pq s _ _).withPq _
  · exact (UnitFrame.refl .pq s).withPq _

theorem busyStep_frame {u : UnitId} {s t : State} (h : busyStep u s = .next t) : UnitFrame u s t := by
  cases u with
  | pq => exact pqStep_frame h
  | re => exact reStep_frame h
  | rd => exact rdStep_frame h

/-- A unit's step is a step of the BUSY unit, or none (10_state R13). -/
theorem unitStep_next {u : UnitId} {s t : State} (h : unitStep u s = .next t) :
    (s.st u = .busy ∧ busyStep u s = .next t) ∨ (s.st u ≠ .busy ∧ t = s) := by
  unfold unitStep at h
  split at h
  · rename_i hb
    exact .inl ⟨hb, h⟩
  · rename_i hb
    cases h
    exact .inr ⟨hb, rfl⟩

theorem unitStep_frame {u : UnitId} {s t : State} (h : unitStep u s = .next t) : UnitFrame u s t := by
  rcases unitStep_next h with ⟨_, hs⟩ | ⟨_, rfl⟩
  · exact busyStep_frame hs
  · exact UnitFrame.refl u t

/-- Settles O35: every state a unit's step answers is inside the unit's frame. -/
theorem unitsDoNotInterfere : Obligations.UnitsDoNotInterfere := by
  intro u s t h
  obtain ⟨hpq, hre, hrd, hbind, hagenda, hdraws, hpqDraw, hlen, hbytes⟩ := unitStep_frame h
  exact ⟨hpq, hre, hrd, hbind, hagenda, hdraws, hpqDraw, hlen, hbytes⟩

/-- Settles O11: the frame of RD's step, with the bytes `fill` leaves alone named by `fillCount` (42 R131). -/
theorem tokenFrame : Obligations.TokenFrame := by
  intro i s t h
  obtain ⟨hpq, hre, -, hbind, hagenda, hdraws, hpqDraw, hlen, -⟩ := exec_frame h
  rw [exec_eq] at h
  obtain ⟨-, -, -, -, -, hrd, -, hread, -⟩ := execToken_next h
  obtain ⟨u, hu, rfl⟩ := execToken_fill h
  refine ⟨hpq (by decide), hre (by decide), hrd, hbind, hagenda, hdraws, hpqDraw,
    fun k => ⟨hlen k, (State.writeSpace_buf (sp := .rdDst) hu).2 k⟩, fun k a hk => ?_⟩
  rw [hread k a, if_neg]
  rintro ⟨hstore, hin⟩
  exact hk ⟨hstore, (lt_fillCount i.run a s).mpr hin⟩

/-! ## A unit's step is never refused -/

theorem execToken_not_refused (r len : Nat) (v : Byte) (s : State) (x : Refusal) :
    execToken r v len s ≠ .refused x := by
  unfold execToken
  split <;> nofun

theorem rdStep_not_refused (s : State) (x : Refusal) : rdStep s ≠ .refused x := by
  unfold rdStep
  split
  · split
    · rw [exec_eq]
      exact execToken_not_refused _ _ _ s x
    · nofun
    · nofun
  · split <;> nofun

theorem reStep_not_refused (s : State) (x : Refusal) : reStep s ≠ .refused x := by
  unfold reStep reEmit
  split
  · split
    · nofun
    · split <;> nofun
  · split <;> nofun

theorem pqHit_not_refused (j : Nat) (s : State) (x : Refusal) : pqHit j s ≠ .refused x := by
  unfold pqHit
  split <;> nofun

theorem pqAppend_not_refused (p : Rgb) (s : State) (x : Refusal) : pqAppend p s ≠ .refused x := by
  unfold pqAppend
  split <;> nofun

theorem pqStep_not_refused (s : State) (x : Refusal) : pqStep s ≠ .refused x := by
  unfold pqStep
  split
  · split
    · nofun
    · split
      · exact pqHit_not_refused _ s x
      · split
        · exact pqAppend_not_refused _ s x
        · nofun
  · split <;> nofun

/-- Settles O36: unit by unit, no branch of a step answers a refusal. -/
theorem unitStepsNeverRefused : Obligations.UnitStepsNeverRefused := by
  intro u s x
  unfold unitStep
  split
  · cases u with
    | pq => exact pqStep_not_refused s x
    | re => exact reStep_not_refused s x
    | rd => exact rdStep_not_refused s x
  · nofun

end Sys2Proof.Machine

/-! SUPPORT. What a step of the block can do to the registers of each unit, said once, and the invariants of the
registers derived from it. -/

namespace Sys2Proof.Machine

/-! ## The moves of each unit's registers -/

/-- What a step of the block can make of PQ's registers `r` (40 R81 to R86; 70 R222). -/
inductive PqRegs.Moves (r : PqRegs) : PqRegs → Prop
  /-- A step of another unit, or an operation of the host that is no START of PQ. -/
  | stay : Moves r r
  /-- `PQ.START` of `n` pixels (R81). -/
  | start {w h n : Nat} (hw : w < Config.cwRange) (hh : h < Config.cwRange) (hn : n = w * h) (hl : n ≤ Config.lenMax) :
      Moves r { st := .busy, w := w, h := h, n := n, i := 0, pcount := 0, pal := r.pal, err := .noError, einfo := 0 }
  /-- A hit (R83). -/
  | hit (hb : r.st = .busy) (hi : r.i < r.n) : Moves r { r with i := r.i + 1 }
  /-- A new palette entry (R84). -/
  | append (hb : r.st = .busy) (hi : r.i < r.n) (hc : r.pcount < Config.palMax) (p : Rgb) :
      Moves r { r with pal := r.pal.setIfInBounds r.pcount p, pcount := r.pcount + 1, i := r.i + 1 }
  /-- `PaletteOverflow` (R85). -/
  | overflow (hi : r.i < r.n) : Moves r { r with st := .err, err := .paletteOverflow, einfo := r.i }
  /-- Completion (R86). -/
  | complete (hb : r.st = .busy) : Moves r { r with st := .done }
  /-- The reset event. -/
  | reset : Moves r State.reset.pq

/-- What a step of the block can make of RE's registers `r` (41 R101 to R109; 70 R222). -/
inductive ReRegs.Moves (r : ReRegs) : ReRegs → Prop
  /-- A step of another unit, or an operation of the host that is no START of RE. -/
  | stay : Moves r r
  /-- `RE.START(n)` (R101). -/
  | start {n : Nat} (hn : n ≤ Config.lenMax) : Moves r { st := .busy, n := n, cur := 0, wo := 0, warn := false }
  /-- A run of `k` bytes, emitted as `m` bytes (R104 to R108). -/
  | emit {k m : Nat} (hb : r.st = .busy) (hk : r.cur + k ≤ r.n) (hm : m ≤ k) :
      Moves r { r with wo := r.wo + m, cur := r.cur + k }
  /-- Completion (R109). -/
  | complete : Moves r { r with warn := oversize r.wo, st := .done }
  /-- The reset event. -/
  | reset : Moves r State.reset.re

/-- What a step of the block can make of RD's registers `r` (42 R121 to R133; 70 R222). -/
inductive RdRegs.Moves (r : RdRegs) : RdRegs → Prop
  /-- A step of another unit, or an operation of the host that is no START of RD. -/
  | stay : Moves r r
  /-- `RD.START(clen, olen)` (R121). -/
  | start {clen olen : Nat} (hc : clen ≤ Config.lenMax) (ho : olen ≤ Config.lenMax) :
      Moves r { st := .busy, clen := clen, olen := olen, rd := 0, wr := 0, err := .noError, einfo := 0 }
  /-- A token of run length `k` and `m` bytes (R131, R132). -/
  | token {k m : Nat} (hb : r.st = .busy) (hm : r.rd + m ≤ r.clen) (hk : k ≤ 128 * m) :
      Moves r { r with wr := r.wr + k, rd := r.rd + m }
  /-- `MalformedStream` (R130). -/
  | truncated (hr : r.rd < r.clen) : Moves r { r with st := .err, err := .malformedStream, einfo := r.rd }
  /-- Completion (R133). -/
  | complete (hb : r.st = .busy) : Moves r { r with st := .done }
  /-- The reset event. -/
  | reset : Moves r State.reset.rd

/-- Each unit's registers make one of their moves from `s` to `t`. -/
structure State.Moves (s t : State) : Prop where
  pq : s.pq.Moves t.pq
  re : s.re.Moves t.re
  rd : s.rd.Moves t.rd

/-- No register changes. -/
theorem State.Moves.of_eq {s t : State} (hpq : t.pq = s.pq) (hre : t.re = s.re) (hrd : t.rd = s.rd) : s.Moves t :=
  ⟨hpq ▸ .stay, hre ▸ .stay, hrd ▸ .stay⟩

theorem pqStep_moves {s t : State} (hb : s.pq.st = .busy) (h : pqStep s = .next t) : s.pq.Moves t.pq := by
  rcases pqStep_next h with ⟨_, _, _, hi, _, _, _, rfl⟩ | ⟨p, _, hi, _, _, hc, _, rfl⟩ | ⟨_, hi, _, _, _, rfl⟩ |
    ⟨_, rfl⟩
  · exact .hit hb hi
  · exact .append hb hi hc p
  · exact .overflow hi
  · exact .complete hb

theorem reStep_moves {s t : State} (hb : s.re.st = .busy) (h : reStep s = .next t) : s.re.Moves t.re := by
  rcases reStep_next h with ⟨r, v, _, hlt, hm, _, rfl⟩ | ⟨_, rfl⟩
  · obtain ⟨hr, _, hle, -, -⟩ := measure_ok hm hlt
    exact .emit hb hle (emitted_length_le r v hr).1
  · exact .complete

/-- RD's registers after a decoded token: the cursors have moved, the program counter not past the end of the stream. -/
theorem exec_moves {s t : State} {i : Instr} {bs rest : List Byte} (hb : s.rd.st = .busy)
    (hd : decode bs = .ok (i, rest)) (hl : s.rd.rd + bs.length ≤ s.rd.clen) (h : exec i s = .next t) :
    s.rd.Moves t.rd := by
  rw [exec_eq] at h
  obtain ⟨-, -, -, -, -, hrd, -⟩ := execToken_next h
  have hlen := decode_length hd
  rw [hrd]
  exact .token hb (by omega) (decode_run_le hd)

theorem rdStep_moves {s t : State} (hb : s.rd.st = .busy) (h : rdStep s = .next t) : s.rd.Moves t.rd := by
  rcases rdStep_next h with ⟨i, bs, rest, _, hd, _, hl, he⟩ | ⟨hlt, _, rfl⟩ | ⟨_, rfl⟩
  · exact exec_moves hb hd hl he
  · exact .truncated hlt
  · rw [(rdComplete_spec s).1]
    exact .complete hb

/-- A step of a BUSY unit moves that unit's registers alone. -/
theorem busyStep_moves {u : UnitId} {s t : State} (hb : s.st u = .busy) (h : busyStep u s = .next t) : s.Moves t := by
  have f := busyStep_frame h
  cases u with
  | pq => exact ⟨pqStep_moves hb h, f.re (by decide) ▸ .stay, f.rd (by decide) ▸ .stay⟩
  | re => exact ⟨f.pq (by decide) ▸ .stay, reStep_moves hb h, f.rd (by decide) ▸ .stay⟩
  | rd => exact ⟨f.pq (by decide) ▸ .stay, f.re (by decide) ▸ .stay, rdStep_moves hb h⟩

/-- An operation of the host moves registers by a START or by the reset event alone. -/
theorem hostStep_moves {op : HostOp} {s t : State} (h : hostStep op s = .next t) : s.Moves t := by
  cases op with
  | pqStart w h' =>
    obtain ⟨hl, -, -, -, -, -, rfl⟩ := pqStart_next h
    exact ⟨.start (latch_spec _ _ _).2 (latch_spec _ _ _).2 (latch_mul _ w h' hl).symm hl, .stay, .stay⟩
  | reStart n =>
    obtain ⟨hl, -, -, -, -, -, rfl⟩ := reStart_next h
    exact ⟨.stay, .start hl, .stay⟩
  | rdStart clen olen =>
    obtain ⟨hc, ho, -, -, -, -, -, rfl⟩ := rdStart_next h
    exact ⟨.stay, .stay, .start hc ho⟩
  | provide k len =>
    obtain ⟨-, rfl⟩ := provide_next h
    exact .of_eq rfl rfl rfl
  | place k pos bytes =>
    obtain ⟨-, -, rfl⟩ := place_next h
    exact .of_eq rfl rfl rfl
  | handOver sp k =>
    obtain ⟨-, -, rfl⟩ := handOver_next h
    exact .of_eq rfl rfl rfl
  | resetEvent =>
    cases h
    exact ⟨.reset, .reset, .reset⟩

/-- Everything a step of the block can do to the registers of the units. -/
theorem step_moves {s t : State} (h : step s = .next t) : s.Moves t := by
  rcases step_next h with ⟨u, _, hb, hs⟩ | ⟨_, _, rfl⟩ | ⟨u, rest, _, hs⟩ | ⟨op, rest, _, hs⟩
  · exact busyStep_moves hb hs
  · exact .of_eq rfl rfl rfl
  · rcases unitStep_next hs with ⟨hb, hs⟩ | ⟨_, rfl⟩
    · obtain ⟨hpq, hre, hrd⟩ := busyStep_moves hb hs
      exact ⟨hpq, hre, hrd⟩
    · exact .of_eq rfl rfl rfl
  · obtain ⟨hpq, hre, hrd⟩ := hostStep_moves hs
    exact ⟨hpq, hre, hrd⟩

/-! ## The cursors -/

/-- PQ's part of `State.CursorsOk`. -/
structure PqRegs.CursorsOk (r : PqRegs) : Prop where
  width : r.w < Config.cwRange
  height : r.h < Config.cwRange
  count : r.n = r.w * r.h
  length : r.n ≤ Config.lenMax
  cursor : r.i ≤ r.n
  palette : r.pcount ≤ Config.palMax
  palette_cursor : r.pcount ≤ r.i
  info : r.einfo ≤ Config.lenMax

/-- RE's part of `State.CursorsOk`. -/
structure ReRegs.CursorsOk (r : ReRegs) : Prop where
  length : r.n ≤ Config.lenMax
  cursor : r.cur ≤ r.n
  output : r.wo ≤ r.cur
  no_error : r.st ≠ .err

/-- RD's part of `State.CursorsOk`. -/
structure RdRegs.CursorsOk (r : RdRegs) : Prop where
  stream : r.clen ≤ Config.lenMax
  expected : r.olen ≤ Config.lenMax
  cursor : r.rd ≤ r.clen
  output : r.wr ≤ 128 * r.rd
  info : r.einfo ≤ Config.lenMax

/-- The bounds of the cursors speak of each unit's registers on their own. -/
theorem State.cursorsOk_iff {s : State} : s.CursorsOk ↔ s.pq.CursorsOk ∧ s.re.CursorsOk ∧ s.rd.CursorsOk := by
  constructor
  · rintro ⟨p1, p2, p3, p4, p5, p6, p7, p8, e1, e2, e3, e4, d1, d2, d3, d4, d5⟩
    exact ⟨⟨p1, p2, p3, p4, p5, p6, p7, p8⟩, ⟨e1, e2, e3, e4⟩, ⟨d1, d2, d3, d4, d5⟩⟩
  · rintro ⟨⟨p1, p2, p3, p4, p5, p6, p7, p8⟩, ⟨e1, e2, e3, e4⟩, ⟨d1, d2, d3, d4, d5⟩⟩
    exact ⟨p1, p2, p3, p4, p5, p6, p7, p8, e1, e2, e3, e4, d1, d2, d3, d4, d5⟩

theorem PqRegs.CursorsOk.moves {r r' : PqRegs} (h : r.CursorsOk) (m : r.Moves r') : r'.CursorsOk := by
  have hl := h.length
  have hi := h.cursor
  have hpi := h.palette_cursor
  cases m with
  | stay => exact h
  | start hw hh hn hl' => exact ⟨hw, hh, hn, hl', Nat.zero_le _, Nat.zero_le _, Nat.le_refl _, Nat.zero_le _⟩
  | hit _ hlt => exact { h with cursor := hlt, palette_cursor := Nat.le_succ_of_le hpi }
  | append _ hlt hc => exact { h with cursor := hlt, palette := hc, palette_cursor := Nat.succ_le_succ hpi }
  | overflow hlt => exact { h with info := hi.trans hl }
  | complete => exact { h with }
  | reset => constructor <;> decide

theorem ReRegs.CursorsOk.moves {r r' : ReRegs} (h : r.CursorsOk) (m : r.Moves r') : r'.CursorsOk := by
  cases m with
  | stay => exact h
  | start hn => exact ⟨hn, Nat.zero_le _, Nat.le_refl _, nofun⟩
  | emit _ hk hm => exact { h with cursor := hk, output := Nat.add_le_add h.output hm }
  | complete => exact { h with no_error := nofun }
  | reset => constructor <;> decide

theorem RdRegs.CursorsOk.moves {r r' : RdRegs} (h : r.CursorsOk) (m : r.Moves r') : r'.CursorsOk := by
  cases m with
  | stay => exact h
  | start hc ho => exact ⟨hc, ho, Nat.zero_le _, Nat.zero_le _, Nat.zero_le _⟩
  | @token k len _ hm hk =>
    have hwr := h.output
    have hwr' : r.wr + k ≤ 128 * (r.rd + len) := by omega
    exact { h with cursor := hm, output := hwr' }
  | truncated hr => exact { h with info := h.cursor.trans h.stream }
  | complete => exact { h with }
  | reset => constructor <;> decide

/-- Settles O39: each move of a unit's registers keeps that unit's bounds. -/
theorem cursorBoundsKept : Obligations.CursorBoundsKept := by
  intro s t hs h
  obtain ⟨hpq, hre, hrd⟩ := State.cursorsOk_iff.mp hs
  obtain ⟨mpq, mre, mrd⟩ := step_moves h
  exact State.cursorsOk_iff.mpr ⟨hpq.moves mpq, hre.moves mre, hrd.moves mrd⟩

/-! ## The error registers -/

/-- PQ's part of `State.ErrorsOk`. -/
structure PqRegs.ErrorsOk (r : PqRegs) : Prop where
  err : r.st = .err ↔ r.err = .paletteOverflow
  none : r.st ≠ .err ↔ r.err = .noError

/-- RD's part of `State.ErrorsOk`. -/
structure RdRegs.ErrorsOk (r : RdRegs) : Prop where
  err : r.st = .err ↔ r.err = .malformedStream
  none : r.st ≠ .err ↔ r.err = .noError

/-- The agreement of the error registers speaks of each unit's registers on their own. -/
theorem State.errorsOk_iff {s : State} : s.ErrorsOk ↔ s.pq.ErrorsOk ∧ s.rd.ErrorsOk := by
  constructor
  · rintro ⟨p1, p2, d1, d2⟩
    exact ⟨⟨p1, p2⟩, ⟨d1, d2⟩⟩
  · rintro ⟨⟨p1, p2⟩, ⟨d1, d2⟩⟩
    exact ⟨p1, p2, d1, d2⟩

/-- Outside ERR the error register holds no error. -/
theorem PqRegs.ErrorsOk.of_noError {r : PqRegs} (hs : r.st ≠ .err) (he : r.err = .noError) : r.ErrorsOk := by
  constructor <;> simp [hs, he]

/-- Outside ERR the error register holds no error. -/
theorem RdRegs.ErrorsOk.of_noError {r : RdRegs} (hs : r.st ≠ .err) (he : r.err = .noError) : r.ErrorsOk := by
  constructor <;> simp [hs, he]

theorem PqRegs.ErrorsOk.moves {r r' : PqRegs} (h : r.ErrorsOk) (m : r.Moves r') : r'.ErrorsOk := by
  have hbusy (hb : r.st = .busy) : r.err = .noError := h.none.mp (by simp [hb])
  cases m with
  | stay => exact h
  | start => exact .of_noError nofun rfl
  | hit => exact { h with }
  | append => exact { h with }
  | overflow => constructor <;> simp
  | complete hb => exact .of_noError nofun (hbusy hb)
  | reset => exact .of_noError nofun rfl

theorem RdRegs.ErrorsOk.moves {r r' : RdRegs} (h : r.ErrorsOk) (m : r.Moves r') : r'.ErrorsOk := by
  have hbusy (hb : r.st = .busy) : r.err = .noError := h.none.mp (by simp [hb])
  cases m with
  | stay => exact h
  | start => exact .of_noError nofun rfl
  | token => exact { h with }
  | truncated => constructor <;> simp
  | complete hb => exact .of_noError nofun (hbusy hb)
  | reset => exact .of_noError nofun rfl

/-- Settles O40: each move of a unit's registers keeps its error register in agreement with its state. -/
theorem errorRegistersKept : Obligations.ErrorRegistersKept := by
  intro s t hs h
  obtain ⟨hpq, hrd⟩ := State.errorsOk_iff.mp hs
  have m := step_moves h
  exact State.errorsOk_iff.mpr ⟨hpq.moves m.pq, hrd.moves m.rd⟩

/-! ## The widths of the registers -/

theorem UnitState.code_lt (x : UnitState) : x.code < 4 := by cases x <;> decide

theorem ErrKind.code_lt (k : ErrKind) : k.code < 8 := by cases k <;> decide

/-- Settles O45: the bounds of the cursors are all below the widths; `RD.wr` is the largest, at most 2^31 (42 R141). -/
theorem registersFitTheirWidths : Obligations.RegistersFitTheirWidths := by
  intro s r hs
  obtain ⟨hpq, hre, hrd⟩ := State.cursorsOk_iff.mp hs.cursors
  obtain ⟨pw, ph, -, pn, pi, pc, -, pinfo⟩ := hpq
  obtain ⟨en, ecur, ewo, -⟩ := hre
  obtain ⟨dclen, dolen, drd, dwr, dinfo⟩ := hrd
  simp only [Config.lenMax, Config.palMax, Config.cwRange] at *
  cases r with
  | pqSt => exact s.pq.st.code_lt
  | reSt => exact s.re.st.code_lt
  | rdSt => exact s.rd.st.code_lt
  | pqErr => exact s.pq.err.code_lt
  | rdErr => exact s.rd.err.code_lt
  | reWarn => exact Bool.toNat_lt s.re.warn
  | _ => simp only [readReg, Reg.range, Config.cwRange]; omega

end Sys2Proof.Machine

/-! SUPPORT. In a state of the invariant every step of a BUSY unit completes, so that no step of the block faults. -/

namespace Sys2Proof.Machine

/-! ## What START checked can be read -/

/-- A placed byte inside the array can be read (20 R44, R48). -/
theorem Buffer.read_of_placed {b : Buffer} {n a : Nat} (hp : b.placed n = true) (hl : n ≤ b.len) (ha : a < n) :
    ∃ v, b.read a = .ok v := by
  obtain ⟨v, hv⟩ := (Buffer.placed_iff b n).mp hp a ha
  exact ⟨v, (Buffer.read_ok b a v).mpr ⟨by omega, hv⟩⟩

/-- 41 R113, byte by byte. -/
theorem State.sourceBelow80_iff {s : State} {n : Nat} :
    s.sourceBelow80 n = true ↔ ∀ a, a < n → ∃ v : Byte, (s.space .reSrc).mem.read a = some v ∧ v.toNat < 0x80 := by
  simp only [State.sourceBelow80, List.all_eq_true, List.mem_range, Config.tagBit]
  refine forall₂_congr fun a _ => ?_
  cases (s.space .reSrc).mem.read a with
  | none => simp
  | some v =>
    constructor
    · intro h
      exact ⟨v, rfl, of_decide_eq_true h⟩
    · rintro ⟨_, ⟨⟩, h⟩
      exact decide_eq_true h

/-- An input below 0x80 is a placed input. -/
theorem State.placed_of_sourceBelow80 {s : State} {n : Nat} (h : s.sourceBelow80 n = true) :
    (s.space .reSrc).placed n = true := by
  rw [Buffer.placed_iff]
  intro a ha
  obtain ⟨v, hv, -⟩ := State.sourceBelow80_iff.mp h a ha
  exact ⟨v, hv⟩

/-! ## Steps that complete -/

/-- A readable stream is never found unreadable. -/
theorem fetchFrom_readable {s : State} (hr : ∀ a, a < s.rd.clen → ∃ b, s.readSpace .rdSrc a = .ok b)
    (fuel : Nat) (acc : List Byte) (f : Fault) : fetchFrom s fuel acc ≠ .unreadable f := by
  induction fuel generalizing acc with
  | zero => nofun
  | succ fuel ih =>
    unfold fetchFrom
    split
    · nofun
    · split
      · rename_i hlt
        obtain ⟨b, hb⟩ := hr _ hlt
        rw [hb]
        exact ih (acc ++ [b])
      · nofun

theorem rdStep_completes {s : State} (hc : s.rd.rd ≤ s.rd.clen)
    (hr : ∀ a, a < s.rd.clen → ∃ b, s.readSpace .rdSrc a = .ok b) (ho : s.rd.olen ≤ (s.space .rdDst).len) :
    ∃ t, rdStep s = .next t := by
  unfold rdStep
  split
  · split
    · rw [exec_eq]
      exact execToken_completes _ _ _ s ho
    · exact ⟨_, rfl⟩
    · rename_i f hf
      exact absurd hf (fetchFrom_readable hr 4 [] f)
  · rw [if_pos (by omega)]
    exact ⟨_, rfl⟩

/-- Counting equal bytes completes over readable bytes. -/
theorem matching_completes {s : State} {v : Byte} {k a : Nat}
    (hr : ∀ j, j < k → ∃ b, s.readSpace .reSrc (a + j) = .ok b) : ∃ r, matching s v k a = .ok r := by
  induction k generalizing a with
  | zero => exact ⟨0, rfl⟩
  | succ k ih =>
    obtain ⟨b, hb⟩ := hr 0 (Nat.succ_pos k)
    obtain ⟨r, hm⟩ := ih (a := a + 1) fun j hj => by
      rw [Nat.add_assoc, Nat.add_comm 1 j]
      exact hr (j + 1) (by omega)
    rw [Nat.add_zero] at hb
    unfold matching
    rw [hb, hm]
    dsimp only
    split <;> exact ⟨_, rfl⟩

theorem measureRun_completes {s : State} (hc : s.re.cur < s.re.n)
    (hr : ∀ a, a < s.re.n → ∃ b, s.readSpace .reSrc a = .ok b) : ∃ r v, measureRun s = .ok (r, v) := by
  obtain ⟨v, hv⟩ := hr _ hc
  obtain ⟨r, hm⟩ := matching_completes (s := s) (v := v) (k := min Config.runMax (s.re.n - s.re.cur) - 1)
    (a := s.re.cur + 1) fun j hj => hr _ (by omega)
  exact ⟨r + 1, v, by unfold measureRun; rw [hv]; dsimp only; rw [hm]⟩

theorem reStep_completes {s : State} (hc : s.re.cur ≤ s.re.n) (hw : s.re.wo ≤ s.re.cur)
    (hr : ∀ a, a < s.re.n → ∃ b, s.readSpace .reSrc a = .ok b) (ho : s.re.n ≤ (s.space .reDst).len) :
    ∃ t, reStep s = .next t := by
  unfold reStep
  split
  · rename_i hlt
    obtain ⟨r, v, hm⟩ := measureRun_completes hlt hr
    obtain ⟨h1, -, hle, -, -⟩ := measure_ok hm hlt
    have hlen := (emitted_length_le r v h1).1
    obtain ⟨u, hu⟩ := State.writeSpace_completes s .reDst s.re.wo (emitted r v) fun _ => by omega
    rw [hm]
    dsimp only [reEmit]
    rw [hu]
    exact ⟨_, rfl⟩
  · rw [if_pos (by omega)]
    exact ⟨_, rfl⟩

/-- Writing one byte inside a space completes. -/
theorem State.writeSpace_byte_completes {s : State} {sp : SpaceId} {a : Nat} (h : a < (s.space sp).len) (b : Byte) :
    ∃ t, s.writeSpace sp a [b] = .ok t :=
  State.writeSpace_completes s sp a [b] fun _ => h

theorem pqHit_completes {s : State} (h : s.pq.i < (s.space .pqIdx).len) (j : Nat) : ∃ t, pqHit j s = .next t := by
  obtain ⟨u, hu⟩ := State.writeSpace_byte_completes h (byteOf j)
  exact ⟨_, by unfold pqHit; rw [hu]⟩

theorem pqAppend_completes {s : State} (h : s.pq.i < (s.space .pqIdx).len) (p : Rgb) :
    ∃ t, pqAppend p s = .next t := by
  obtain ⟨u, hu⟩ := State.writeSpace_byte_completes h (byteOf s.pq.pcount)
  exact ⟨_, by unfold pqAppend; rw [hu]⟩

theorem pqStep_completes {s : State} (hc : s.pq.i ≤ s.pq.n)
    (hr : ∀ a, a < 3 * s.pq.n → ∃ b, s.readSpace .pqPix a = .ok b) (ho : s.pq.n ≤ (s.space .pqIdx).len) :
    ∃ t, pqStep s = .next t := by
  unfold pqStep
  split
  · rename_i hlt
    obtain ⟨x, hx⟩ := hr (3 * s.pq.i) (by omega)
    obtain ⟨y, hy⟩ := hr (3 * s.pq.i + 1) (by omega)
    obtain ⟨z, hz⟩ := hr (3 * s.pq.i + 2) (by omega)
    have hp : readPixel s (3 * s.pq.i) = .ok ⟨x, y, z⟩ := readPixel_ok.mpr ⟨hx, hy, hz⟩
    rw [hp]
    dsimp only
    split
    · exact pqHit_completes (by omega) _
    · split
      · exact pqAppend_completes (by omega) _
      · exact ⟨_, rfl⟩
  · rw [if_pos (by omega)]
    exact ⟨_, rfl⟩

/-- In a state of the invariant every BUSY unit takes its step (10_state R13, 20_memory R44). -/
theorem State.Safe.busyStep_completes {s : State} (hs : s.Safe) {u : UnitId} (hb : s.st u = .busy) :
    ∃ t, busyStep u s = .next t := by
  obtain ⟨hpq, hre, hrd⟩ := State.cursorsOk_iff.mp hs.cursors
  cases u with
  | pq =>
    obtain ⟨hlen, hp⟩ := hs.ready.pq_input hb
    exact pqStep_completes hpq.cursor (fun a ha => Buffer.read_of_placed hp hlen.ge ha) (hs.ready.pq_room hb)
  | re =>
    obtain ⟨hlen, hp⟩ := hs.ready.re_input hb
    exact reStep_completes hre.cursor hre.output
      (fun a ha => Buffer.read_of_placed (State.placed_of_sourceBelow80 hp) hlen ha) (hs.ready.re_room hb)
  | rd =>
    obtain ⟨hlen, hp⟩ := hs.ready.rd_input hb
    exact rdStep_completes hrd.cursor (fun a ha => Buffer.read_of_placed hp hlen ha) (hs.ready.rd_room hb)

/-! ## The block -/

/-- The invariant does not speak of the agenda. -/
theorem State.Safe.withAgenda {s : State} (hs : s.Safe) (l : List Event) : (s.withAgenda l).Safe where
  wf := hs.wf
  cursors := State.cursorsOk_iff.mpr ((State.cursorsOk_iff (s := s)).mp hs.cursors)
  errors := State.errorsOk_iff.mpr ((State.errorsOk_iff (s := s)).mp hs.errors)
  ready :=
    have hr := hs.ready
    ⟨hr.pq_input, hr.pq_room, hr.re_input, hr.re_room, hr.rd_input, hr.rd_room, hr.own, hr.apart⟩

theorem pqStart_not_fault (w h : Nat) (s : State) (f : Fault) : pqStart w h s ≠ .fault f := by
  unfold pqStart
  split
  · nofun
  · split
    · nofun
    · split <;> nofun

theorem reStart_not_fault (n : Nat) (s : State) (f : Fault) : reStart n s ≠ .fault f := by
  unfold reStart
  split
  · nofun
  · split
    · nofun
    · split <;> nofun

theorem rdStart_not_fault (clen olen : Nat) (s : State) (f : Fault) : rdStart clen olen s ≠ .fault f := by
  unfold rdStart
  split
  · nofun
  · split <;> nofun

theorem provide_not_fault (k : StoreId) (len : Nat) (s : State) (f : Fault) : provide k len s ≠ .fault f := by
  unfold provide
  split <;> nofun

theorem place_not_fault (k : StoreId) (pos : Nat) (bytes : List Byte) (s : State) (f : Fault) :
    place k pos bytes s ≠ .fault f := by
  unfold place
  split
  · nofun
  · split <;> nofun

theorem handOver_not_fault (sp : SpaceId) (k : StoreId) (s : State) (f : Fault) : handOver sp k s ≠ .fault f := by
  unfold handOver
  split <;> nofun

/-- An operation of the host is accepted or refused; it never faults (70 R218 to R220). -/
theorem hostStep_not_fault (op : HostOp) (s : State) (f : Fault) : hostStep op s ≠ .fault f := by
  cases op with
  | pqStart w h => exact pqStart_not_fault w h s f
  | reStart n => exact reStart_not_fault n s f
  | rdStart clen olen => exact rdStart_not_fault clen olen s f
  | provide k len => exact provide_not_fault k len s f
  | place k pos bytes => exact place_not_fault k pos bytes s f
  | handOver sp k => exact handOver_not_fault sp k s f
  | resetEvent => nofun

/-- With nothing pending the block takes the step of some BUSY unit, or rests. -/
theorem restStep_eq (s : State) : (∃ u, s.st u = .busy ∧ restStep s = busyStep u s) ∨ restStep s = .next s := by
  unfold restStep
  split
  · rename_i hb
    exact .inl ⟨.rd, hb, rfl⟩
  · split
    · rename_i hb
      exact .inl ⟨.re, hb, rfl⟩
    · split
      · rename_i hb
        exact .inl ⟨.pq, hb, rfl⟩
      · exact .inr rfl

theorem State.Safe.restStep_completes {s : State} (hs : s.Safe) : ∃ t, restStep s = .next t := by
  rcases restStep_eq s with ⟨u, hb, he⟩ | he
  · rw [he]
    exact hs.busyStep_completes hb
  · exact ⟨s, he⟩

theorem State.Safe.unitStep_completes {s : State} (hs : s.Safe) (u : UnitId) : ∃ t, unitStep u s = .next t := by
  unfold unitStep
  split
  · rename_i hb
    exact hs.busyStep_completes hb
  · exact ⟨s, rfl⟩

/-- Settles O43: the units' steps complete in a state of the invariant, and the host's operations never fault. -/
theorem safeStatesNeverFault : Obligations.SafeStatesNeverFault := by
  intro s f hs
  unfold step
  split
  · obtain ⟨t, ht⟩ := hs.restStep_completes
    rw [ht]
    nofun
  · rename_i e rest _
    cases e with
    | unit u =>
      obtain ⟨t, ht⟩ := (hs.withAgenda rest).unitStep_completes u
      dsimp only [eventStep]
      rw [ht]
      nofun
    | host op => exact hostStep_not_fault op _ f

end Sys2Proof.Machine

/-! SUPPORT. The palette invariant of a running PQ call: what it says of the colours handled so far, how PQ's own step
extends it, and that nothing else touches what it speaks of. -/

namespace Sys2Proof.Machine

/-! ## The distinct colours of a list -/

/-- One more pixel adds its colour at the end, if it is new (40 R88). -/
theorem firsts_snoc (cs : List Rgb) (p : Rgb) :
    firsts (cs ++ [p]) = if p ∈ firsts cs then firsts cs else firsts cs ++ [p] := by
  unfold firsts
  rw [List.foldl_append]
  rfl

/-- The distinct colours of a list are the colours in it. -/
theorem mem_firsts {cs : List Rgb} {c : Rgb} : c ∈ firsts cs ↔ c ∈ cs := by
  induction cs using List.reverseRecOn generalizing c with
  | nil => rfl
  | append_singleton cs p ih =>
    rw [firsts_snoc, List.mem_append, List.mem_singleton]
    split
    · rename_i hp
      rw [ih]
      exact ⟨.inl, fun h => h.elim id fun hc => hc ▸ ih.mp hp⟩
    · rw [List.mem_append, List.mem_singleton, ih]

/-- The number of a colour stays what it was when a pixel is added (40 R89). -/
theorem idxOf_firsts_snoc {cs : List Rgb} {c : Rgb} (hc : c ∈ cs) (p : Rgb) :
    (firsts (cs ++ [p])).idxOf c = (firsts cs).idxOf c := by
  rw [firsts_snoc]
  split
  · rfl
  · exact List.idxOf_append_of_mem (mem_firsts.mpr hc)

/-! ## The palette slots -/

theorem PqRegs.palette_length {r : PqRegs} (h : r.pcount ≤ 128) : r.palette.length = r.pcount := by
  simp [PqRegs.palette, h]

/-- The search answers the place of the pixel in the palette (40 R82). -/
theorem search_idxOf {p : Rgb} {r : PqRegs} {j : Nat} (h : search p r = some j) :
    p ∈ r.palette ∧ r.palette.idxOf p = j := by
  obtain ⟨hlt, hj⟩ := List.findIdx?_eq_some_iff_findIdx_eq.mp h
  exact ⟨List.idxOf_lt_length_iff.mp (hj.trans_lt hlt), hj⟩

/-- Filling the next slot adds its colour at the end of the palette (40 R84). -/
theorem PqRegs.palette_append {r : PqRegs} (h : r.pcount < 128) (p : Rgb) (i : Nat) :
    PqRegs.palette { r with pal := r.pal.setIfInBounds r.pcount p, pcount := r.pcount + 1, i := i } =
      r.palette ++ [p] := by
  have hl : r.pal.toList.length = 128 := by simp
  simp only [PqRegs.palette, Vector.toList_setIfInBounds]
  rw [List.take_add_one, List.getElem?_set_self (by omega), List.take_set_of_le (Nat.le_refl _)]
  rfl

/-! ## What a BUSY unit's spaces keep -/

/-- A byte reads the same in two byte arrays of one length when both hold the same value there. -/
theorem Buffer.read_congr {b c : Buffer} {a : Nat} (hl : b.len = c.len) (hm : b.mem.read a = c.mem.read a) :
    b.read a = c.read a := by
  unfold Buffer.read
  rw [hl, hm]

/-- A step of a unit leaves the bytes of every space that is not its write space's storage as they were. -/
theorem UnitFrame.space_bytes {u : UnitId} {s t : State} (f : UnitFrame u s t) {sp : SpaceId}
    (h : s.bind.store sp ≠ s.bind.store u.writeSpace) (a : Nat) :
    (t.space sp).mem.read a = (s.space sp).mem.read a := by
  rw [State.space_eq f.bind]
  exact f.bytes _ a h

theorem UnitFrame.space_len {u : UnitId} {s t : State} (f : UnitFrame u s t) (sp : SpaceId) :
    (t.space sp).len = (s.space sp).len := by
  rw [State.space_eq f.bind]
  exact f.len _

theorem UnitFrame.readSpace_eq {u : UnitId} {s t : State} (f : UnitFrame u s t) {sp : SpaceId}
    (h : s.bind.store sp ≠ s.bind.store u.writeSpace) (a : Nat) : t.readSpace sp a = s.readSpace sp a :=
  Buffer.read_congr (f.space_len sp) (f.space_bytes h a)

/-- The spaces of a BUSY unit are owned (20 R46). -/
theorem State.owned_of_busy {s : State} {sp : SpaceId} (hb : s.st sp.unit = .busy) :
    s.owned (s.bind.store sp) = true := by
  refine owned_iff.mpr ⟨sp.unit, owns_iff.mpr ⟨hb, ?_⟩⟩
  cases sp <;> simp [SpaceId.unit, UnitId.readSpace, UnitId.writeSpace]

/-- No space of a BUSY unit is the write space of another (20 R46, R55). -/
theorem State.CallsReady.space_apart {s : State} (hr : s.CallsReady) {u : UnitId} {sp : SpaceId} (hne : u ≠ sp.unit)
    (hu : s.st u = .busy) (hb : s.st sp.unit = .busy) : s.bind.store sp ≠ s.bind.store u.writeSpace := by
  intro he
  have hown : s.owns sp.unit (s.bind.store u.writeSpace) = true := by
    refine owns_iff.mpr ⟨hb, ?_⟩
    rw [← he]
    cases sp <;> simp [SpaceId.unit, UnitId.readSpace, UnitId.writeSpace]
  have hnot := hr.apart u sp.unit hne hu _ (owns_iff.mpr ⟨hu, .inr rfl⟩)
  rw [hown] at hnot
  cases hnot

/-- The hand-off changes one binding (20 R46). -/
theorem Bindings.setStore_store_of_ne {m : Bindings} {sp c : SpaceId} (h : c ≠ sp) (k : StoreId) :
    (m.setStore sp k).store c = m.store c := by
  revert h
  cases sp <;> cases c <;> simp [Bindings.setStore, Bindings.store]

/-- Whatever the host does short of the reset event, a BUSY unit's spaces stay as they are (20 R46, 70 R216). -/
theorem hostStep_busy_space {op : HostOp} {s t : State} (h : hostStep op s = .next t) (hop : op ≠ .resetEvent)
    {sp : SpaceId} (hb : s.st sp.unit = .busy) : t.space sp = s.space sp := by
  have hown := State.owned_of_busy hb
  cases op with
  | pqStart w h' =>
    obtain ⟨-, -, -, -, -, -, rfl⟩ := pqStart_next h
    rfl
  | reStart n =>
    obtain ⟨-, -, -, -, -, -, rfl⟩ := reStart_next h
    rfl
  | rdStart clen olen =>
    obtain ⟨-, -, -, -, -, -, -, rfl⟩ := rdStart_next h
    rfl
  | provide k len =>
    obtain ⟨hk, rfl⟩ := provide_next h
    rw [State.setBuf_space, if_neg, State.nextCall_space]
    rintro rfl
    exact Bool.false_ne_true (hk.symm.trans hown)
  | place k pos bytes =>
    obtain ⟨hk, -, rfl⟩ := place_next h
    rw [State.setBuf_space, if_neg]
    rintro rfl
    exact Bool.false_ne_true (hk.symm.trans hown)
  | handOver c k =>
    obtain ⟨hc, -, rfl⟩ := handOver_next h
    have hne : sp ≠ c := by
      rintro rfl
      exact hc hb
    exact congrArg s.buf (Bindings.setStore_store_of_ne hne k)
  | resetEvent => exact absurd rfl hop

/-- PQ's registers under an operation of the host. -/
theorem hostStep_pq {op : HostOp} {s t : State} (h : hostStep op s = .next t) :
    (∃ w h, op = .pqStart w h) ∨ op = .resetEvent ∨ t.pq = s.pq := by
  cases op with
  | pqStart w h' => exact .inl ⟨w, h', rfl⟩
  | resetEvent => exact .inr (.inl rfl)
  | reStart n =>
    obtain ⟨-, -, -, -, -, -, rfl⟩ := reStart_next h
    exact .inr (.inr rfl)
  | rdStart clen olen =>
    obtain ⟨-, -, -, -, -, -, -, rfl⟩ := rdStart_next h
    exact .inr (.inr rfl)
  | provide k len =>
    obtain ⟨-, rfl⟩ := provide_next h
    exact .inr (.inr rfl)
  | place k pos bytes =>
    obtain ⟨-, -, rfl⟩ := place_next h
    exact .inr (.inr rfl)
  | handOver sp k =>
    obtain ⟨-, -, rfl⟩ := handOver_next h
    exact .inr (.inr rfl)

/-! ## The palette of the pixels handled so far -/

/-- What `State.PaletteOk` says of a running call whose pixels handled so far are `cs` (10_state R18 (a) to (e)). -/
structure State.PaletteOf (s : State) (cs : List Rgb) : Prop where
  handled : cs.length = s.pq.i
  pixels : ∀ k, k < s.pq.i → s.pixel k = cs[k]?
  palette : s.pq.palette = firsts cs
  indices : ∀ k, (h : k < cs.length) → (s.space .pqIdx).mem.read k = some (byteOf ((firsts cs).idxOf cs[k]))

theorem State.paletteOk_iff {s : State} : s.PaletteOk ↔ (s.pq.st = .busy → ∃ cs, s.PaletteOf cs) := by
  refine forall_congr' fun _ => exists_congr fun cs => ?_
  constructor
  · rintro ⟨h1, h2, h3, h4⟩
    exact ⟨h1, h2, h3, h4⟩
  · rintro ⟨h1, h2, h3, h4⟩
    exact ⟨h1, h2, h3, h4⟩

/-- A pixel is what its three bytes read as. -/
theorem State.pixel_congr {s t : State} (h : ∀ a, t.readSpace .pqPix a = s.readSpace .pqPix a) (k : Nat) :
    t.pixel k = s.pixel k := by
  simp only [State.pixel, readPixel, h]

theorem State.pixel_of_readPixel {s : State} {k : Nat} {p : Rgb} (h : readPixel s (3 * k) = .ok p) :
    s.pixel k = some p := by
  unfold State.pixel
  rw [h]

/-- The invariant speaks of PQ's registers, the pixels and the indices written alone. -/
theorem State.PaletteOf.congr {s t : State} {cs : List Rgb} (h : s.PaletteOf cs) (hpq : t.pq = s.pq)
    (hpix : ∀ a, t.readSpace .pqPix a = s.readSpace .pqPix a)
    (hidx : ∀ a, (t.space .pqIdx).mem.read a = (s.space .pqIdx).mem.read a) : t.PaletteOf cs where
  handled := by rw [hpq, h.handled]
  pixels k hk := by
    rw [hpq] at hk
    rw [State.pixel_congr hpix, h.pixels k hk]
  palette := by rw [hpq, h.palette]
  indices k hk := by rw [hidx, h.indices k hk]

/-- The colour of one more pixel, with its number written at the cursor, extends the invariant (40 R83, R84). -/
theorem State.PaletteOf.snoc {s u : State} {cs : List Rgb} {p : Rgb} {j : Nat} (h : s.PaletteOf cs)
    (hp : s.pixel s.pq.i = some p) (hapart : s.bind.store .pqPix ≠ s.bind.store .pqIdx)
    (hu : s.writeSpace .pqIdx s.pq.i [byteOf j] = .ok u) (hj : (firsts (cs ++ [p])).idxOf p = j)
    {r : PqRegs} (hi : r.i = s.pq.i + 1) (hr : r.palette = firsts (cs ++ [p])) :
    (u.withPq r).PaletteOf (cs ++ [p]) := by
  have f := (State.writeSpace_frame (u := .pq) hu).withPq r
  obtain ⟨e, -, hread, -⟩ := State.writeSpace_ok hu
  have hlen := h.handled
  refine ⟨by simp [hlen, hi], fun k hk => ?_, hr, fun k hk => ?_⟩
  · rw [State.withPq_pq, hi] at hk
    rw [State.pixel_congr (f.readSpace_eq hapart)]
    by_cases hlt : k < s.pq.i
    · rw [h.pixels k hlt, List.getElem?_append_left (by omega)]
    · have hk' : k = s.pq.i := by omega
      rw [hk', hp, ← hlen, List.getElem?_concat_length]
  · rw [List.length_append, List.length_singleton] at hk
    rw [State.withPq_space, State.space_eq e.bind, hread, List.length_singleton]
    by_cases hlt : k < cs.length
    · rw [if_neg (by omega), List.getElem_append_left hlt, idxOf_firsts_snoc (List.getElem_mem hlt)]
      exact h.indices k hlt
    · obtain rfl : k = cs.length := by omega
      rw [if_pos ⟨rfl, by omega, by omega⟩, ← hlen, Nat.sub_self, List.getElem_concat_length rfl, hj]
      rfl

/-- PQ's step keeps the invariant of its own call. -/
theorem pqStep_paletteOk {s t : State} {cs : List Rgb} (hs : s.Safe) (hb : s.pq.st = .busy) (hc : s.PaletteOf cs)
    (h : pqStep s = .next t) : t.PaletteOk := by
  have hapart := hs.ready.own .pq hb
  have hcount : s.pq.pcount ≤ 128 := hs.cursors.pq_palette
  rcases pqStep_next h with ⟨p, j, u, _, hp, hj, hu, rfl⟩ | ⟨p, u, _, hp, hn, hlt, hu, rfl⟩ | ⟨_, _, _, _, _, rfl⟩ |
    ⟨_, rfl⟩
  · obtain ⟨hmem, hidx⟩ := search_idxOf hj
    have hpal := hc.palette
    have hfirsts : firsts (cs ++ [p]) = s.pq.palette := by rw [firsts_snoc, if_pos (hpal ▸ hmem), hpal]
    exact State.paletteOk_iff.mpr fun _ => ⟨cs ++ [p],
      hc.snoc (State.pixel_of_readPixel hp) hapart hu (hfirsts ▸ hidx) rfl hfirsts.symm⟩
  · have hnew : p ∉ s.pq.palette := search_none.mp hn
    have hpal := hc.palette
    have hfirsts : firsts (cs ++ [p]) = s.pq.palette ++ [p] := by rw [firsts_snoc, if_neg (hpal ▸ hnew), hpal]
    have hidx : (firsts (cs ++ [p])).idxOf p = s.pq.pcount := by
      rw [hfirsts, List.idxOf_append_of_notMem hnew, PqRegs.palette_length hcount]
      simp
    exact State.paletteOk_iff.mpr fun _ => ⟨cs ++ [p],
      hc.snoc (State.pixel_of_readPixel hp) hapart hu hidx rfl ((PqRegs.palette_append hlt p _).trans hfirsts.symm)⟩
  · nofun
  · nofun

/-- A step of another BUSY unit keeps the invariant of PQ's call: it writes no storage of PQ (20 R46, R55). -/
theorem busyStep_paletteOk {u : UnitId} {s t : State} (hs : s.Safe) (hp : s.PaletteOk) (hu : s.st u = .busy)
    (h : busyStep u s = .next t) : t.PaletteOk := by
  by_cases hpq : u = .pq
  · subst hpq
    obtain ⟨cs, hc⟩ := State.paletteOk_iff.mp hp hu
    exact pqStep_paletteOk hs hu hc h
  · have f := busyStep_frame h
    refine State.paletteOk_iff.mpr fun hb => ?_
    rw [f.pq hpq] at hb
    obtain ⟨cs, hc⟩ := State.paletteOk_iff.mp hp hb
    exact ⟨cs, hc.congr (f.pq hpq) (f.readSpace_eq (hs.ready.space_apart hpq hu hb))
      (f.space_bytes (hs.ready.space_apart hpq hu hb))⟩

/-- An accepted PQ.START has handled no pixel. -/
theorem pqStart_paletteOk {w h : Nat} {s t : State} (e : pqStart w h s = .next t) : t.PaletteOk := by
  obtain ⟨-, -, -, -, -, -, rfl⟩ := pqStart_next e
  exact State.paletteOk_iff.mpr fun _ => ⟨[], rfl, nofun, rfl, nofun⟩

/-- An operation of the host keeps the invariant of PQ's call: it touches no space of a BUSY PQ (70 R216). -/
theorem hostStep_paletteOk {op : HostOp} {s t : State} (hp : s.PaletteOk) (h : hostStep op s = .next t) :
    t.PaletteOk := by
  by_cases hop : op = .resetEvent
  · subst hop
    cases h
    nofun
  · rcases hostStep_pq h with ⟨w, h', rfl⟩ | hr | hpq
    · exact pqStart_paletteOk h
    · exact absurd hr hop
    · refine State.paletteOk_iff.mpr fun hb => ?_
      rw [hpq] at hb
      obtain ⟨cs, hc⟩ := State.paletteOk_iff.mp hp hb
      have hpix : t.space .pqPix = s.space .pqPix := hostStep_busy_space h hop hb
      have hidx : t.space .pqIdx = s.space .pqIdx := hostStep_busy_space h hop hb
      exact ⟨cs, hc.congr hpq (fun a => congrArg (·.read a) hpix) fun a => by rw [hidx]⟩

/-- The palette invariant does not speak of the agenda. -/
theorem State.PaletteOk.withAgenda {s : State} (hp : s.PaletteOk) (l : List Event) : (s.withAgenda l).PaletteOk := hp

/-- Settles O44: PQ's own steps extend the invariant pixel by pixel, and no other step touches what it speaks of. -/
theorem paletteInvariantKept : Obligations.PaletteInvariantKept := by
  intro s t hs hp h
  rcases step_next h with ⟨u, _, hu, h⟩ | ⟨_, _, rfl⟩ | ⟨u, rest, _, h⟩ | ⟨op, rest, _, h⟩
  · exact busyStep_paletteOk hs hp hu h
  · exact hp
  · rcases unitStep_next h with ⟨hu, h⟩ | ⟨_, rfl⟩
    · exact busyStep_paletteOk (hs.withAgenda rest) (hp.withAgenda rest) hu h
    · exact hp.withAgenda rest
  · exact hostStep_paletteOk (hp.withAgenda rest) h

end Sys2Proof.Machine

/-! SUPPORT. A call of RD from its START to its end, as a walk along the stream: what each step of a running call does,
and that two calls on one stream with equal registers end alike. -/

namespace Sys2Proof

/-- Every token has a byte (30 R66). -/
theorem Instr.bytes_pos (i : Instr) : 0 < i.bytes := by
  cases i <;> simp [Instr.bytes]

namespace Machine

/-! ## Bytes that stand in a space -/

/-- Mapping with a partial function succeeds when every element has an image. -/
theorem mapM_eq_some_iff {α β : Type} {f : α → Option β} {l : List α} {bs : List β} :
    l.mapM f = some bs ↔ l.map f = bs.map some := by
  induction l generalizing bs with
  | nil => cases bs <;> simp
  | cons a l ih =>
    rw [List.mapM_cons]
    cases bs with
    | nil => simp [Option.bind_eq_some_iff]
    | cons b bs => simp [ih, Option.bind_eq_some_iff]

/-- The first bytes of a byte array, byte by byte. -/
theorem Buffer.prefixOf_iff {b : Buffer} {n : Nat} {bs : List Byte} :
    b.prefixOf n = some bs ↔ bs.length = n ∧ ∀ a, (h : a < bs.length) → b.mem.read a = some bs[a] := by
  unfold Buffer.prefixOf
  rw [mapM_eq_some_iff]
  constructor
  · intro h
    have hlen : bs.length = n := by simpa using (congrArg List.length h).symm
    refine ⟨hlen, fun a ha => ?_⟩
    have := congrArg (·[a]?) h
    simpa [ha, show a < n by omega] using this
  · rintro ⟨rfl, h⟩
    refine List.ext_getElem (by simp) fun a h1 h2 => ?_
    rw [List.getElem_map, List.getElem_map, List.getElem_range]
    exact h a (by simpa using h2)

/-- The first bytes of a space, inside it, stand in it. -/
theorem State.holds_of_prefixOf {s : State} {sp : SpaceId} {n : Nat} {bs : List Byte} (hl : n ≤ (s.space sp).len)
    (h : (s.space sp).prefixOf n = some bs) : s.holds sp 0 bs := by
  obtain ⟨hlen, hread⟩ := Buffer.prefixOf_iff.mp h
  intro j hj
  exact (Buffer.read_ok _ _ _).mpr ⟨by omega, by rw [Nat.zero_add]; exact hread j hj⟩

theorem State.holds_drop {s : State} {sp : SpaceId} {a : Nat} {bs : List Byte} (h : s.holds sp a bs) (n : Nat) :
    s.holds sp (a + n) (bs.drop n) := by
  intro j hj
  rw [List.length_drop] at hj
  rw [List.getElem_drop, Nat.add_assoc]
  exact h (n + j) (by omega)

/-- Bytes stand where they stood when the space reads as it did. -/
theorem State.holds_congr {s t : State} {sp : SpaceId} (h : ∀ a, t.readSpace sp a = s.readSpace sp a) {a : Nat}
    {bs : List Byte} (hb : s.holds sp a bs) : t.holds sp a bs :=
  fun j hj => (h _).trans (hb j hj)

/-! ## RD's step by what its stream decodes to -/

/-- When the bytes at the program counter begin with a whole token, RD's step is its meaning (42 R122). -/
theorem rdStep_of_decode {s : State} {bs rest : List Byte} {i : Instr} (hd : decode bs = .ok (i, rest))
    (hb : s.holds .rdSrc s.rd.rd bs) (hl : s.rd.rd + bs.length ≤ s.rd.clen) : rdStep s = exec i s := by
  have hlen := decode_length hd
  have hpos := i.bytes_pos
  unfold rdStep
  rw [if_pos (by omega), fetch_of_decode hd hb hl]

/-- When the stream ends inside its token, RD's step raises MalformedStream (42 R130). -/
theorem rdStep_of_truncated {s : State} {bs : List Byte} {e : DecodeError} (hd : decode bs = .error e)
    (hb : s.holds .rdSrc s.rd.rd bs) (hlt : s.rd.rd < s.rd.clen) (hl : s.rd.rd + bs.length = s.rd.clen) :
    rdStep s = .next (raiseError .rd .malformedStream s.rd.rd s) := by
  unfold rdStep
  rw [if_pos hlt, fetch_of_truncated hd hb hl]

/-- At the end of the stream RD's step completes the call (42 R133). -/
theorem rdStep_of_end {s : State} (h : s.rd.rd = s.rd.clen) : rdStep s = .next (rdComplete s) := by
  unfold rdStep
  rw [if_neg (by omega), if_pos h]

/-- Settles O15: RD's step is the token's meaning, in the state and in the state with the event taken off. -/
theorem stepRunsDecodedToken : Obligations.StepRunsDecodedToken := by
  intro s bs i rest hbusy hd hl hb
  constructor
  · intro ha
    unfold step
    rw [ha]
    dsimp only [restStep]
    rw [if_pos hbusy, rdStep_of_decode hd hb hl]
  · intro ha
    have hbusy' : (s.withAgenda rest).st .rd = .busy := hbusy
    unfold step
    rw [ha]
    dsimp only [eventStep, unitStep]
    rw [if_pos hbusy']
    exact rdStep_of_decode (s := s.withAgenda rest) hd hb hl

/-- A token that completes has the effect of 42 R131, R132. -/
theorem exec_done {i : Instr} {s t : State} (h : exec i s = .next t) : TokenDone i.run i.bytes i.value s t := by
  rw [exec_eq] at h
  obtain ⟨-, -, hbind, -, -, hrd, -, hread, -⟩ := execToken_next h
  refine ⟨hrd, fun a => ?_⟩
  rw [State.space_eq hbind, hread]
  simp only [true_and]
  rfl

/-! ## A running call -/

/-- RD is BUSY on the stream `bs`: what START checked of it holds (42 R121, 70 R212) and the program counter is in it. -/
structure State.Decoding (s : State) (bs : List Byte) : Prop where
  busy : s.rd.st = .busy
  length : s.rd.clen = bs.length
  cursor : s.rd.rd ≤ bs.length
  stream : s.holds .rdSrc 0 bs
  room : s.rd.olen ≤ (s.space .rdDst).len
  apart : s.bind.store .rdSrc ≠ s.bind.store .rdDst

/-- An accepted RD.START begins such a call. -/
theorem rdStart_decoding {s t : State} {clen olen : Nat} {bs : List Byte} (h : rdStart clen olen s = .next t)
    (hbs : (s.space .rdSrc).prefixOf clen = some bs) : t.Decoding bs := by
  obtain ⟨-, -, -, hdisj, hsrc, hdst, -, rfl⟩ := rdStart_next h
  refine ⟨rfl, (Buffer.prefixOf_iff.mp hbs).1.symm, Nat.zero_le _, State.holds_of_prefixOf hsrc hbs, hdst, ?_⟩
  simp only [State.disjointFor, Bool.and_eq_true, bne_iff_ne] at hdisj
  exact hdisj.1.1

/-- The bytes of the stream not yet decoded stand at the program counter. -/
theorem State.Decoding.remaining {s : State} {bs : List Byte} (h : s.Decoding bs) :
    s.holds .rdSrc s.rd.rd (bs.drop s.rd.rd) := by
  have := State.holds_drop h.stream s.rd.rd
  rwa [Nat.zero_add] at this

/-- A step of a running call over a whole token, and the call goes on. -/
theorem State.Decoding.token {s : State} {bs rest : List Byte} {i : Instr} (h : s.Decoding bs)
    (hd : decode (bs.drop s.rd.rd) = .ok (i, rest)) :
    ∃ t, rdStep s = .next t ∧ t.Decoding bs ∧ TokenDone i.run i.bytes i.value s t := by
  have hlen := h.length
  have hcur := h.cursor
  have hbytes := decode_length hd
  rw [List.length_drop] at hbytes
  have hstep := rdStep_of_decode hd h.remaining (by rw [List.length_drop]; omega)
  obtain ⟨t, ht⟩ := execToken_completes i.run i.bytes i.value s h.room
  rw [← exec_eq] at ht
  have f := exec_frame ht
  have hdone := exec_done ht
  have hrd := hdone.1
  exact ⟨t, hstep.trans ht,
    { busy := by rw [hrd, h.busy]
      length := by rw [hrd, hlen]
      cursor := by rw [hrd]; dsimp only; omega
      stream := State.holds_congr (f.readSpace_eq h.apart) h.stream
      room := by rw [hrd, f.space_len]; exact h.room
      apart := by rw [f.bind]; exact h.apart }, hdone⟩

/-- A step of a running call whose stream ends inside its token. -/
theorem State.Decoding.truncated {s : State} {bs : List Byte} {e : DecodeError} (h : s.Decoding bs)
    (hlt : s.rd.rd < bs.length) (hd : decode (bs.drop s.rd.rd) = .error e) :
    rdStep s = .next (raiseError .rd .malformedStream s.rd.rd s) := by
  have hlen := h.length
  exact rdStep_of_truncated hd h.remaining (by omega) (by rw [List.length_drop]; omega)

/-- The last step of a running call whose stream is decoded to its end. -/
theorem State.Decoding.complete {s : State} {bs : List Byte} (h : s.Decoding bs) (he : s.rd.rd = bs.length) :
    rdStep s = .next (rdComplete s) :=
  rdStep_of_end (he.trans h.length.symm)

/-! ## Running a call -/

/-- A call that has ended takes no further step. -/
theorem runUnit_ended {u : UnitId} {s : State} (h : s.st u ≠ .busy) (k : Nat) : runUnit u k s = .next s := by
  cases k with
  | zero => rfl
  | succ k => exact if_neg h

/-- A running call goes on from the state its step answers. -/
theorem runUnit_step {u : UnitId} {s t : State} (hb : s.st u = .busy) (h : busyStep u s = .next t) (k : Nat) :
    runUnit u (k + 1) s = runUnit u k t := by
  rw [runUnit, if_pos hb, h]

/-- A call whose next step is its last. -/
theorem runUnit_last {u : UnitId} {s t : State} (hb : s.st u = .busy) (h : busyStep u s = .next t)
    (ht : t.st u ≠ .busy) (k : Nat) : runUnit u (k + 1) s = .next t := by
  rw [runUnit_step hb h, runUnit_ended ht]

/-! ## Two calls on one stream -/

/-- Two ended calls with one result: equal RD registers, and in every output byte below `olen` the same defined value,
or in both none. -/
def SameDecoderResult (olen : Nat) (f f' : State) : Prop :=
  f.rd = f'.rd ∧ ∀ a, a < olen → (f.space .rdDst).mem.read a = (f'.space .rdDst).mem.read a

/-- Two running calls on one stream that have come equally far: equal RD registers and equal bytes below `RD.wr`. The
bytes a call has not yet written are whatever each state holds there. -/
structure DecodeAlike (bs : List Byte) (s s' : State) : Prop where
  left : s.Decoding bs
  right : s'.Decoding bs
  regs : s.rd = s'.rd
  output : ∀ a, a < s.rd.wr → a < s.rd.olen → (s.space .rdDst).mem.read a = (s'.space .rdDst).mem.read a

/-- A completed call's output: what was written, and no value beyond it (42 R136). -/
theorem rdComplete_output (s : State) (a : Nat) :
    ((rdComplete s).space .rdDst).mem.read a =
      if s.rd.wr ≤ a ∧ a < s.rd.olen then none else (s.space .rdDst).mem.read a := by
  obtain ⟨-, -, -, hbind, -, -, -, hread, -⟩ := rdComplete_spec s
  rw [State.space_eq hbind, hread]
  simp only [true_and]
  rfl

/-- A failed call's output: no value below `RD.olen` (60 R191). -/
theorem raiseError_rd_output (k : ErrKind) (info : Nat) (s : State) {a : Nat} (ha : a < s.rd.olen) :
    ((raiseError .rd k info s).space .rdDst).mem.read a = none := by
  obtain ⟨-, -, -, hbind, -, -, -, hread, -⟩ := raiseError_rd k info s
  rw [State.space_eq hbind, hread, if_pos ⟨rfl, ha⟩]

theorem DecodeAlike.complete {bs : List Byte} {s s' : State} (h : DecodeAlike bs s s') :
    SameDecoderResult s.rd.olen (rdComplete s) (rdComplete s') := by
  refine ⟨by rw [(rdComplete_spec s).1, (rdComplete_spec s').1, h.regs], fun a ha => ?_⟩
  rw [rdComplete_output, rdComplete_output, ← h.regs]
  split
  · rfl
  · exact h.output a (by omega) ha

theorem DecodeAlike.truncated {bs : List Byte} {s s' : State} (h : DecodeAlike bs s s') :
    SameDecoderResult s.rd.olen (raiseError .rd .malformedStream s.rd.rd s)
      (raiseError .rd .malformedStream s'.rd.rd s') := by
  refine ⟨by rw [(raiseError_rd _ _ s).1, (raiseError_rd _ _ s').1, h.regs], fun a ha => ?_⟩
  rw [raiseError_rd_output _ _ s ha, raiseError_rd_output _ _ s' (h.regs ▸ ha)]

/-- The same token in both calls. -/
theorem DecodeAlike.token {bs : List Byte} {s s' t t' : State} {r len : Nat} {v : Byte} (h : DecodeAlike bs s s')
    (ht : t.Decoding bs) (ht' : t'.Decoding bs) (hd : TokenDone r len v s t) (hd' : TokenDone r len v s' t') :
    DecodeAlike bs t t' := by
  obtain ⟨hrd, hout⟩ := hd
  obtain ⟨hrd', hout'⟩ := hd'
  refine ⟨ht, ht', by rw [hrd, hrd', h.regs], fun a ha ho => ?_⟩
  rw [hrd] at ha ho
  rw [hout, hout', ← h.regs]
  split
  · rfl
  · rename_i hin
    exact h.output a (by dsimp only at ha ho; omega) ho

/-- Two calls that have come equally far end alike, within one step for each byte left and one more (42 R139). -/
theorem DecodeAlike.run {bs : List Byte} {s s' : State} (h : DecodeAlike bs s s') {k : Nat}
    (hk : bs.length < s.rd.rd + k) :
    ∃ f f', runUnit .rd k s = .next f ∧ runUnit .rd k s' = .next f' ∧ SameDecoderResult s.rd.olen f f' := by
  induction k generalizing s s' with
  | zero => exact absurd h.left.cursor (by omega)
  | succ k ih =>
    have hbusy : s.st .rd = .busy := h.left.busy
    have hbusy' : s'.st .rd = .busy := h.right.busy
    by_cases hend : s.rd.rd = bs.length
    · have hstep := h.left.complete hend
      have hstep' := h.right.complete (h.regs ▸ hend)
      exact ⟨_, _, runUnit_last hbusy hstep nofun k, runUnit_last hbusy' hstep' nofun k, h.complete⟩
    · cases hd : decode (bs.drop s.rd.rd) with
      | error e =>
        have hlt : s.rd.rd < bs.length := lt_of_le_of_ne h.left.cursor hend
        have hstep := h.left.truncated hlt hd
        have hstep' := h.right.truncated (h.regs ▸ hlt) (h.regs ▸ hd)
        exact ⟨_, _, runUnit_last hbusy hstep nofun k, runUnit_last hbusy' hstep' nofun k, h.truncated⟩
      | ok p =>
        obtain ⟨i, rest⟩ := p
        obtain ⟨t, hstep, ht, hdone⟩ := h.left.token hd
        obtain ⟨t', hstep', ht', hdone'⟩ := h.right.token (h.regs ▸ hd)
        have hrd := hdone.1
        have hpos := i.bytes_pos
        obtain ⟨f, f', hf, hf', hsame⟩ := ih (h.token ht ht' hdone hdone') (by rw [hrd]; dsimp only; omega)
        rw [hrd] at hsame
        exact ⟨f, f', (runUnit_step hbusy hstep k).trans hf, (runUnit_step hbusy' hstep' k).trans hf', hsame⟩

/-- Settles O50: after two STARTs with the same operands and stream the calls have come equally far, so they end
alike. -/
theorem decoderCallStateless : Obligations.DecoderCallStateless := by
  intro s s' t t' clen olen bs h h' hbs hbs'
  have hlen := (Buffer.prefixOf_iff.mp hbs).1
  have hdec := rdStart_decoding h hbs
  have hdec' := rdStart_decoding h' hbs'
  obtain ⟨-, -, -, -, -, -, -, rfl⟩ := rdStart_next h
  obtain ⟨-, -, -, -, -, -, -, rfl⟩ := rdStart_next h'
  obtain ⟨f, f', hf, hf', hrd, hout⟩ :=
    DecodeAlike.run ⟨hdec, hdec', rfl, nofun⟩ (k := clen + 1) (by rw [hlen]; dsimp only [State.withRd_rd]; omega)
  exact ⟨f, f', hf, hf', hrd, hout⟩

end Machine

end Sys2Proof

/-! SUPPORT. The STARTs that are accepted, and what they set. -/

namespace Sys2Proof.Machine

/-- A PQ.START with everything 70 R212 asks for is accepted (40 R81). -/
theorem pqStart_accepted {s : State} {w h : Nat} (hb : s.pq.st ≠ .busy) (hl : w * h ≤ Config.lenMax)
    (hd : s.disjointFor .pq = true) (hpix : (s.space .pqPix).len = 3 * (w * h))
    (hidx : w * h ≤ (s.space .pqIdx).len) (hp : (s.space .pqPix).placed (3 * (w * h)) = true) :
    pqStart w h s = .next (s.nextPqCall.withPq
      { st := .busy, w := latch (s.draws + 1) false w, h := latch (s.draws + 1) true h, n := w * h, i := 0,
        pcount := 0, pal := s.pq.pal, err := .noError, einfo := 0 }) := by
  have hc : startCheck .pq (3 * (w * h)) (w * h) s = none := startCheck_passes hb hd hpix.ge hidx hp
  unfold pqStart
  rw [if_neg (Nat.not_lt.mpr hl), hc]
  exact if_neg (not_not_intro hpix)

/-- An RE.START with everything 70 R212 and 41 R113 ask for is accepted (41 R101). -/
theorem reStart_accepted {s : State} {n : Nat} (hb : s.re.st ≠ .busy) (hl : n ≤ Config.lenMax)
    (hd : s.disjointFor .re = true) (hsrc : n ≤ (s.space .reSrc).len) (hdst : n ≤ (s.space .reDst).len)
    (hp : s.sourceBelow80 n = true) :
    reStart n s = .next (s.nextCall.withRe { st := .busy, n := n, cur := 0, wo := 0, warn := false }) := by
  have hc : startCheck .re n n s = none := startCheck_passes hb hd hsrc hdst (State.placed_of_sourceBelow80 hp)
  unfold reStart
  rw [if_neg (Nat.not_lt.mpr hl), hc]
  exact if_neg (by simp [hp])

/-- An RD.START with everything 70 R212 asks for is accepted (42 R121). -/
theorem rdStart_accepted {s : State} {clen olen : Nat} (hb : s.rd.st ≠ .busy) (hc : clen ≤ Config.lenMax)
    (ho : olen ≤ Config.lenMax) (hd : s.disjointFor .rd = true) (hsrc : clen ≤ (s.space .rdSrc).len)
    (hdst : olen ≤ (s.space .rdDst).len) (hp : (s.space .rdSrc).placed clen = true) :
    rdStart clen olen s = .next (s.nextCall.withRd
      { st := .busy, clen := clen, olen := olen, rd := 0, wr := 0, err := .noError, einfo := 0 }) := by
  have hcheck : startCheck .rd clen olen s = none := startCheck_passes hb hd hsrc hdst hp
  unfold rdStart
  rw [if_neg (not_or.mpr ⟨Nat.not_lt.mpr hc, Nat.not_lt.mpr ho⟩), hcheck]

/-- With no pixel left PQ's step completes the call (40 R86). -/
theorem pqStep_of_end {s : State} (h : s.pq.i = s.pq.n) : pqStep s = .next (pqComplete s) := by
  unfold pqStep
  rw [if_neg (by omega), if_pos h]

/-- Settles O25: the accepted START's registers, the operands by `latch_spec`, and PQ's completion. -/
theorem quantizerStartsAndCompletes : Obligations.QuantizerStartsAndCompletes := by
  refine ⟨fun s w h hb hl hd hpix hidx hp => ?_, fun s h => pqStep_of_end h⟩
  obtain ⟨hwval, hwfit⟩ := latch_spec (s.draws + 1) false w
  obtain ⟨hhval, hhfit⟩ := latch_spec (s.draws + 1) true h
  exact ⟨_, pqStart_accepted hb hl hd hpix hidx hp, rfl, hwval, hhval, hwfit, hhfit, rfl, rfl, rfl, rfl, rfl⟩

/-- Settles O26: the accepted START changes RE's registers and the call counter alone. -/
theorem encoderStarts : Obligations.EncoderStarts := by
  intro s n hb hl hd hsrc hdst hp
  exact ⟨_, reStart_accepted hb hl hd hsrc hdst (State.sourceBelow80_iff.mpr hp),
    rfl, rfl, rfl, rfl, rfl, rfl, rfl, rfl⟩

/-- Settles O27: the accepted START changes RD's registers and the call counter alone. -/
theorem decoderStarts : Obligations.DecoderStarts := by
  intro s clen olen hb hc ho hd hsrc hdst hp
  exact ⟨_, rdStart_accepted hb hc ho hd hsrc hdst hp, rfl, rfl, rfl, rfl, rfl, rfl, rfl, rfl⟩

end Sys2Proof.Machine

/-! SUPPORT. The canonical form of memory: every write, forgetting, placing and providing keeps it, and so every step of
the block does. -/

namespace Sys2Proof.Machine

/-- One byte array replaced by one in canonical form. -/
theorem State.wf.setBuf {s : State} (hs : s.wf) (k : StoreId) {b : Buffer} (hb : b.wf) : (s.setBuf k b).wf := by
  intro j
  rw [State.setBuf_buf]
  split
  · exact hb
  · exact hs j

theorem State.wf.withPq {s : State} (hs : s.wf) (r : PqRegs) : (s.withPq r).wf := hs

theorem State.wf.withRe {s : State} (hs : s.wf) (r : ReRegs) : (s.withRe r).wf := hs

theorem exec_wf {i : Instr} {s t : State} (hs : s.wf) (h : exec i s = .next t) : t.wf := by
  rw [exec_eq] at h
  obtain ⟨-, -, -, -, -, -, -, -, hwf⟩ := execToken_next h
  exact hwf hs

theorem writeSpace_wf {s t : State} {sp : SpaceId} {a : Nat} {bs : List Byte} (hs : s.wf)
    (h : s.writeSpace sp a bs = .ok t) : t.wf := by
  obtain ⟨-, -, -, hwf⟩ := State.writeSpace_ok h
  exact hwf hs

theorem forgetSpace_wf {s : State} (hs : s.wf) (sp : SpaceId) (lo hi : Nat) : (s.forgetSpace sp lo hi).wf := by
  obtain ⟨-, -, hwf⟩ := State.forgetSpace_spec s sp lo hi
  exact hwf hs

theorem rdComplete_wf {s : State} (hs : s.wf) : (rdComplete s).wf := by
  obtain ⟨-, -, -, -, -, -, -, -, hwf⟩ := rdComplete_spec s
  exact hwf hs

/-- A step of a BUSY unit writes or forgets bytes inside its write space, or leaves memory alone. -/
theorem busyStep_wf {u : UnitId} {s t : State} (hs : s.wf) (h : busyStep u s = .next t) : t.wf := by
  cases u with
  | pq =>
    rcases pqStep_next h with ⟨_, _, _, _, _, _, hu, rfl⟩ | ⟨_, _, _, _, _, _, hu, rfl⟩ | ⟨_, _, _, _, _, rfl⟩ |
      ⟨_, rfl⟩
    · exact (writeSpace_wf hs hu).withPq _
    · exact (writeSpace_wf hs hu).withPq _
    · exact forgetSpace_wf hs .pqIdx 0 s.pq.n
    · exact hs
  | re =>
    rcases reStep_next h with ⟨_, _, _, _, _, hu, rfl⟩ | ⟨_, rfl⟩
    · exact (writeSpace_wf hs hu).withRe _
    · exact hs
  | rd =>
    rcases rdStep_next h with ⟨_, _, _, _, _, _, _, he⟩ | ⟨_, _, rfl⟩ | ⟨_, rfl⟩
    · exact exec_wf hs he
    · exact forgetSpace_wf hs .rdDst 0 s.rd.olen
    · exact rdComplete_wf hs

/-- After the reset event no byte array lists a byte (70 R210). -/
theorem resetEvent_buf (s : State) (k : StoreId) :
    (resetEvent s).buf k = { len := (s.buf k).len, mem := [], draw := s.draws + 1, losses := [] } := by
  unfold resetEvent State.buf
  exact Vector.getElem_map _ k.isLt

/-- The host places bytes inside a byte array and provides empty ones; a START changes no byte array. -/
theorem hostStep_wf {op : HostOp} {s t : State} (hs : s.wf) (h : hostStep op s = .next t) : t.wf := by
  cases op with
  | pqStart w h' =>
    obtain ⟨-, -, -, -, -, -, rfl⟩ := pqStart_next h
    exact hs
  | reStart n =>
    obtain ⟨-, -, -, -, -, -, rfl⟩ := reStart_next h
    exact hs
  | rdStart clen olen =>
    obtain ⟨-, -, -, -, -, -, -, rfl⟩ := rdStart_next h
    exact hs
  | provide k len =>
    obtain ⟨-, rfl⟩ := provide_next h
    exact State.wf.setBuf (s := s.nextCall) hs k (Buffer.wf_empty len _)
  | place k pos bytes =>
    obtain ⟨-, hl, rfl⟩ := place_next h
    exact hs.setBuf k (Buffer.wf_splice (s.buf k) pos bytes (hs k) hl)
  | handOver sp k =>
    obtain ⟨-, -, rfl⟩ := handOver_next h
    exact hs
  | resetEvent =>
    cases h
    intro k
    rw [resetEvent_buf]
    exact Buffer.wf_empty _ _

/-- Settles O38: by the induction over steps, each kind of which keeps every byte array in canonical form. -/
theorem memoryFormKept : Obligations.MemoryFormKept :=
  step_induction State.wf (fun _ _ hs => hs) (fun _ _ _ hs _ h => busyStep_wf hs h) fun _ _ _ hs h => hostStep_wf hs h

end Sys2Proof.Machine

/-! SUPPORT. What START checked of a running call: it speaks of the call's lengths and of its two spaces, which no other
unit and no operation of the host touches, so it holds until the call ends. -/

namespace Sys2Proof.Machine

/-! ## What START checks, unit by unit -/

/-- The input and output lengths of a unit's call, as its START gave them (40 R81, 41 R101, 42 R121). -/
def State.callLengths (s : State) : UnitId → Nat × Nat
  | .pq => (s.pq.n, s.pq.n)
  | .re => (s.re.n, s.re.n)
  | .rd => (s.rd.clen, s.rd.olen)

/-- The input of a unit's call is there and placed, RE's below 0x80 (70 R212; 41 R113). -/
def State.InputReady (s : State) : UnitId → Prop
  | .pq => (s.space .pqPix).len = 3 * s.pq.n ∧ (s.space .pqPix).placed (3 * s.pq.n) = true
  | .re => s.re.n ≤ (s.space .reSrc).len ∧ s.sourceBelow80 s.re.n = true
  | .rd => s.rd.clen ≤ (s.space .rdSrc).len ∧ (s.space .rdSrc).placed s.rd.clen = true

/-- A unit's part of `State.CallsReady`, but for the sharing with other units. -/
structure State.CallReady (s : State) (u : UnitId) : Prop where
  input : s.InputReady u
  room : (s.callLengths u).2 ≤ (s.space u.writeSpace).len
  own : s.bind.store u.readSpace ≠ s.bind.store u.writeSpace

/-- The invariant speaks of each BUSY unit on its own, and of no storage being owned twice. -/
theorem State.callsReady_iff {s : State} :
    s.CallsReady ↔ (∀ u, s.st u = .busy → s.CallReady u) ∧ ∀ u v k, s.owns u k = true → s.owns v k = true → u = v := by
  constructor
  · intro h
    refine ⟨fun u hb => ?_, fun u v k hu hv => ?_⟩
    · cases u with
      | pq => exact ⟨h.pq_input hb, h.pq_room hb, h.own .pq hb⟩
      | re => exact ⟨h.re_input hb, h.re_room hb, h.own .re hb⟩
      | rd => exact ⟨h.rd_input hb, h.rd_room hb, h.own .rd hb⟩
    · by_contra hne
      exact Bool.false_ne_true ((h.apart u v hne (owns_iff.mp hu).1 k hu).symm.trans hv)
  · rintro ⟨hready, hapart⟩
    exact {
      pq_input := fun hb => (hready .pq hb).input
      pq_room := fun hb => (hready .pq hb).room
      re_input := fun hb => (hready .re hb).input
      re_room := fun hb => (hready .re hb).room
      rd_input := fun hb => (hready .rd hb).input
      rd_room := fun hb => (hready .rd hb).room
      own := fun u hb => (hready u hb).own
      apart := fun u v hne _ k hu => Bool.eq_false_iff.mpr fun hv => hne (hapart u v k hu hv) }

/-! ## A call that is left alone -/

/-- A unit BUSY in `t` was BUSY in `s` with the same call: its lengths, which byte arrays its spaces are, how long they
are, and the bytes of its read space. -/
structure CallKept (u : UnitId) (s t : State) : Prop where
  busy : s.st u = .busy
  lengths : t.callLengths u = s.callLengths u
  readStore : t.bind.store u.readSpace = s.bind.store u.readSpace
  writeStore : t.bind.store u.writeSpace = s.bind.store u.writeSpace
  readLen : (t.space u.readSpace).len = (s.space u.readSpace).len
  writeLen : (t.space u.writeSpace).len = (s.space u.writeSpace).len
  bytes : ∀ a, (t.space u.readSpace).mem.read a = (s.space u.readSpace).mem.read a

theorem Buffer.placed_congr {b c : Buffer} (h : ∀ a, b.mem.read a = c.mem.read a) (n : Nat) :
    b.placed n = c.placed n := by
  simp only [Buffer.placed, h]

theorem State.sourceBelow80_congr {s t : State}
    (h : ∀ a, (t.space .reSrc).mem.read a = (s.space .reSrc).mem.read a) (n : Nat) :
    t.sourceBelow80 n = s.sourceBelow80 n := by
  simp only [State.sourceBelow80, h]

theorem CallKept.input {u : UnitId} {s t : State} (h : CallKept u s t) (hs : s.InputReady u) : t.InputReady u := by
  have hn := congrArg Prod.fst h.lengths
  have hlen := h.readLen
  have hbytes := h.bytes
  cases u with
  | pq =>
    change t.pq.n = s.pq.n at hn
    exact ⟨hn ▸ hlen.trans hs.1, hn ▸ (Buffer.placed_congr hbytes _).trans hs.2⟩
  | re =>
    change t.re.n = s.re.n at hn
    exact ⟨hn ▸ hs.1.trans_eq hlen.symm, hn ▸ (State.sourceBelow80_congr hbytes _).trans hs.2⟩
  | rd =>
    change t.rd.clen = s.rd.clen at hn
    exact ⟨hn ▸ hs.1.trans_eq hlen.symm, hn ▸ (Buffer.placed_congr hbytes _).trans hs.2⟩

theorem CallKept.ready {u : UnitId} {s t : State} (h : CallKept u s t) (hs : s.CallReady u) : t.CallReady u where
  input := h.input hs.input
  room := by rw [h.lengths, h.writeLen]; exact hs.room
  own := by rw [h.readStore, h.writeStore]; exact hs.own

/-- A unit left alone owns what it owned. -/
theorem CallKept.owns {u : UnitId} {s t : State} {k : StoreId} (h : CallKept u s t) (hk : t.owns u k = true) :
    s.owns u k = true := by
  rw [owns_iff, h.readStore, h.writeStore] at hk
  exact owns_iff.mpr ⟨h.busy, hk.2⟩

/-- The invariant is kept when every unit BUSY after the step is left alone by it. -/
theorem State.CallsReady.kept {s t : State} (hs : s.CallsReady) (h : ∀ u, t.st u = .busy → CallKept u s t) :
    t.CallsReady := by
  obtain ⟨hready, hapart⟩ := State.callsReady_iff.mp hs
  refine State.callsReady_iff.mpr ⟨fun u hb => (h u hb).ready (hready u (h u hb).busy), fun u v k hu hv => ?_⟩
  exact hapart u v k ((h u (owns_iff.mp hu).1).owns hu) ((h v (owns_iff.mp hv).1).owns hv)

/-! ## A step of a unit -/

/-- A step of a unit gives no call other lengths. -/
theorem busyStep_callLengths {u : UnitId} {s t : State} (h : busyStep u s = .next t) (v : UnitId) :
    t.callLengths v = s.callLengths v := by
  have f := busyStep_frame h
  have hpq : t.callLengths .pq = s.callLengths .pq := by
    by_cases hu : u = .pq
    · subst hu
      rcases pqStep_next h with ⟨_, _, _, _, _, _, _, rfl⟩ | ⟨_, _, _, _, _, _, _, rfl⟩ | ⟨_, _, _, _, _, rfl⟩ |
        ⟨_, rfl⟩ <;> rfl
    · simp only [State.callLengths, f.pq hu]
  have hre : t.callLengths .re = s.callLengths .re := by
    by_cases hu : u = .re
    · subst hu
      rcases reStep_next h with ⟨_, _, _, _, _, _, rfl⟩ | ⟨_, rfl⟩ <;> rfl
    · simp only [State.callLengths, f.re hu]
  have hrd : t.callLengths .rd = s.callLengths .rd := by
    by_cases hu : u = .rd
    · subst hu
      rcases rdStep_next h with ⟨_, _, _, _, _, _, _, he⟩ | ⟨_, _, rfl⟩ | ⟨_, rfl⟩
      · simp only [State.callLengths, (exec_done he).1]
      · rfl
      · simp only [State.callLengths, (rdComplete_spec s).1]
    · simp only [State.callLengths, f.rd hu]
  cases v with
  | pq => exact hpq
  | re => exact hre
  | rd => exact hrd

/-- A unit's step changes no other unit's state. -/
theorem UnitFrame.st {u v : UnitId} {s t : State} (f : UnitFrame u s t) (hne : u ≠ v) : t.st v = s.st v := by
  cases v with
  | pq => exact congrArg PqRegs.st (f.pq hne)
  | re => exact congrArg ReRegs.st (f.re hne)
  | rd => exact congrArg RdRegs.st (f.rd hne)

theorem busyStep_busy {u v : UnitId} {s t : State} (hu : s.st u = .busy) (h : busyStep u s = .next t)
    (hv : t.st v = .busy) : s.st v = .busy := by
  by_cases hne : u = v
  · exact hne ▸ hu
  · exact ((busyStep_frame h).st hne).symm.trans hv

/-- The write space of a BUSY unit is the read space of no BUSY unit, its own included (20 R46, R55). -/
theorem State.CallsReady.readSpace_apart {s : State} (hs : s.CallsReady) {u v : UnitId} (hu : s.st u = .busy)
    (hv : s.st v = .busy) : s.bind.store v.readSpace ≠ s.bind.store u.writeSpace := by
  by_cases hne : u = v
  · subst hne
    exact hs.own u hu
  · have hunit : v.readSpace.unit = v := by cases v <;> rfl
    exact hs.space_apart (hunit.symm ▸ hne) hu (hunit.symm ▸ hv)

/-- A step of a BUSY unit leaves every running call alone: its writes reach the read space of none. -/
theorem busyStep_callKept {u v : UnitId} {s t : State} (hs : s.CallsReady) (hu : s.st u = .busy)
    (h : busyStep u s = .next t) (hv : t.st v = .busy) : CallKept v s t :=
  have f := busyStep_frame h
  have hb := busyStep_busy hu h hv
  { busy := hb
    lengths := busyStep_callLengths h v
    readStore := by rw [f.bind]
    writeStore := by rw [f.bind]
    readLen := f.space_len _
    writeLen := f.space_len _
    bytes := f.space_bytes (hs.readSpace_apart hu hb) }

/-! ## An operation of the host -/

/-- A unit's call has the lengths its START gave it, whatever the host does, short of the reset event. -/
theorem hostStep_callLengths {op : HostOp} {s t : State} (h : hostStep op s = .next t) (hop : op ≠ .resetEvent)
    {u : UnitId} (hb : s.st u = .busy) : t.callLengths u = s.callLengths u := by
  cases op with
  | pqStart w h' =>
    obtain ⟨-, hidle, -, -, -, -, rfl⟩ := pqStart_next h
    cases u with
    | pq => exact absurd hb hidle
    | re => rfl
    | rd => rfl
  | reStart n =>
    obtain ⟨-, hidle, -, -, -, -, rfl⟩ := reStart_next h
    cases u with
    | pq => rfl
    | re => exact absurd hb hidle
    | rd => rfl
  | rdStart clen olen =>
    obtain ⟨-, -, hidle, -, -, -, -, rfl⟩ := rdStart_next h
    cases u with
    | pq => rfl
    | re => rfl
    | rd => exact absurd hb hidle
  | provide k len =>
    obtain ⟨-, rfl⟩ := provide_next h
    cases u <;> rfl
  | place k pos bytes =>
    obtain ⟨-, -, rfl⟩ := place_next h
    cases u <;> rfl
  | handOver sp k =>
    obtain ⟨-, -, rfl⟩ := handOver_next h
    cases u <;> rfl
  | resetEvent => exact absurd rfl hop

/-- No operation of the host binds a space of a BUSY unit anew (20 R40, R46). -/
theorem hostStep_busy_store {op : HostOp} {s t : State} (h : hostStep op s = .next t) {sp : SpaceId}
    (hb : s.st sp.unit = .busy) : t.bind.store sp = s.bind.store sp := by
  cases op with
  | pqStart w h' =>
    obtain ⟨-, -, -, -, -, -, rfl⟩ := pqStart_next h
    rfl
  | reStart n =>
    obtain ⟨-, -, -, -, -, -, rfl⟩ := reStart_next h
    rfl
  | rdStart clen olen =>
    obtain ⟨-, -, -, -, -, -, -, rfl⟩ := rdStart_next h
    rfl
  | provide k len =>
    obtain ⟨-, rfl⟩ := provide_next h
    rfl
  | place k pos bytes =>
    obtain ⟨-, -, rfl⟩ := place_next h
    rfl
  | handOver c k =>
    obtain ⟨hc, -, rfl⟩ := handOver_next h
    have hne : sp ≠ c := by
      rintro rfl
      exact hc hb
    exact Bindings.setStore_store_of_ne hne k
  | resetEvent =>
    cases h
    rfl

/-- Short of the reset event the host leaves every running call alone (20 R46, 70 R216, R218). -/
theorem hostStep_callKept {op : HostOp} {s t : State} (h : hostStep op s = .next t) (hop : op ≠ .resetEvent)
    {u : UnitId} (hb : s.st u = .busy) : CallKept u s t := by
  have hr : s.st u.readSpace.unit = .busy := by cases u <;> exact hb
  have hw : s.st u.writeSpace.unit = .busy := by cases u <;> exact hb
  have hread := hostStep_busy_space h hop hr
  have hwrite := hostStep_busy_space h hop hw
  exact {
    busy := hb
    lengths := hostStep_callLengths h hop hb
    readStore := hostStep_busy_store h hr
    writeStore := hostStep_busy_store h hw
    readLen := by rw [hread]
    writeLen := by rw [hwrite]
    bytes := fun a => by rw [hread] }

/-! ## START -/

/-- The unit an operation of the host starts, if it is a START. -/
def HostOp.starts : HostOp → Option UnitId
  | .pqStart _ _ => some .pq
  | .reStart _ => some .re
  | .rdStart _ _ => some .rd
  | _ => none

/-- After the reset event no unit is BUSY (70 R210). -/
theorem resetEvent_not_busy (s : State) (u : UnitId) : (resetEvent s).st u ≠ .busy := by
  cases u <;> nofun

/-- A unit is BUSY after an operation of the host only if it was before, or was started. -/
theorem hostStep_busy {op : HostOp} {s t : State} (h : hostStep op s = .next t) {u : UnitId} (hu : t.st u = .busy) :
    s.st u = .busy ∨ op.starts = some u := by
  cases op with
  | pqStart w h' =>
    obtain ⟨-, -, -, -, -, -, rfl⟩ := pqStart_next h
    cases u with
    | pq => exact .inr rfl
    | re => exact .inl hu
    | rd => exact .inl hu
  | reStart n =>
    obtain ⟨-, -, -, -, -, -, rfl⟩ := reStart_next h
    cases u with
    | pq => exact .inl hu
    | re => exact .inr rfl
    | rd => exact .inl hu
  | rdStart clen olen =>
    obtain ⟨-, -, -, -, -, -, -, rfl⟩ := rdStart_next h
    cases u with
    | pq => exact .inl hu
    | re => exact .inl hu
    | rd => exact .inr rfl
  | provide k len =>
    obtain ⟨-, rfl⟩ := provide_next h
    cases u <;> exact .inl hu
  | place k pos bytes =>
    obtain ⟨-, -, rfl⟩ := place_next h
    cases u <;> exact .inl hu
  | handOver sp k =>
    obtain ⟨-, -, rfl⟩ := handOver_next h
    cases u <;> exact .inl hu
  | resetEvent =>
    cases h
    exact absurd hu (resetEvent_not_busy s u)

/-- What START's check of shared storage says (20 R55). -/
theorem State.disjointFor_iff {s : State} {u : UnitId} :
    s.disjointFor u = true ↔ s.bind.store u.readSpace ≠ s.bind.store u.writeSpace ∧
      s.owned (s.bind.store u.readSpace) = false ∧ s.owned (s.bind.store u.writeSpace) = false := by
  simp [State.disjointFor, and_assoc]

/-- An accepted START leaves the bindings as they are, its unit's spaces shared with no BUSY unit, and all it checked
of the new call in force. -/
theorem hostStep_started {op : HostOp} {s t : State} (h : hostStep op s = .next t) {u : UnitId}
    (hu : op.starts = some u) : t.bind = s.bind ∧ s.disjointFor u = true ∧ t.CallReady u := by
  cases op with
  | pqStart w h' =>
    cases hu
    obtain ⟨-, -, hd, hlen, hroom, hp, rfl⟩ := pqStart_next h
    exact ⟨rfl, hd, ⟨hlen, hp⟩, hroom, (State.disjointFor_iff.mp hd).1⟩
  | reStart n =>
    cases hu
    obtain ⟨-, -, hd, hlen, hroom, hp, rfl⟩ := reStart_next h
    exact ⟨rfl, hd, ⟨hlen, hp⟩, hroom, (State.disjointFor_iff.mp hd).1⟩
  | rdStart clen olen =>
    cases hu
    obtain ⟨-, -, -, hd, hlen, hroom, hp, rfl⟩ := rdStart_next h
    exact ⟨rfl, hd, ⟨hlen, hp⟩, hroom, (State.disjointFor_iff.mp hd).1⟩
  | provide k len => cases hu
  | place k pos bytes => cases hu
  | handOver sp k => cases hu
  | resetEvent => cases hu

/-- What a started unit owns no BUSY unit owned (20 R55, 70 R220). -/
theorem State.not_owns_of_disjointFor {s t : State} {u : UnitId} (hd : s.disjointFor u = true) (hbind : t.bind = s.bind)
    {k : StoreId} (hk : t.owns u k = true) (v : UnitId) : s.owns v k ≠ true := by
  obtain ⟨-, hread, hwrite⟩ := State.disjointFor_iff.mp hd
  obtain ⟨-, hstore⟩ := owns_iff.mp hk
  rw [hbind] at hstore
  have hfree : s.owned k = false := by
    rcases hstore with rfl | rfl
    · exact hread
    · exact hwrite
  exact fun hv => Bool.false_ne_true (hfree.symm.trans (owned_iff.mpr ⟨v, hv⟩))

/-- The invariant is kept when one unit is started and every other BUSY one is left alone. -/
theorem State.CallsReady.started {s t : State} {u : UnitId} (hs : s.CallsReady) (hbind : t.bind = s.bind)
    (hd : s.disjointFor u = true) (hu : t.CallReady u) (h : ∀ v, v ≠ u → t.st v = .busy → CallKept v s t) :
    t.CallsReady := by
  obtain ⟨hready, hapart⟩ := State.callsReady_iff.mp hs
  have howns {v : UnitId} {k : StoreId} (hv : v ≠ u) (hk : t.owns v k = true) : s.owns v k = true :=
    (h v hv (owns_iff.mp hk).1).owns hk
  have hfree {k : StoreId} (hk : t.owns u k = true) (v : UnitId) : s.owns v k ≠ true :=
    State.not_owns_of_disjointFor hd hbind hk v
  refine State.callsReady_iff.mpr ⟨fun v hb => ?_, fun v w k hv hw => ?_⟩
  · by_cases hvu : v = u
    · exact hvu ▸ hu
    · exact (h v hvu hb).ready (hready v (h v hvu hb).busy)
  · by_cases hvu : v = u
    · by_cases hwu : w = u
      · exact hvu.trans hwu.symm
      · exact absurd (howns hwu hw) (hfree (hvu ▸ hv) w)
    · by_cases hwu : w = u
      · exact absurd (howns hvu hv) (hfree (hwu ▸ hw) v)
      · exact hapart v w k (howns hvu hv) (howns hwu hw)

/-! ## The block -/

theorem hostStep_callsReady {op : HostOp} {s t : State} (hs : s.CallsReady) (h : hostStep op s = .next t) :
    t.CallsReady := by
  by_cases hop : op = .resetEvent
  · subst hop
    cases h
    exact hs.kept fun u hu => absurd hu (resetEvent_not_busy s u)
  · have hkept {v : UnitId} (hv : t.st v = .busy) (hnot : op.starts ≠ some v) : CallKept v s t :=
      hostStep_callKept h hop ((hostStep_busy h hv).resolve_right hnot)
    cases hu : op.starts with
    | none => exact hs.kept fun v hv => hkept hv (by rw [hu]; nofun)
    | some u =>
      obtain ⟨hbind, hd, hready⟩ := hostStep_started h hu
      refine hs.started hbind hd hready fun v hne hv => hkept hv fun e => hne ?_
      exact Option.some.inj (e.symm.trans hu)

/-- Taking an event off the agenda leaves every call alone. -/
theorem State.CallsReady.withAgenda {s : State} (hs : s.CallsReady) (l : List Event) :
    (s.withAgenda l).CallsReady :=
  hs.kept fun u hu => ⟨by cases u <;> exact hu, by cases u <;> rfl, rfl, rfl, rfl, rfl, fun _ => rfl⟩

/-- Settles O41: a unit's step and the host leave every running call alone, and a START checks the call it begins. -/
theorem callsReadyKept : Obligations.CallsReadyKept :=
  step_induction State.CallsReady (fun _ l hs => hs.withAgenda l)
    (fun _ _ _ hs hu h => hs.kept fun _ hv => busyStep_callKept hs hu h hv) fun _ _ _ hs h => hostStep_callsReady hs h

end Sys2Proof.Machine

/-! SUPPORT. The round trip of a token's bytes, and of a whole stream's. -/

namespace Sys2Proof

/-- A RUNS tag byte has the value `128 + r` (30 R62). -/
theorem tagByte_toNat {r : Nat} (h : r < 128) : (0x80#8 ||| byteOf r).toNat = 128 + r := by
  rw [tagOr r h, byteOf_toNat]
  omega

/-- Decoding what `encode` gives for a well-formed token gives the token, whatever follows (30 R72). -/
theorem decode_encode {i : Instr} (h : i.wellFormed = true) (rest : List Byte) :
    decode (encode i ++ rest) = .ok (i, rest) := by
  cases i with
  | lit v =>
    simp only [Instr.wellFormed, decide_eq_true_eq] at h
    exact if_pos h
  | runs r v =>
    simp only [Instr.wellFormed, Bool.and_eq_true, decide_eq_true_eq] at h
    obtain ⟨hr, h2⟩ := h
    have htag := tagByte_toNat (r := r) (by omega)
    have hlit : ¬ (0x80#8 ||| byteOf r).toNat < 0x80 := by omega
    have hext : 0x80#8 ||| byteOf r ≠ 0x81#8 := fun e => by
      simp only [e, BitVec.toNat_ofNat] at htag
      omega
    have hlong : ¬ (0x80#8 ||| byteOf r = 0x82#8 ∧ 0x80 ≤ v.toNat) := fun ⟨e, hv⟩ => by
      simp only [e, BitVec.toNat_ofNat] at htag
      have := h2 (by omega)
      omega
    simp only [encode, List.cons_append, List.nil_append, decode, if_neg hlit, if_neg hext, if_neg hlong]
    rw [htag, Nat.add_sub_cancel_left]
  | runx r v =>
    simp only [Instr.wellFormed, decide_eq_true_eq] at h
    have hr : (byteOf r).toNat = r := by rw [byteOf_toNat]; omega
    simp [encode, decode, hr]
  | runl r v =>
    simp only [Instr.wellFormed, decide_eq_true_eq] at h
    have hr := tagByte_toNat (r := r - 256) (by omega)
    simp [encode, decode, hr, Nat.sub_add_cancel h.1]

theorem encode_ne_nil (i : Instr) : encode i ≠ [] := by
  cases i <;> simp [encode]

/-- One token at the head of a stream that decodes further on (42 R137). -/
theorem decodeStream_cons {i : Instr} {bs rest : List Byte} (hd : decode bs = .ok (i, rest)) (fuel p : Nat) :
    decodeStream (fuel + 1) p bs = (decodeStream fuel (p + (encode i).length) rest).map (i :: ·) := by
  cases bs with
  | nil => cases hd
  | cons b t =>
    rw [decodeStream, hd]
    dsimp only
    cases decodeStream fuel (p + (encode i).length) rest <;> rfl

/-- Settles O3: token by token, each decoded from its own bytes. -/
theorem streamParsesToItsTokens : Obligations.StreamParsesToItsTokens := by
  intro is
  induction is with
  | nil => intro fuel p _ _; cases fuel <;> rfl
  | cons i is ih =>
    intro fuel p hwf hfuel
    have hbytes : encodeStream (i :: is) = encode i ++ encodeStream is := rfl
    have hpos : 0 < (encode i).length := List.length_pos_iff.mpr (encode_ne_nil i)
    rw [hbytes, List.length_append] at hfuel
    obtain ⟨fuel, rfl⟩ : ∃ n, fuel = n + 1 := ⟨fuel - 1, by omega⟩
    have hhead := decode_encode (hwf i List.mem_cons_self) (encodeStream is)
    rw [hbytes, decodeStream_cons hhead, ih fuel _ (fun j hj => hwf j (List.mem_cons_of_mem i hj)) (by omega)]
    rfl

end Sys2Proof

/-! SUPPORT. The host's access to the byte arrays: refused while a BUSY unit owns the array, completed else, and a read
depends on nothing but the array's own bytes and free values. -/

namespace Sys2Proof.Machine

/-! ## An owned byte array -/

theorem hostByte_refused {s : State} {sp : SpaceId} (h : s.owned (s.bind.store sp) = true) (a : Nat) :
    hostByte s sp a = .refused .busySpaceTouched := if_pos h

theorem place_refused {s : State} {k : StoreId} (h : s.owned k = true) (pos : Nat) (bytes : List Byte) :
    place k pos bytes s = .refused .busySpaceTouched := if_pos h

theorem provide_refused {s : State} {k : StoreId} (h : s.owned k = true) (len : Nat) :
    provide k len s = .refused .busySpaceTouched := if_pos h

theorem handOver_refused {s : State} {sp : SpaceId} {k : StoreId} (h : s.st sp.unit = .busy ∨ s.owned k = true) :
    handOver sp k s = .refused .busySpaceTouched := if_pos h

/-- Settles O29: a BUSY unit owns both its spaces, and each access is refused on an owned one. -/
theorem busySpacesUntouchable : Obligations.BusySpacesUntouchable := by
  rintro s _ hb sp rfl
  have hown := State.owned_of_busy hb
  exact ⟨hostByte_refused hown, place_refused hown, provide_refused hown, fun _ => handOver_refused (.inl hb),
    fun _ => handOver_refused (.inr hown)⟩

/-! ## A byte array no BUSY unit owns -/

theorem place_accepted {s : State} {k : StoreId} (hk : s.owned k = false) {pos : Nat} {bytes : List Byte}
    (hl : pos + bytes.length ≤ (s.buf k).len) :
    place k pos bytes s = .next (s.setBuf k { s.buf k with mem := Memory.splice pos bytes (s.buf k).mem }) := by
  unfold place
  rw [if_neg (Bool.eq_false_iff.mp hk), if_pos hl]

theorem provide_accepted {s : State} {k : StoreId} (hk : s.owned k = false) (len : Nat) :
    provide k len s = .next (s.nextCall.setBuf k { len := len, mem := [], draw := s.draws + 1, losses := [] }) :=
  if_neg (Bool.eq_false_iff.mp hk)

theorem handOver_accepted {s : State} {sp : SpaceId} {k : StoreId} (hb : s.st sp.unit ≠ .busy)
    (hk : s.owned k = false) : handOver sp k s = .next { s with bind := s.bind.setStore sp k } :=
  if_neg (not_or.mpr ⟨hb, Bool.eq_false_iff.mp hk⟩)

/-- A byte that holds a defined value is what the host reads (20 R48, 70 R213). -/
theorem hostByte_of_readSpace {s : State} {sp : SpaceId} {a : Nat} {v : Byte}
    (hk : s.owned (s.bind.store sp) = false) (hv : s.readSpace sp a = .ok v) : hostByte s sp a = .next v := by
  unfold hostByte
  rw [if_neg (Bool.eq_false_iff.mp hk), hv]

/-- Placing changes the contents of the one byte array, at the indices placed. -/
theorem place_buf (s : State) (k j : StoreId) (pos : Nat) (bytes : List Byte) :
    let t := s.setBuf k { s.buf k with mem := Memory.splice pos bytes (s.buf k).mem }
    (t.buf j).len = (s.buf j).len ∧ (∀ a, (t.buf j).drawOf a = (s.buf j).drawOf a) ∧
      ∀ a, (t.buf j).mem.read a =
        if j = k ∧ pos ≤ a ∧ a < pos + bytes.length then bytes[a - pos]? else (s.buf j).mem.read a := by
  dsimp only
  rw [State.setBuf_buf]
  by_cases hj : k = j
  · subst hj
    rw [if_pos rfl]
    exact ⟨rfl, fun _ => rfl, fun a => by simp only [Memory.read_splice, true_and]⟩
  · rw [if_neg hj]
    exact ⟨rfl, fun _ => rfl, fun a => (if_neg fun h => hj h.1.symm).symm⟩

/-- Settles O30: on an unowned byte array each access is accepted, and what it leaves is read off the array. -/
theorem hostAccessCompletes : Obligations.HostAccessCompletes := by
  intro s k hk
  refine ⟨fun pos bytes hl => ?_, fun len => ?_, ?_⟩
  · have hbuf := place_buf s k (pos := pos) (bytes := bytes)
    exact ⟨_, place_accepted hk hl, rfl, rfl, rfl, rfl, rfl, rfl, rfl, fun j => (hbuf j).1, fun j => (hbuf j).2.2⟩
  · refine ⟨_, provide_accepted hk len, rfl, rfl, rfl, rfl, rfl, rfl, ?_, fun a => ?_, fun j hj => ?_⟩
    · rw [State.setBuf_buf, if_pos rfl]
    · rw [State.setBuf_buf, if_pos rfl, Memory.read_nil]
    · rw [State.setBuf_buf, if_neg (Ne.symm hj), State.nextCall_buf]
  · rintro sp a v rfl hl hv
    exact hostByte_of_readSpace hk ((Buffer.read_ok _ a v).mpr ⟨hl, hv⟩)

/-! ## The hand-off -/

@[simp] theorem Bindings.setStore_store_self (m : Bindings) (sp : SpaceId) (k : StoreId) :
    (m.setStore sp k).store sp = k := by
  cases sp <;> rfl

/-- Settles O32: the hand-off is accepted and changes the one binding. -/
theorem handOffSharesStorage : Obligations.HandOffSharesStorage := by
  intro s a b hb hk
  refine ⟨_, handOver_accepted hb hk, ?_, fun c hc => ?_, rfl, rfl, rfl, rfl⟩
  · exact congrArg s.buf (Bindings.setStore_store_self s.bind a (s.bind.store b))
  · exact congrArg s.buf (Bindings.setStore_store_of_ne hc _)

/-! ## Reading twice -/

/-- The host's read depends on whether the space's byte array is owned, on which array it is, and on that array's byte
and free value at the index. -/
theorem hostByte_congr {s t : State} {c d : SpaceId} {a : Nat} (hstore : t.bind.store d = s.bind.store c)
    (hown : t.owned (s.bind.store c) = s.owned (s.bind.store c)) (hread : t.readSpace d a = s.readSpace c a)
    (hdraw : (t.space d).drawOf a = (s.space c).drawOf a) : hostByte t d a = hostByte s c a := by
  unfold hostByte
  rw [hstore, hown, hread, hdraw]

/-- The host's read of a byte array that is as it was. -/
theorem hostByte_of_space {s t : State} {c d : SpaceId} (hstore : t.bind.store d = s.bind.store c)
    (hown : t.owned (s.bind.store c) = s.owned (s.bind.store c)) (hspace : t.space d = s.space c) (a : Nat) :
    hostByte t d a = hostByte s c a :=
  hostByte_congr hstore hown (congrArg (·.read a) hspace) (congrArg (·.drawOf a) hspace)

/-- A byte array unowned in `t` is unowned in `s`, when every unit BUSY in `s` is BUSY in `t` with the same spaces. -/
theorem State.unowned_of_busy_imp {s t : State} {k : StoreId} (hbind : t.bind = s.bind)
    (hbusy : ∀ u, s.st u = .busy → t.st u = .busy) (hk : t.owned k = false) : s.owned k = false := by
  rw [Bool.eq_false_iff, Ne, owned_iff] at hk ⊢
  rintro ⟨u, hu⟩
  obtain ⟨hb, hstore⟩ := owns_iff.mp hu
  exact hk ⟨u, owns_iff.mpr ⟨hbusy u hb, by rwa [hbind]⟩⟩

/-- A step of a BUSY unit leaves every byte array but its write space's as it was, its free values too. -/
theorem busyStep_buf {u : UnitId} {s t : State} (h : busyStep u s = .next t) {k : StoreId}
    (hk : k ≠ s.bind.store u.writeSpace) : t.buf k = s.buf k := by
  cases u with
  | pq =>
    rcases pqStep_next h with ⟨_, _, u, _, _, _, hu, rfl⟩ | ⟨_, u, _, _, _, _, hu, rfl⟩ | ⟨_, _, _, _, _, rfl⟩ |
      ⟨_, rfl⟩
    · exact (State.writeSpace_buf hu).1 k hk
    · exact (State.writeSpace_buf hu).1 k hk
    · exact State.forgetSpace_buf s .pqIdx _ _ k hk
    · rfl
  | re =>
    rcases reStep_next h with ⟨_, _, u, _, _, hu, rfl⟩ | ⟨_, rfl⟩
    · exact (State.writeSpace_buf hu).1 k hk
    · rfl
  | rd =>
    rcases rdStep_next h with ⟨i, _, _, _, _, _, _, he⟩ | ⟨_, _, rfl⟩ | ⟨_, rfl⟩
    · rw [exec_eq] at he
      obtain ⟨u, hu, rfl⟩ := execToken_fill he
      exact (State.writeSpace_buf hu).1 k hk
    · exact State.forgetSpace_buf s .rdDst _ _ k hk
    · unfold rdComplete
      split
      · exact State.forgetSpace_buf s .rdDst _ _ k hk
      · rfl

/-- A step of a unit changes nothing the host reads of an unowned byte array. -/
theorem unitStep_hostByte {u : UnitId} {s t : State} {c : SpaceId} (h : unitStep u s = .next t)
    (hk : s.owned (s.bind.store c) = false) (a : Nat) : hostByte t c a = hostByte s c a := by
  rcases unitStep_next h with ⟨hu, h⟩ | ⟨_, rfl⟩
  · have f := busyStep_frame h
    have hne : s.bind.store c ≠ s.bind.store u.writeSpace := fun e =>
      Bool.false_ne_true (hk.symm.trans (owned_iff.mpr ⟨u, owns_iff.mpr ⟨hu, .inr e.symm⟩⟩))
    have hown : t.owned (s.bind.store c) = false :=
      State.unowned_of_busy_imp f.bind.symm (fun v hv => busyStep_busy hu h hv) hk
    exact hostByte_of_space (by rw [f.bind]) (hown.trans hk.symm)
      ((State.space_eq f.bind c).trans (busyStep_buf h hne)) a
  · rfl

/-- A START changes nothing the host reads of a byte array it leaves unowned. -/
theorem started_hostByte {s t : State} {c : SpaceId} (hk : t.owned (t.bind.store c) = false) (hbind : t.bind = s.bind)
    (hbufs : t.bufs = s.bufs) (hbusy : ∀ u, s.st u = .busy → t.st u = .busy) (a : Nat) :
    hostByte t c a = hostByte s c a := by
  rw [hbind] at hk
  have hown := State.unowned_of_busy_imp hbind hbusy hk
  have hbuf : t.buf (s.bind.store c) = s.buf (s.bind.store c) := by unfold State.buf; rw [hbufs]
  exact hostByte_of_space (by rw [hbind]) (hk.trans hown.symm) ((State.space_eq hbind c).trans hbuf) a

/-- A hand-off makes no BUSY unit own another byte array. -/
theorem State.owned_setStore {s : State} {sp : SpaceId} (hb : s.st sp.unit ≠ .busy) (k j : StoreId) :
    State.owned { s with bind := s.bind.setStore sp k } j = s.owned j := by
  rw [Bool.eq_iff_iff, owned_iff, owned_iff]
  refine exists_congr fun u => ?_
  rw [owns_iff, owns_iff]
  refine and_congr_right fun hu => ?_
  have hr : u.readSpace ≠ sp := by
    rintro rfl
    cases u <;> exact hb hu
  have hw : u.writeSpace ≠ sp := by
    rintro rfl
    cases u <;> exact hb hu
  rw [Bindings.setStore_store_of_ne hr, Bindings.setStore_store_of_ne hw]

/-- A hand-off of another space changes nothing the host reads of a space. -/
theorem handOver_hostByte {sp c : SpaceId} {k : StoreId} {s t : State} (h : handOver sp k s = .next t) (hc : c ≠ sp)
    (a : Nat) : hostByte t c a = hostByte s c a := by
  obtain ⟨hb, -, rfl⟩ := handOver_next h
  have hstore : (s.bind.setStore sp k).store c = s.bind.store c := Bindings.setStore_store_of_ne hc k
  exact hostByte_of_space hstore (State.owned_setStore hb k _) (congrArg s.buf hstore) a

/-- Placing bytes changes nothing the host reads at other indices or of other byte arrays. -/
theorem place_hostByte {k : StoreId} {pos : Nat} {bytes : List Byte} {s t : State} (h : place k pos bytes s = .next t)
    {c : SpaceId} {a : Nat} (hout : ¬ (s.bind.store c = k ∧ pos ≤ a ∧ a < pos + bytes.length)) :
    hostByte t c a = hostByte s c a := by
  obtain ⟨-, -, rfl⟩ := place_next h
  obtain ⟨hlen, hdraw, hread⟩ := place_buf s k (s.bind.store c) pos bytes
  exact hostByte_congr rfl rfl (Buffer.read_congr hlen ((hread a).trans (if_neg hout))) (hdraw a)

/-- Settles O31: the read depends on the byte array alone, and each of these operations leaves it as it was. -/
theorem readingTwiceGivesSameByte : Obligations.ReadingTwiceGivesSameByte := by
  refine ⟨fun s c d a hstore => ?_, fun u s t c a h hk => unitStep_hostByte h hk a, ?_,
    fun s t sp c k a h hc => handOver_hostByte h hc a, fun s t k pos bytes c a h hout => place_hostByte h hout⟩
  · exact hostByte_of_space hstore rfl (congrArg s.buf hstore) a
  · rintro s t w h n clen olen c a (e | e | e) hk
    · obtain ⟨-, -, -, -, -, -, rfl⟩ := pqStart_next e
      exact started_hostByte (s := s) hk rfl rfl (fun | .pq, _ => rfl | .re, hu => hu | .rd, hu => hu) a
    · obtain ⟨-, -, -, -, -, -, rfl⟩ := reStart_next e
      exact started_hostByte (s := s) hk rfl rfl (fun | .pq, hu => hu | .re, _ => rfl | .rd, hu => hu) a
    · obtain ⟨-, -, -, -, -, -, -, rfl⟩ := rdStart_next e
      exact started_hostByte (s := s) hk rfl rfl (fun | .pq, hu => hu | .re, hu => hu | .rd, _ => rfl) a

end Sys2Proof.Machine

/-! SUPPORT. The decoder against the encoder in both directions, and its dispatch on the first bytes. -/

namespace Sys2Proof

/-- Settles O1: `decode_encode`, token kind by token kind. -/
theorem encodeThenDecode : Obligations.EncodeThenDecode :=
  fun _ rest h => decode_encode h rest

/-- The bytes under each token the decoder can answer (30 R65): `decode_cons` for the strings that decode. -/
theorem decode_ok {bs rest : List Byte} {i : Instr} (h : decode bs = .ok (i, rest)) :
    (∃ v, v.toNat < 0x80 ∧ bs = v :: rest ∧ i = .lit v) ∨
    (∃ b0 v, 0x80 ≤ b0.toNat ∧ b0 ≠ 0x81#8 ∧ ¬ (b0 = 0x82#8 ∧ 0x80 ≤ v.toNat) ∧ bs = b0 :: v :: rest ∧
      i = .runs (b0.toNat - 0x80) v) ∨
    (∃ b1 v, bs = 0x81#8 :: b1 :: v :: rest ∧ i = .runx b1.toNat v) ∨
    (∃ b1 v, 0x80 ≤ b1.toNat ∧ bs = 0x82#8 :: b1 :: v :: rest ∧ i = .runl (b1.toNat - 0x80 + 256) v) := by
  cases bs with
  | nil => cases h
  | cons b0 t =>
    rcases decode_cons b0 t with ⟨hlit, e⟩ | ⟨-, -, e⟩ | ⟨-, -, -, e⟩ | ⟨b1, v, u, rfl, rfl, e⟩ | ⟨-, -, -, -, e⟩ |
      ⟨b1, v, u, rfl, hlong, rfl, e⟩ | ⟨v, u, htag, hext, hlong, rfl, e⟩ <;> rw [e] at h <;> cases h
    · exact .inl ⟨b0, hlit, rfl, rfl⟩
    · exact .inr (.inr (.inl ⟨b1, v, rfl, rfl⟩))
    · exact .inr (.inr (.inr ⟨b1, v, hlong, rfl, rfl⟩))
    · exact .inr (.inl ⟨b0, v, htag, hext, hlong, rfl, rfl⟩)

/-- The decoder answers well-formed tokens only (30 R72). -/
theorem decode_wellFormed {bs rest : List Byte} {i : Instr} (h : decode bs = .ok (i, rest)) :
    i.wellFormed = true := by
  rcases decode_ok h with ⟨v, hv, -, rfl⟩ | ⟨b0, v, htag, hext, hlong, -, rfl⟩ | ⟨b1, v, -, rfl⟩ |
    ⟨b1, v, hb1, -, rfl⟩
  · exact decide_eq_true hv
  · have hlt := b0.isLt
    have hext' : b0.toNat ≠ 0x81 := fun e => hext (BitVec.eq_of_toNat_eq e)
    have hlong' (e : b0.toNat - 0x80 = 2) : v.toNat < 0x80 :=
      Nat.lt_of_not_le fun hv => hlong ⟨BitVec.eq_of_toNat_eq (by simp only [BitVec.toNat_ofNat]; omega), hv⟩
    simp only [Instr.wellFormed, Bool.and_eq_true, decide_eq_true_eq]
    exact ⟨by omega, hlong'⟩
  · have := b1.isLt
    simp only [Instr.wellFormed, decide_eq_true_eq]
    omega
  · have := b1.isLt
    simp only [Instr.wellFormed, decide_eq_true_eq]
    omega

/-- Encoding a decoded token gives back the bytes it was read from (30 R65, R72). -/
theorem encode_of_decode {bs rest : List Byte} {i : Instr} (h : decode bs = .ok (i, rest)) :
    encode i ++ rest = bs := by
  rcases decode_ok h with ⟨v, -, rfl, rfl⟩ | ⟨b0, v, htag, -, -, rfl, rfl⟩ | ⟨b1, v, rfl, rfl⟩ |
    ⟨b1, v, hb1, rfl, rfl⟩
  · rfl
  · simp only [encode, tagOr_sub b0 htag, List.cons_append, List.nil_append]
  · simp only [encode, byteOf_of_toNat, List.cons_append, List.nil_append]
  · simp only [encode, Nat.add_sub_cancel, tagOr_sub b1 hb1, List.cons_append, List.nil_append]

/-- The shape of a well-formed token's bytes, for every kind of token. -/
theorem tokenShape (i : Instr) : Laws.TokenShape.Statement i := by
  cases i with
  | lit v => exact Laws.TokenShape.lit v
  | runs r v => exact Laws.TokenShape.runs r v
  | runx r v => exact Laws.TokenShape.runx r v
  | runl r v => exact Laws.TokenShape.runl r v

/-- Settles O2: the token is well formed, so its bytes, which are the ones read, are as many as its length. -/
theorem decodeThenEncode : Obligations.DecodeThenEncode := by
  intro bs i rest h
  have hwf := decode_wellFormed h
  obtain ⟨hlen, -⟩ := tokenShape i hwf
  exact ⟨hwf, encode_of_decode h, hlen⟩

/-- A byte string that is a well-formed token's bytes followed by more decodes to that token. -/
theorem decode_of_encode_eq {i : Instr} {bs rest : List Byte} (h : i.wellFormed = true) (e : encode i ++ rest = bs) :
    decode bs = .ok (i, rest) :=
  e ▸ decode_encode h rest

/-- Settles O5: in each range of the table of 30 R65 the bytes are those of the well-formed token it names. -/
theorem dispatchByFirstBytes : Obligations.DispatchByFirstBytes := by
  refine ⟨fun b0 rest h => ?_, fun b1 rest => ?_, fun b1 b2 rest => ?_, fun b1 rest h => ?_, fun b1 b2 rest h => ?_,
    fun b0 b1 rest h => ?_⟩
  · exact decode_of_encode_eq (decide_eq_true h) rfl
  · exact decode_of_encode_eq (i := .runs 0 b1) rfl rfl
  · have hb1 := b1.isLt
    refine decode_of_encode_eq (decide_eq_true (by omega)) ?_
    simp only [encode, byteOf_of_toNat, List.cons_append, List.nil_append]
  · exact decode_of_encode_eq (i := .runs 2 b1) (decide_eq_true fun _ => h) rfl
  · have hb1 := b1.isLt
    have hlow : 256 + b1.toNat % 128 - 256 = b1.toNat - 0x80 := by omega
    refine decode_of_encode_eq (decide_eq_true (by omega)) ?_
    simp only [encode, hlow, tagOr_sub b1 h, List.cons_append, List.nil_append]
  · have hb0 := b0.isLt
    refine decode_of_encode_eq ?_ ?_
    · simp only [Instr.wellFormed, Bool.and_eq_true, decide_eq_true_eq]
      omega
    · simp only [encode, tagOr_sub b0 (by omega), List.cons_append, List.nil_append]

/-- Settles O6: the six words are evaluated. -/
theorem writtenWordsDecode : Obligations.WrittenWordsDecode := by
  unfold Obligations.WrittenWordsDecode
  decide

end Sys2Proof

/-! SUPPORT. The bytes RE emits as tokens, and its greedy runs: which lists of runs RE cuts a string into, and that the
canonical streams are the streams it produces. -/

namespace Sys2Proof

/-! ## The token of a run -/

/-- Which token stands for a run, by its length (30 R73). -/
theorem runToken_cases (r : Nat) (v : Byte) :
    (r ≤ 1 ∧ runToken r v = .lit v) ∨ (2 ≤ r ∧ r ≤ 127 ∧ runToken r v = .runs r v) ∨
    (128 ≤ r ∧ r ≤ 255 ∧ runToken r v = .runx r v) ∨ (256 ≤ r ∧ runToken r v = .runl r v) := by
  by_cases h1 : r ≤ 1
  · exact .inl ⟨h1, if_pos h1⟩
  · by_cases h127 : r ≤ 127
    · exact .inr (.inl ⟨by omega, h127, (if_neg h1).trans (if_pos h127)⟩)
    · by_cases h255 : r ≤ 255
      · exact .inr (.inr (.inl ⟨by omega, h255, (if_neg h1).trans ((if_neg h127).trans (if_pos h255))⟩))
      · exact .inr (.inr (.inr ⟨by omega, (if_neg h1).trans ((if_neg h127).trans (if_neg h255))⟩))

@[simp] theorem runToken_value (r : Nat) (v : Byte) : (runToken r v).value = v := by
  rcases runToken_cases r v with ⟨-, e⟩ | ⟨-, -, e⟩ | ⟨-, -, e⟩ | ⟨-, e⟩ <;> rw [e] <;> rfl

theorem runToken_run {r : Nat} (v : Byte) (h : 1 ≤ r) : (runToken r v).run = r := by
  rcases runToken_cases r v with ⟨hr, e⟩ | ⟨-, -, e⟩ | ⟨-, -, e⟩ | ⟨-, e⟩ <;> rw [e]
  · exact Nat.le_antisymm h hr
  · rfl
  · rfl
  · rfl

theorem runToken_wellFormed {r : Nat} {v : Byte} (hr : r ≤ 383) (hv : v.toNat < 0x80) :
    (runToken r v).wellFormed = true := by
  rcases runToken_cases r v with ⟨-, e⟩ | ⟨h2, h127, e⟩ | ⟨-, h255, e⟩ | ⟨h256, e⟩ <;> rw [e]
  · exact decide_eq_true hv
  · simp only [Instr.wellFormed, Bool.and_eq_true, decide_eq_true_eq]
    exact ⟨.inr ⟨h2, h127⟩, fun _ => hv⟩
  · exact decide_eq_true h255
  · exact decide_eq_true ⟨h256, hr⟩

namespace Machine

/-- RE emits the bytes of the run's token (30 R73, 41 R104 to R107). -/
theorem emitted_eq_encode (r : Nat) (v : Byte) : emitted r v = encode (runToken r v) := by
  unfold emitted
  rcases runToken_cases r v with ⟨hr, e⟩ | ⟨hlo, hhi, e⟩ | ⟨hlo, hhi, e⟩ | ⟨hlo, e⟩ <;> rw [e]
  · rw [if_pos hr]
    rfl
  · rw [if_neg (by omega), if_pos hhi]
    rfl
  · rw [if_neg (by omega), if_neg (by omega), if_pos hhi]
    rfl
  · rw [if_neg (by omega), if_neg (by omega), if_neg (by omega)]
    rfl

/-- Settles O24: what is emitted, and the three facts about the run's token. -/
theorem emittedRunIsItsToken : Obligations.EmittedRunIsItsToken :=
  fun r v h1 h383 hv =>
    ⟨emitted_eq_encode r v, runToken_wellFormed h383 hv, runToken_run v h1, runToken_value r v⟩

/-! ## One run at the head of a string -/

theorem runLength_eq_zero {v : Byte} {t : List Byte} (h : t.head? ≠ some v) : runLength v t = 0 := by
  cases t with
  | nil => rfl
  | cons b t => exact if_neg fun e => h (congrArg some e)

/-- Behind a run that is counted to its end another byte stands, or none. -/
theorem head?_drop_runLength (v : Byte) (t : List Byte) : (t.drop (runLength v t)).head? ≠ some v := by
  induction t with
  | nil => nofun
  | cons b t ih =>
    by_cases hb : b = v
    · rw [runLength, if_pos hb]
      exact ih
    · rw [runLength, if_neg hb]
      exact fun e => hb (Option.some.inj e)

theorem runLength_replicate_append (v : Byte) (n : Nat) (t : List Byte) :
    runLength v (List.replicate n v ++ t) = n + runLength v t := by
  induction n with
  | zero => simp
  | succ n ih =>
    rw [List.replicate_succ, List.cons_append, runLength, if_pos rfl, ih]
    omega

/-- RE cuts off a run that is at the cap, or is not followed by its own value (41 R103). -/
theorem runsOf_run {r : Nat} {v : Byte} {t : List Byte} (h1 : 1 ≤ r) (h383 : r ≤ 383)
    (hcap : t.head? = some v → r = 383) (fuel : Nat) :
    runsOf (fuel + 1) (List.replicate r v ++ t) = (r, v) :: runsOf fuel t := by
  obtain ⟨n, rfl⟩ : ∃ n, r = n + 1 := ⟨r - 1, by omega⟩
  have hrun : min Config.runMax (runLength v (List.replicate n v ++ t) + 1) = n + 1 := by
    rw [runLength_replicate_append, Config.runMax]
    by_cases ht : t.head? = some v
    · have := hcap ht
      omega
    · rw [runLength_eq_zero ht]
      omega
  have hdrop : (List.replicate (n + 1) v ++ t).drop (n + 1) = t := List.drop_left' List.length_replicate
  rw [List.replicate_succ, List.cons_append] at hdrop ⊢
  rw [runsOf, hrun, hdrop]

/-! ## The runs of a string -/

/-- Each run is of a length a token can express and of a value of the string. -/
theorem mem_runsOf {fuel : Nat} {s : List Byte} {p : Nat × Byte} (h : p ∈ runsOf fuel s) :
    1 ≤ p.1 ∧ p.1 ≤ 383 ∧ p.2 ∈ s := by
  induction fuel generalizing s with
  | zero => cases s <;> cases h
  | succ fuel ih =>
    cases s with
    | nil => cases h
    | cons v t =>
      rw [runsOf, List.mem_cons, Config.runMax] at h
      rcases h with rfl | h
      · exact ⟨by dsimp only; omega, Nat.min_le_left _ _, List.mem_cons_self⟩
      · obtain ⟨h1, h383, hmem⟩ := ih h
        exact ⟨h1, h383, List.mem_of_mem_drop hmem⟩

/-- The first run is of the first byte. -/
theorem head?_runsOf {fuel : Nat} {s : List Byte} {p : Nat × Byte} (h : p ∈ (runsOf fuel s).head?) :
    s.head? = some p.2 := by
  cases s with
  | nil => cases fuel <;> cases h
  | cons v t =>
    cases fuel with
    | zero => cases h
    | succ fuel =>
      cases h
      rfl

/-- A run is followed by one of the same value at the cap alone (30 R70). -/
theorem isChain_runsOf (fuel : Nat) (s : List Byte) :
    (runsOf fuel s).IsChain (fun p q => p.2 = q.2 → p.1 = 383) := by
  induction fuel generalizing s with
  | zero => cases s <;> exact .nil
  | succ fuel ih =>
    cases s with
    | nil => exact .nil
    | cons v t =>
      rw [runsOf, List.isChain_cons, Config.runMax]
      refine ⟨fun q hq hv => ?_, ih _⟩
      have hnext := head?_runsOf hq
      by_contra hr
      have hrun : min 383 (runLength v t + 1) = runLength v t + 1 := by dsimp only at hr; omega
      rw [hrun, List.drop_succ_cons, ← hv] at hnext
      exact head?_drop_runLength v t hnext

/-- What tokens expand to begins with the value of the first. -/
theorem head?_flatMap_expand {is : List Instr} (h : ∀ i ∈ is, 1 ≤ i.run) :
    (is.flatMap Instr.expand).head? = is.head?.map Instr.value := by
  cases is with
  | nil => rfl
  | cons i is =>
    have h1 := h i List.mem_cons_self
    obtain ⟨n, hn⟩ : ∃ n, i.run = n + 1 := ⟨i.run - 1, by omega⟩
    rw [List.flatMap_cons, Instr.expand, hn]
    rfl

/-- Tokens of runs as RE would cut them are what RE cuts their expansion into. -/
theorem runsOf_flatMap_expand {is : List Instr} {fuel : Nat} (hrun : ∀ i ∈ is, 1 ≤ i.run ∧ i.run ≤ 383)
    (hchain : is.IsChain (fun i j => i.value = j.value → i.run = 383))
    (hfuel : (is.flatMap Instr.expand).length ≤ fuel) :
    runsOf fuel (is.flatMap Instr.expand) = is.map fun i => (i.run, i.value) := by
  induction is generalizing fuel with
  | nil => cases fuel <;> rfl
  | cons i is ih =>
    obtain ⟨h1, h383⟩ := hrun i List.mem_cons_self
    have hrest (j : Instr) (hj : j ∈ is) := hrun j (List.mem_cons_of_mem i hj)
    rw [List.isChain_cons] at hchain
    obtain ⟨hhead, htail⟩ := hchain
    have hcap : (is.flatMap Instr.expand).head? = some i.value → i.run = 383 := by
      rw [head?_flatMap_expand fun j hj => (hrest j hj).1, Option.map_eq_some_iff]
      rintro ⟨j, hj, hv⟩
      exact hhead j hj hv.symm
    rw [List.flatMap_cons, Instr.expand] at hfuel ⊢
    rw [List.length_append, List.length_replicate] at hfuel
    obtain ⟨fuel, rfl⟩ : ∃ n, fuel = n + 1 := ⟨fuel - 1, by omega⟩
    rw [runsOf_run h1 h383 hcap, ih hrest htail (by omega), List.map_cons]

/-! ## Canonical streams -/

/-- A stream that parses is the bytes of the tokens it parses to, which are well formed. -/
theorem encodeStream_of_decodeStream {fuel p : Nat} {bs : List Byte} {is : List Instr}
    (h : decodeStream fuel p bs = .ok is) : encodeStream is = bs ∧ ∀ i ∈ is, i.wellFormed = true := by
  induction fuel generalizing p bs is with
  | zero =>
    cases bs with
    | nil => cases h; exact ⟨rfl, nofun⟩
    | cons b bs => cases h
  | succ fuel ih =>
    cases bs with
    | nil => cases h; exact ⟨rfl, nofun⟩
    | cons b bs =>
      cases hd : decode (b :: bs) with
      | error e =>
        rw [decodeStream, hd] at h
        cases h
      | ok pair =>
        obtain ⟨i, rest⟩ := pair
        rw [decodeStream_cons hd] at h
        cases hs : decodeStream fuel (p + (encode i).length) rest with
        | error q =>
          rw [hs] at h
          cases h
        | ok js =>
          rw [hs] at h
          cases h
          obtain ⟨hbytes, hwf⟩ := ih hs
          exact ⟨(congrArg (encode i ++ ·) hbytes).trans (encode_of_decode hd),
            List.forall_mem_cons.mpr ⟨decode_wellFormed hd, hwf⟩⟩

/-- The tokens RE emits for a string. -/
def reTokens (s : List Byte) : List Instr := (runsOf s.length s).map fun p => runToken p.1 p.2

/-- What RE produces is the stream of its tokens (30 R73, 41 R111). -/
theorem rleEnc_eq_encodeStream (s : List Byte) : rleEnc s = encodeStream (reTokens s) := by
  rw [rleEnc, encodeStream, reTokens, List.flatMap_map]
  exact List.flatMap_congr fun p _ => emitted_eq_encode p.1 p.2

/-- Every token RE emits is of one of its runs. -/
theorem mem_reTokens {s : List Byte} {i : Instr} (h : i ∈ reTokens s) :
    ∃ r v, 1 ≤ r ∧ r ≤ 383 ∧ v ∈ s ∧ i = runToken r v := by
  obtain ⟨⟨r, v⟩, hp, rfl⟩ := List.mem_map.mp h
  obtain ⟨h1, h383, hv⟩ := mem_runsOf hp
  exact ⟨r, v, h1, h383, hv, rfl⟩

/-- Neighbouring tokens of one value stand only where RE cut at the cap. -/
theorem isChain_reTokens (s : List Byte) :
    (reTokens s).IsChain (fun i j => i.value = j.value → i.run = 383) := by
  rw [reTokens, List.isChain_map]
  refine (isChain_runsOf s.length s).imp fun p q hpq hv => ?_
  rw [runToken_value, runToken_value] at hv
  have h383 := hpq hv
  rw [runToken_run p.2 (by omega), h383]

/-- What RE produces is canonical. -/
theorem canonical_rleEnc {s : List Byte} (hs : ∀ b ∈ s, b.toNat < 0x80) : Canonical (rleEnc s) := by
  rw [rleEnc_eq_encodeStream]
  refine ⟨reTokens s, streamParsesToItsTokens _ _ 0 (fun i hi => ?_) le_rfl, fun i hi => ?_, isChain_reTokens s⟩
  · obtain ⟨r, v, -, h383, hv, rfl⟩ := mem_reTokens hi
    exact runToken_wellFormed h383 (hs v hv)
  · obtain ⟨r, v, h1, -, hv, rfl⟩ := mem_reTokens hi
    rw [runToken_value, runToken_run v h1]
    exact ⟨hs v hv, h1, rfl⟩

/-- A canonical stream is what RE produces for the bytes its tokens stand for. -/
theorem rleEnc_of_canonical {bs : List Byte} (h : Canonical bs) :
    ∃ s : List Byte, (∀ b ∈ s, b.toNat < 0x80) ∧ rleEnc s = bs := by
  obtain ⟨is, hparse, htok, hchain⟩ := h
  obtain ⟨hbytes, hwf⟩ := encodeStream_of_decodeStream hparse
  refine ⟨is.flatMap Instr.expand, fun b hb => ?_, ?_⟩
  · obtain ⟨i, hi, hb⟩ := List.mem_flatMap.mp hb
    rw [List.eq_of_mem_replicate hb]
    exact (htok i hi).1
  · have hrun (i : Instr) (hi : i ∈ is) : 1 ≤ i.run ∧ i.run ≤ 383 := by
      obtain ⟨-, h1, -⟩ := htok i hi
      obtain ⟨-, -, hlt, -⟩ := tokenShape i (hwf i hi)
      exact ⟨h1, Nat.le_of_lt_succ hlt⟩
    rw [rleEnc, runsOf_flatMap_expand hrun hchain le_rfl, List.flatMap_map, ← hbytes]
    refine List.flatMap_congr fun i hi => ?_
    obtain ⟨-, -, htoken⟩ := htok i hi
    rw [emitted_eq_encode, ← htoken]

/-- Settles O54: RE's streams are canonical, and a canonical stream is RE's for what it expands to. -/
theorem canonicalStreamsAreEncodings : Obligations.CanonicalStreamsAreEncodings := by
  intro bs
  constructor
  · exact rleEnc_of_canonical
  · rintro ⟨s, hs, rfl⟩
    exact canonical_rleEnc hs

end Machine

end Sys2Proof

/-! SUPPORT. The opcode table as a tiling: each of its rows applies to an interval of keys `K = b0 × 256 + b1`, and the
intervals follow one another from 0 to 2^16 with nothing between them (30 R75). -/

namespace Sys2Proof

/-! ## Rows as intervals of keys -/

/-- The least key a row applies to. -/
def OpRow.lo (row : OpRow) : Nat := row.pat.toNat

/-- The key after the last one a row applies to: its free bits are the bits its mask leaves out. -/
def OpRow.hi (row : OpRow) : Nat := row.pat.toNat + (2 ^ 16 - row.mask.toNat)

/-- The key of two first bytes (30 R75). -/
theorem key_toNat (b0 b1 : Byte) : (b0 ++ b1).toNat = b0.toNat * 256 + b1.toNat := by
  rw [BitVec.toNat_append, ← Nat.shiftLeft_add_eq_or_of_lt b1.isLt, Nat.shiftLeft_eq]

/-- Masking all but the `k` lowest bits of a 16-bit number clears those `k`. -/
theorem and_highMask {K k : Nat} (hK : K < 2 ^ 16) (hk : k ≤ 16) : K &&& (2 ^ 16 - 2 ^ k) = K / 2 ^ k * 2 ^ k := by
  have hmask : 2 ^ 16 - 2 ^ k = (2 ^ (16 - k) - 1) <<< k := by
    rw [Nat.shiftLeft_eq, Nat.sub_mul, ← pow_add, Nat.sub_add_cancel hk, Nat.one_mul]
  have hhigh : K >>> k < 2 ^ (16 - k) := by
    rw [Nat.shiftRight_eq_div_pow, Nat.div_lt_iff_lt_mul (Nat.two_pow_pos k), ← pow_add, Nat.sub_add_cancel hk]
    exact hK
  have hshift : K &&& ((2 ^ (16 - k) - 1) <<< k) = (K >>> k &&& (2 ^ (16 - k) - 1)) <<< k := by
    apply Nat.eq_of_testBit_eq
    intro j
    by_cases hj : k ≤ j
    · simp [Nat.testBit_shiftLeft, hj, Bool.and_comm]
    · simp [Nat.testBit_shiftLeft, hj]
  rw [hmask, hshift, Nat.and_two_pow_sub_one_eq_mod, Nat.mod_eq_of_lt hhigh, Nat.shiftRight_eq_div_pow,
    Nat.shiftLeft_eq]

/-- Every mask of the table keeps the high bits, and its pattern has no other bit set. -/
theorem opcodeRows_masks :
    ∀ row ∈ opcodeRows, ∃ k : Fin 17, row.mask.toNat = 2 ^ 16 - 2 ^ k.val ∧ 2 ^ k.val ∣ row.pat.toNat := by
  decide

/-- A row applies to the keys of its interval. -/
theorem applies_iff {row : OpRow} (h : row ∈ opcodeRows) (b0 b1 : Byte) :
    row.applies b0 b1 = true ↔ row.lo ≤ b0.toNat * 256 + b1.toNat ∧ b0.toNat * 256 + b1.toNat < row.hi := by
  obtain ⟨k, hmask, c, hpat⟩ := opcodeRows_masks row h
  have hk : k.val ≤ 16 := Nat.le_of_lt_succ k.isLt
  have hpos := Nat.two_pow_pos k.val
  have hle : 2 ^ k.val ≤ 2 ^ 16 := Nat.pow_le_pow_right (by decide) hk
  have hK := (b0 ++ b1).isLt
  rw [OpRow.applies, beq_iff_eq, ← BitVec.toNat_inj, BitVec.toNat_and, OpRow.lo, OpRow.hi, hmask, hpat,
    and_highMask hK hk, key_toNat, Nat.mul_comm _ (2 ^ k.val), Nat.mul_right_inj hpos.ne', Nat.div_eq_iff hpos,
    Nat.mul_comm c]
  omega

/-! ## Tilings -/

/-- The intervals of the rows follow one another from `a` to `b` with nothing between them. -/
def Tiles (b : Nat) : Nat → List OpRow → Prop
  | a, [] => a = b
  | a, row :: rows => row.lo = a ∧ row.lo < row.hi ∧ Tiles b row.hi rows

/-- Below where a tiling begins none of its rows applies. -/
theorem Tiles.filter_eq_nil {a b K : Nat} {rows : List OpRow} (h : Tiles b a rows) (hK : K < a) :
    rows.filter (fun row => decide (row.lo ≤ K ∧ K < row.hi)) = [] := by
  induction rows generalizing a with
  | nil => rfl
  | cons row rows ih =>
    obtain ⟨hlo, hlt, htail⟩ := h
    rw [List.filter_cons_of_neg (by rw [decide_eq_true_eq]; omega), ih htail (by omega)]

/-- In a tiling exactly one row applies. -/
theorem Tiles.filter_eq_singleton {a b K : Nat} {rows : List OpRow} (h : Tiles b a rows) (ha : a ≤ K) (hb : K < b) :
    ∃ row ∈ rows, row.lo ≤ K ∧ K < row.hi ∧
      rows.filter (fun row => decide (row.lo ≤ K ∧ K < row.hi)) = [row] := by
  induction rows generalizing a with
  | nil =>
    have hab : a = b := h
    omega
  | cons row rows ih =>
    obtain ⟨hlo, -, htail⟩ := h
    by_cases hK : K < row.hi
    · refine ⟨row, List.mem_cons_self, by omega, hK, ?_⟩
      rw [List.filter_cons_of_pos (by rw [decide_eq_true_eq]; omega), htail.filter_eq_nil hK]
    · obtain ⟨row', hmem, h1, h2, hrow'⟩ := ih htail (by omega)
      refine ⟨row', List.mem_cons_of_mem row hmem, h1, h2, ?_⟩
      rw [List.filter_cons_of_neg (by rw [decide_eq_true_eq]; omega), hrow']

/-- The opcode table tiles the keys (30 R75). -/
theorem opcodeRows_tile : Tiles (2 ^ 16) 0 opcodeRows := by
  simp [Tiles, opcodeRows, OpRow.lo, OpRow.hi]

/-- Exactly one row applies to two first bytes, the one in whose interval their key is. -/
theorem rowsFor_eq_singleton (b0 b1 : Byte) :
    ∃ row ∈ opcodeRows, row.lo ≤ b0.toNat * 256 + b1.toNat ∧ b0.toNat * 256 + b1.toNat < row.hi ∧
      rowsFor b0 b1 = [row] := by
  have hb0 := b0.isLt
  have hb1 := b1.isLt
  obtain ⟨row, hmem, hlo, hhi, hrow⟩ := opcodeRows_tile.filter_eq_singleton (K := b0.toNat * 256 + b1.toNat)
    (Nat.zero_le _) (by omega)
  refine ⟨row, hmem, hlo, hhi, ?_⟩
  rw [rowsFor, ← hrow]
  refine List.filter_congr fun row' h => ?_
  rw [Bool.eq_iff_iff, decide_eq_true_eq]
  exact applies_iff h b0 b1

/-! ## Rows and the decoder -/

/-- The rows by the range of first bytes their keys are in (30 R65, R75). -/
theorem opcodeRows_ranges :
    ∀ row ∈ opcodeRows,
      (row.kind = .literal ∧ row.length = 1 ∧ row.hi = 0x8000) ∨
      (row.kind = .shortRun ∧ row.length = 2 ∧ row.lo = 0x8000 ∧ row.hi = 0x8100) ∨
      (row.kind = .extendedRun ∧ row.length = 3 ∧ row.lo = 0x8100 ∧ row.hi = 0x8200) ∨
      (row.kind = .shortRun ∧ row.length = 2 ∧ row.lo = 0x8200 ∧ row.hi = 0x8280) ∨
      (row.kind = .longRun ∧ row.length = 3 ∧ row.lo = 0x8280 ∧ row.hi = 0x8300) ∨
      (row.kind = .shortRun ∧ row.length = 2 ∧ 0x8300 ≤ row.lo) := by
  decide

/-- The decoder reads a token of the kind and length of the row in whose interval the key is. -/
theorem decode_of_row {row : OpRow} (h : row ∈ opcodeRows) {b0 b1 : Byte}
    (hlo : row.lo ≤ b0.toNat * 256 + b1.toNat) (hhi : b0.toNat * 256 + b1.toNat < row.hi) (b2 : Byte)
    (rest : List Byte) :
    ∃ i rest', decode (b0 :: b1 :: b2 :: rest) = .ok (i, rest') ∧ row.kind = i.kind ∧ row.length = i.bytes := by
  obtain ⟨hlit, hzero, hext, htwo, hlong, hshort⟩ := dispatchByFirstBytes
  have hb1 := b1.isLt
  rcases opcodeRows_ranges row h with ⟨hkind, hlength, e⟩ | ⟨hkind, hlength, e, e'⟩ | ⟨hkind, hlength, e, e'⟩ |
    ⟨hkind, hlength, e, e'⟩ | ⟨hkind, hlength, e, e'⟩ | ⟨hkind, hlength, e⟩
  · exact ⟨_, _, hlit b0 _ (by omega), hkind, hlength⟩
  · obtain rfl : b0 = 0x80#8 := BitVec.eq_of_toNat_eq (by rw [BitVec.toNat_ofNat]; omega)
    exact ⟨_, _, hzero b1 _, hkind, hlength⟩
  · obtain rfl : b0 = 0x81#8 := BitVec.eq_of_toNat_eq (by rw [BitVec.toNat_ofNat]; omega)
    exact ⟨_, _, hext b1 b2 rest, hkind, hlength⟩
  · obtain rfl : b0 = 0x82#8 := BitVec.eq_of_toNat_eq (by rw [BitVec.toNat_ofNat]; omega)
    rw [BitVec.toNat_ofNat] at hhi
    exact ⟨_, _, htwo b1 _ (by omega), hkind, hlength⟩
  · obtain rfl : b0 = 0x82#8 := BitVec.eq_of_toNat_eq (by rw [BitVec.toNat_ofNat]; omega)
    rw [BitVec.toNat_ofNat] at hlo
    exact ⟨_, _, hlong b1 b2 rest (by omega), hkind, hlength⟩
  · exact ⟨_, _, hshort b0 b1 _ (by omega), hkind, hlength⟩

/-- Settles O4: the one row that applies is the one whose interval holds the key. -/
theorem opcodeRowsAgreeWithDecoder : Obligations.OpcodeRowsAgreeWithDecoder := by
  intro b0 b1 b2 rest
  obtain ⟨row, hmem, hlo, hhi, hrow⟩ := rowsFor_eq_singleton b0 b1
  obtain ⟨i, rest', hd, hkind, hlength⟩ := decode_of_row hmem hlo hhi b2 rest
  exact ⟨row, i, rest', hrow, hd, hkind, hlength⟩

end Sys2Proof

/-! SUPPORT. A token of run length 0 writes nothing. -/

namespace Sys2Proof.Machine

/-- A token of run length 0 only moves the program counter past itself (30 R68, 42 R131). -/
theorem execToken_zero (len : Nat) (v : Byte) (s : State) :
    execToken 0 v len s = .next (s.withRd { s.rd with rd := s.rd.rd + len }) := by
  have hcount : fillCount 0 s = 0 := Nat.le_zero.mp (fillCount_le 0 s).1
  have hfill : fill 0 v s = .ok s := by
    rw [fill, hcount]
    rfl
  rw [execToken, hfill]
  rfl

/-- Settles O14: both tokens are of run length 0, two and three bytes long. -/
theorem zeroRunsOnlyAdvance : Obligations.ZeroRunsOnlyAdvance :=
  fun v s => ⟨execToken_zero 2 v s, execToken_zero 3 v s⟩

end Sys2Proof.Machine

/-! SUPPORT. The distinct colours of a list in order of first occurrence: they grow with the list, and a colour's place
among them is the number of distinct colours before it. -/

namespace Sys2Proof.Machine

/-! ## How the distinct colours grow with the list -/

theorem firsts_prefix_append (cs ds : List Rgb) : firsts cs <+: firsts (cs ++ ds) := by
  induction ds using List.reverseRecOn with
  | nil => rw [List.append_nil]
  | append_singleton ds p ih =>
    rw [← List.append_assoc, firsts_snoc]
    split
    · exact ih
    · exact ih.trans (List.prefix_append _ _)

theorem firsts_take_prefix (cs : List Rgb) (i : Nat) : firsts (cs.take i) <+: firsts cs := by
  have h := firsts_prefix_append (cs.take i) (cs.drop i)
  rwa [List.take_append_drop] at h

theorem nodup_firsts (cs : List Rgb) : (firsts cs).Nodup := by
  induction cs using List.reverseRecOn with
  | nil => exact List.nodup_nil
  | append_singleton cs p ih =>
    rw [firsts_snoc]
    split
    · exact ih
    · rename_i hp
      rw [← List.concat_eq_append]
      exact ih.concat hp

/-- The distinct colours up to and including a pixel. -/
theorem firsts_take_succ {cs : List Rgb} {i : Nat} (h : i < cs.length) :
    firsts (cs.take (i + 1)) =
      if cs[i] ∈ firsts (cs.take i) then firsts (cs.take i) else firsts (cs.take i) ++ [cs[i]] := by
  rw [← List.take_concat_get' cs i h, firsts_snoc]

/-- A pixel whose colour no pixel before it has is the first of its colour. -/
theorem idxOf_of_new {cs : List Rgb} {i : Nat} (hi : i < cs.length) (hnew : cs[i] ∉ cs.take i) :
    cs.idxOf cs[i] = i := by
  have hmem (n : Nat) := List.mem_take_iff_idxOf_lt (n := n) (List.getElem_mem hi)
  have hle := (hmem (i + 1)).mp (List.mem_take_iff_getElem.mpr ⟨i, by omega, rfl⟩)
  rw [hmem i] at hnew
  omega

/-- At its first occurrence a colour joins the distinct colours. -/
theorem firsts_take_idxOf_succ {cs : List Rgb} {c : Rgb} (hc : c ∈ cs) :
    firsts (cs.take (cs.idxOf c + 1)) = firsts (cs.take (cs.idxOf c)) ++ [c] := by
  have hlt := List.idxOf_lt_length_of_mem hc
  have hnew : c ∉ firsts (cs.take (cs.idxOf c)) := fun h =>
    lt_irrefl _ ((List.mem_take_iff_idxOf_lt hc).mp (mem_firsts.mp h))
  rw [firsts_take_succ hlt, List.getElem_idxOf hlt, if_neg hnew]

/-- A colour new at a pixel stands among the distinct colours behind those before the pixel. -/
theorem firsts_getElem?_of_new {cs : List Rgb} {i : Nat} {c : Rgb}
    (h : firsts (cs.take (i + 1)) = firsts (cs.take i) ++ [c]) : (firsts cs)[(firsts (cs.take i)).length]? = some c := by
  obtain ⟨ds, hds⟩ := firsts_take_prefix cs (i + 1)
  rw [← hds, h, List.append_assoc, List.getElem?_append_right le_rfl, Nat.sub_self]
  rfl

/-- The number of a colour is the number of distinct colours strictly before its first occurrence (40 R89). -/
theorem firsts_getElem?_count {cs : List Rgb} {c : Rgb} (hc : c ∈ cs) :
    (firsts cs)[(firsts (cs.take (cs.idxOf c))).length]? = some c :=
  firsts_getElem?_of_new (firsts_take_idxOf_succ hc)

/-- A colour is found among the distinct colours at the place where it stands. -/
theorem idxOf_firsts_of_getElem? {cs : List Rgb} {j : Nat} {c : Rgb} (h : (firsts cs)[j]? = some c) :
    (firsts cs).idxOf c = j := by
  obtain ⟨hj, rfl⟩ := List.getElem?_eq_some_iff.mp h
  exact (nodup_firsts cs).idxOf_getElem j hj

/-! ## The whole call as a function -/

/-- With at most 128 distinct colours the call succeeds (40 R88). -/
theorem pqCall_of_length_le {cs : List Rgb} (h : (firsts cs).length ≤ 128) :
    pqCall cs = .ok (firsts cs, cs.map fun c => byteOf ((firsts cs).idxOf c)) := by
  rw [pqCall, Config.palMax, List.drop_eq_nil_of_le h]

/-- With a 129th distinct colour the call fails at its first pixel (40 R88). -/
theorem pqCall_of_getElem? {cs : List Rgb} {c : Rgb} (h : (firsts cs)[128]? = some c) :
    pqCall cs = .error (cs.idxOf c) := by
  obtain ⟨hlt, rfl⟩ := List.getElem?_eq_some_iff.mp h
  rw [pqCall, Config.palMax, List.drop_eq_getElem_cons hlt]

/-- A call that succeeds had at most 128 distinct colours. -/
theorem pqCall_ok {cs pal : List Rgb} {idx : List Byte} (h : pqCall cs = .ok (pal, idx)) :
    (firsts cs).length ≤ 128 ∧ pal = firsts cs ∧ idx = cs.map fun c => byteOf ((firsts cs).idxOf c) := by
  by_cases hle : (firsts cs).length ≤ 128
  · rw [pqCall_of_length_le hle] at h
    cases h
    exact ⟨hle, rfl, rfl⟩
  · rw [pqCall_of_getElem? (List.getElem?_eq_getElem (by omega))] at h
    cases h

/-- A call that fails had a 129th distinct colour, and names its first pixel. -/
theorem pqCall_error {cs : List Rgb} {i : Nat} (h : pqCall cs = .error i) :
    ∃ c, (firsts cs)[128]? = some c ∧ i = cs.idxOf c := by
  by_cases hle : (firsts cs).length ≤ 128
  · rw [pqCall_of_length_le hle] at h
    cases h
  · have hc := List.getElem?_eq_getElem (l := firsts cs) (i := 128) (by omega)
    rw [pqCall_of_getElem? hc] at h
    cases h
    exact ⟨_, hc, rfl⟩

/-- Settles O55: the index of a colour is its place among the distinct colours, which `firsts_getElem?_count` counts. -/
theorem paletteIndexStable : Obligations.PaletteIndexStable := by
  intro cs pal idx h
  obtain ⟨hle, rfl, rfl⟩ := pqCall_ok h
  refine ⟨hle, List.length_map _, fun k c hk => ?_⟩
  have hcount := firsts_getElem?_count (List.mem_of_getElem? hk)
  obtain ⟨hlt, -⟩ := List.getElem?_eq_some_iff.mp hcount
  exact ⟨_, by rw [List.getElem?_map, hk, Option.map_some, idxOf_firsts_of_getElem? hcount], rfl, by omega, hcount⟩

/-- A pixel of a new colour, behind 128 distinct ones, makes the call fail there (40 R85, R88). -/
theorem pqCall_of_new {cs : List Rgb} {i : Nat} (hi : i < cs.length) (h128 : (firsts (cs.take i)).length = 128)
    (hnew : cs[i] ∉ firsts (cs.take i)) : pqCall cs = .error i := by
  have hsucc := firsts_take_succ hi
  rw [if_neg hnew] at hsucc
  have hc := firsts_getElem?_of_new hsucc
  rw [h128] at hc
  rw [pqCall_of_getElem? hc, idxOf_of_new hi fun h => hnew (mem_firsts.mpr h)]

/-- Settles O56: the 129th distinct colour is new at its first pixel, behind the 128 before it. -/
theorem overflowAt129thColour : Obligations.OverflowAt129thColour := by
  intro cs i
  constructor
  · intro h
    obtain ⟨c, hc, rfl⟩ := pqCall_error h
    have hmem : c ∈ cs := mem_firsts.mp (List.mem_of_getElem? hc)
    have h128 : (firsts (cs.take (cs.idxOf c))).length = 128 :=
      (idxOf_firsts_of_getElem? (firsts_getElem?_count hmem)).symm.trans (idxOf_firsts_of_getElem? hc)
    exact ⟨List.idxOf_lt_length_of_mem hmem, h128,
      by rw [firsts_take_idxOf_succ hmem, List.length_append, h128, List.length_singleton]⟩
  · rintro ⟨hi, h128, h129⟩
    refine pqCall_of_new hi h128 fun hold => ?_
    rw [firsts_take_succ hi, if_pos hold] at h129
    omega

end Sys2Proof.Machine

/-! SUPPORT. PQ's step on a pixel that can be read, branch by branch: what it answers and what it changes. -/

namespace Sys2Proof.Machine

theorem State.pixel_eq_some {s : State} {k : Nat} {p : Rgb} : s.pixel k = some p ↔ readPixel s (3 * k) = .ok p := by
  refine ⟨fun h => ?_, State.pixel_of_readPixel⟩
  unfold State.pixel at h
  split at h
  · rename_i hq
    cases h
    exact hq
  · cases h

theorem PqRegs.palette_length_le (r : PqRegs) : r.palette.length ≤ 128 := by
  simp [PqRegs.palette]

/-- The search finds a palette colour at its place (40 R82). -/
theorem search_of_mem {p : Rgb} {r : PqRegs} (h : p ∈ r.palette) : search p r = some (r.palette.idxOf p) :=
  List.findIdx?_eq_some_iff_findIdx_eq.mpr ⟨List.idxOf_lt_length_of_mem h, rfl⟩

/-- What a write of one byte leaves everywhere. -/
theorem State.writeSpace_byte_read {s u : State} {sp : SpaceId} {a : Nat} {b : Byte}
    (h : s.writeSpace sp a [b] = .ok u) (k : StoreId) (i : Nat) :
    (u.buf k).mem.read i = if k = s.bind.store sp ∧ i = a then some b else (s.buf k).mem.read i := by
  obtain ⟨-, -, hread, -⟩ := State.writeSpace_ok h
  rw [hread, List.length_singleton]
  by_cases hi : k = s.bind.store sp ∧ i = a
  · obtain ⟨hk, ha⟩ := hi
    rw [if_pos ⟨hk, ha.ge, by omega⟩, if_pos ⟨hk, ha⟩, ha, Nat.sub_self]
    rfl
  · rw [if_neg hi, if_neg fun ⟨hk, hlo, hhi⟩ => hi ⟨hk, by omega⟩]

section
variable {s : State} {p : Rgb} (hlt : s.pq.i < s.pq.n) (hp : s.pixel s.pq.i = some p)
include hlt hp

/-- A pixel of a palette colour: the write of the slot's number, and the cursor moves on (40 R83). -/
theorem pqStep_of_hit {j : Nat} (hj : search p s.pq = some j) (hroom : s.pq.i < (s.space .pqIdx).len) :
    ∃ u, s.writeSpace .pqIdx s.pq.i [byteOf j] = .ok u ∧
      pqStep s = .next (u.withPq { s.pq with i := s.pq.i + 1 }) := by
  obtain ⟨u, hu⟩ := State.writeSpace_byte_completes hroom (byteOf j)
  have hhit : pqStep s = pqHit j s := by simp only [pqStep, if_pos hlt, State.pixel_eq_some.mp hp, hj]
  exact ⟨u, hu, by rw [hhit, pqHit, hu]⟩

/-- A pixel of a new colour appends or overflows by whether a slot is free (40 R82). -/
theorem pqStep_of_new (hnew : p ∉ s.pq.palette) :
    pqStep s = if s.pq.pcount < 128 then pqAppend p s else .next (pqOverflow s) := by
  simp only [pqStep, if_pos hlt, State.pixel_eq_some.mp hp, search_none.mpr hnew]
  rfl

/-- A pixel of a new colour with a slot free: the next slot takes it, its number is written, and the cursor moves on
(40 R84). -/
theorem pqStep_of_append (hnew : p ∉ s.pq.palette) (hfree : s.pq.pcount < 128)
    (hroom : s.pq.i < (s.space .pqIdx).len) :
    ∃ u, s.writeSpace .pqIdx s.pq.i [byteOf s.pq.pcount] = .ok u ∧
      pqStep s = .next (u.withPq { s.pq with
        pal := s.pq.pal.setIfInBounds s.pq.pcount p, pcount := s.pq.pcount + 1, i := s.pq.i + 1 }) := by
  obtain ⟨u, hu⟩ := State.writeSpace_byte_completes hroom (byteOf s.pq.pcount)
  exact ⟨u, hu, by rw [pqStep_of_new hlt hp hnew, if_pos hfree, pqAppend, hu]⟩

/-- A pixel of a new colour with no slot free: PaletteOverflow with its index (40 R85). -/
theorem pqStep_of_overflow (hnew : p ∉ s.pq.palette) (hfull : 128 ≤ s.pq.pcount) :
    pqStep s = .next (raiseError .pq .paletteOverflow s.pq.i s) :=
  (pqStep_of_new hlt hp hnew).trans (if_neg (Nat.not_lt.mpr hfull))

end

/-- Settles O19: the search finds the entry, and its number is the one byte written. -/
theorem quantizerHit : Obligations.QuantizerHit := by
  intro s p j hlt hp hj hleast hroom
  obtain ⟨u, hu, hstep⟩ := pqStep_of_hit hlt hp (search_some.mpr ⟨hj, hleast⟩) hroom
  obtain ⟨e, -, -, -⟩ := State.writeSpace_ok hu
  obtain ⟨hslot, -⟩ := List.getElem?_eq_some_iff.mp hj
  exact ⟨hslot.trans_le s.pq.palette_length_le, _, hstep, rfl, e.re, e.rd, e.bind,
    fun k a => State.writeSpace_byte_read hu k a⟩

/-- Settles O20: the search finds nothing, and the slot taken is the one whose number is written. -/
theorem quantizerAppend : Obligations.QuantizerAppend := by
  intro s p hlt hp hnew hfree hroom
  obtain ⟨u, hu, hstep⟩ := pqStep_of_append hlt hp hnew hfree hroom
  obtain ⟨e, -, -, -⟩ := State.writeSpace_ok hu
  refine ⟨_, hstep, rfl, rfl, PqRegs.palette_append hfree p _, fun j => ?_, rfl, rfl, rfl, rfl, rfl, rfl, e.re, e.rd,
    e.bind, fun k a => State.writeSpace_byte_read hu k a⟩
  simp only [State.withPq_pq, Fin.getElem_fin, Vector.getElem_setIfInBounds, eq_comm]

/-- Settles O21: the search finds nothing, and raising the error is the whole step. -/
theorem quantizerOverflow : Obligations.QuantizerOverflow := by
  intro s p hlt hp hnew hfull
  obtain ⟨hpq, hre, hrd, hbind, -, -, -, hread, -⟩ := raiseError_pq .paletteOverflow s.pq.i s
  exact ⟨_, pqStep_of_overflow hlt hp hnew hfull, hpq, hre, hrd, hbind, hread⟩

end Sys2Proof.Machine

/-! SUPPORT. A call that ends after a number of steps, and a PQ call from its START to its end as a walk along its
pixels. -/

namespace Sys2Proof.Machine

/-! ## A call and its number of steps -/

/-- The call of unit `u` running in a state ends in `f` with its `m`-th step from there, no earlier (10_state R13). -/
inductive CallEnds (u : UnitId) : Nat → State → State → Prop
  | ended {s : State} (h : s.st u ≠ .busy) : CallEnds u 0 s s
  | step {m : Nat} {s t f : State} (hb : s.st u = .busy) (h : busyStep u s = .next t) (ht : CallEnds u m t f) :
      CallEnds u (m + 1) s f

theorem CallEnds.last {u : UnitId} {s f : State} (hb : s.st u = .busy) (h : busyStep u s = .next f)
    (hf : f.st u ≠ .busy) : CallEnds u 1 s f :=
  .step hb h (.ended hf)

/-- Run for at least its number of steps, a call has come to its end. -/
theorem CallEnds.runUnit_eq {u : UnitId} {m k : Nat} {s f : State} (h : CallEnds u m s f) (hk : m ≤ k) :
    runUnit u k s = .next f := by
  induction h generalizing k with
  | ended h => exact runUnit_ended h k
  | step hb h _ ih =>
    obtain ⟨k, rfl⟩ : ∃ n, k = n + 1 := ⟨k - 1, by omega⟩
    rw [runUnit_step hb h, ih (Nat.le_of_succ_le_succ hk)]

/-- The number of steps is what `callSteps` counts. -/
theorem CallEnds.callSteps_eq {u : UnitId} {m k : Nat} {s f : State} (h : CallEnds u m s f) (hk : m ≤ k) :
    callSteps u k s = some m := by
  induction h generalizing k with
  | ended h => cases k <;> exact if_neg h
  | step hb h _ ih =>
    obtain ⟨k, rfl⟩ : ∃ n, k = n + 1 := ⟨k - 1, by omega⟩
    rw [callSteps, if_pos hb, h]
    dsimp only
    rw [ih (Nat.le_of_succ_le_succ hk)]
    rfl

/-! ## The pixels of a pixel buffer -/

theorem length_toPixels {n : Nat} {bs : List Byte} (h : bs.length = 3 * n) : (toPixels bs).length = n := by
  induction n generalizing bs with
  | zero => rw [List.length_eq_zero_iff.mp h]; rfl
  | succ n ih =>
    match bs, h with
    | _ :: _ :: _ :: t, h =>
      simp only [List.length_cons] at h
      rw [toPixels, List.length_cons, ih (by omega)]

/-- Each pixel of a buffer is what its three bytes read as (20 R41). -/
theorem readPixel_toPixels {s : State} {n a : Nat} {bs : List Byte} (h : bs.length = 3 * n)
    (hbs : s.holds .pqPix a bs) (k : Nat) (hk : k < (toPixels bs).length) :
    readPixel s (a + 3 * k) = .ok (toPixels bs)[k] := by
  induction n generalizing bs a k with
  | zero => rw [length_toPixels h] at hk; omega
  | succ n ih =>
    match bs, h with
    | x :: y :: z :: t, h =>
      simp only [List.length_cons] at h
      cases k with
      | zero =>
        have h1 := State.holds_tail hbs
        exact readPixel_ok.mpr ⟨State.holds_head hbs, State.holds_head h1, State.holds_head (State.holds_tail h1)⟩
      | succ k =>
        rw [show a + 3 * (k + 1) = a + 3 + 3 * k by omega]
        exact ih (bs := t) (by omega) (State.holds_drop hbs 3) k (Nat.lt_of_succ_lt_succ hk)

/-! ## A running PQ call -/

/-- PQ is BUSY on the pixels `cs`: what START checked of it holds (40 R81, 70 R212), and the palette and the indices are
those of the pixels before the cursor. -/
structure State.Quantizing (s : State) (cs : List Rgb) : Prop where
  busy : s.pq.st = .busy
  length : s.pq.n = cs.length
  cursor : s.pq.i ≤ cs.length
  input : ∀ k, (h : k < cs.length) → s.pixel k = some cs[k]
  room : cs.length ≤ (s.space .pqIdx).len
  apart : s.bind.store .pqPix ≠ s.bind.store .pqIdx
  handled : s.PaletteOf (cs.take s.pq.i)
  slots : s.pq.pcount ≤ 128

/-- An accepted PQ.START begins such a call. -/
theorem pqStart_quantizing {s t : State} {w h : Nat} {bs : List Byte} (e : pqStart w h s = .next t)
    (hbs : (s.space .pqPix).prefixOf (3 * (w * h)) = some bs) :
    t.Quantizing (toPixels bs) ∧ t.pq.i = 0 ∧ (toPixels bs).length = w * h := by
  obtain ⟨hlen, -⟩ := Buffer.prefixOf_iff.mp hbs
  have hcount := length_toPixels hlen
  obtain ⟨-, -, hdisj, hpix, hidx, -, rfl⟩ := pqStart_next e
  have hbytes := State.holds_of_prefixOf hpix.ge hbs
  obtain ⟨hapart, -⟩ := State.disjointFor_iff.mp hdisj
  refine ⟨{ busy := rfl, length := hcount.symm, cursor := Nat.zero_le _, input := fun k hk => ?_,
            room := hcount.trans_le hidx, apart := hapart, handled := ⟨rfl, nofun, rfl, nofun⟩,
            slots := Nat.zero_le _ }, rfl, hcount⟩
  have hp := readPixel_toPixels hlen hbytes k hk
  rw [Nat.zero_add] at hp
  exact State.pixel_of_readPixel hp

section
variable {s : State} {cs : List Rgb} (h : s.Quantizing cs)
include h

/-- The slots filled are those of the distinct colours so far. -/
theorem State.Quantizing.pcount_eq : s.pq.pcount = (firsts (cs.take s.pq.i)).length := by
  rw [← h.handled.palette, PqRegs.palette_length h.slots]

/-- A pixel whose colour's number is written at the cursor, with the palette it leaves, takes the call one pixel on. -/
theorem State.Quantizing.goes_on (hlt : s.pq.i < cs.length) {j : Nat} {u : State}
    (hu : s.writeSpace .pqIdx s.pq.i [byteOf j] = .ok u) (hj : (firsts (cs.take (s.pq.i + 1))).idxOf cs[s.pq.i] = j)
    {r : PqRegs} (hst : r.st = s.pq.st) (hn : r.n = s.pq.n) (hi : r.i = s.pq.i + 1)
    (hpal : r.palette = firsts (cs.take (s.pq.i + 1))) (hslots : r.pcount ≤ 128) : (u.withPq r).Quantizing cs := by
  have f := (State.writeSpace_frame (u := .pq) hu).withPq r
  have htake := List.take_concat_get' cs s.pq.i hlt
  exact
    { busy := hst.trans h.busy
      length := hn.trans h.length
      cursor := hi.trans_le hlt
      input := fun k hk => (State.pixel_congr (f.readSpace_eq h.apart) k).trans (h.input k hk)
      room := by rw [f.space_len]; exact h.room
      apart := by rw [f.bind]; exact h.apart
      handled := by
        rw [State.withPq_pq, hi, ← htake]
        exact h.handled.snoc (h.input _ hlt) h.apart hu (htake ▸ hj) hi (htake ▸ hpal)
      slots := hslots }

/-- A step of a running call with a pixel left: one pixel on, or PaletteOverflow where the whole call fails. -/
theorem State.Quantizing.pixel_step (hlt : s.pq.i < cs.length) :
    (∃ t, pqStep s = .next t ∧ t.Quantizing cs ∧ t.pq.i = s.pq.i + 1) ∨
    (pqCall cs = .error s.pq.i ∧ pqStep s = .next (raiseError .pq .paletteOverflow s.pq.i s)) := by
  have hin : s.pq.i < s.pq.n := h.length.symm ▸ hlt
  have hp := h.input _ hlt
  have hroom := hlt.trans_le h.room
  have hsucc := firsts_take_succ hlt
  rw [← h.handled.palette] at hsucc
  by_cases hold : cs[s.pq.i] ∈ s.pq.palette
  · rw [if_pos hold] at hsucc
    obtain ⟨u, hu, hstep⟩ := pqStep_of_hit hin hp (search_of_mem hold) hroom
    exact .inl ⟨_, hstep, h.goes_on hlt hu (by rw [hsucc]) rfl rfl rfl hsucc.symm h.slots, rfl⟩
  · rw [if_neg hold] at hsucc
    by_cases hfree : s.pq.pcount < 128
    · obtain ⟨u, hu, hstep⟩ := pqStep_of_append hin hp hold hfree hroom
      have hidx : (firsts (cs.take (s.pq.i + 1))).idxOf cs[s.pq.i] = s.pq.pcount := by
        rw [hsucc, List.idxOf_append_of_notMem hold, PqRegs.palette_length h.slots, List.idxOf_cons_self, Nat.add_zero]
      exact .inl ⟨_, hstep,
        h.goes_on hlt hu hidx rfl rfl rfl ((PqRegs.palette_append hfree _ _).trans hsucc.symm) hfree, rfl⟩
    · have h128 := h.pcount_eq
      have hslots := h.slots
      exact .inr ⟨pqCall_of_new hlt (by omega) (h.handled.palette ▸ hold), pqStep_of_overflow hin hp hold (by omega)⟩

end

/-- How a PQ call on the pixels `cs` ends, and with which of its steps (40 R88, R90). -/
inductive QuantizerEnd (cs : List Rgb) : Nat → State → Prop
  | done {f : State} (hle : (firsts cs).length ≤ 128) (hst : f.pq.st = .done) (hcount : f.pq.pcount = (firsts cs).length)
      (hpal : f.pq.palette = firsts cs)
      (hidx : (f.space .pqIdx).prefixOf cs.length = some (cs.map fun c => byteOf ((firsts cs).idxOf c))) :
      QuantizerEnd cs (cs.length + 1) f
  | overflow {i : Nat} {f : State} (hcall : pqCall cs = .error i) (hi : i < cs.length) (hst : f.pq.st = .err)
      (herr : f.pq.err = .paletteOverflow) (hinfo : f.pq.einfo = i) : QuantizerEnd cs (i + 1) f

/-- With no pixel left a running call completes with the palette and the indices of all pixels. -/
theorem State.Quantizing.complete {s : State} {cs : List Rgb} (h : s.Quantizing cs) (he : s.pq.i = cs.length) :
    QuantizerEnd cs (cs.length + 1) (pqComplete s) := by
  have hcount := h.pcount_eq
  obtain ⟨-, -, hpal, hidx⟩ := h.handled
  rw [he, List.take_length] at hcount hpal
  simp only [he, List.take_length] at hidx
  refine .done (hcount ▸ h.slots) rfl hcount hpal (Buffer.prefixOf_iff.mpr ⟨List.length_map _, fun k hk => ?_⟩)
  rw [List.getElem_map]
  exact hidx k (by simpa using hk)

/-- A running call ends as 40 R88 says, one step for each pixel handled and one more, or at the pixel that overflows. -/
theorem State.Quantizing.ends {s : State} {cs : List Rgb} (h : s.Quantizing cs) :
    ∃ m f, CallEnds .pq m s f ∧ QuantizerEnd cs (s.pq.i + m) f := by
  obtain ⟨d, hd⟩ : ∃ d, s.pq.i + d = cs.length := ⟨cs.length - s.pq.i, Nat.add_sub_of_le h.cursor⟩
  induction d generalizing s with
  | zero =>
    have he : s.pq.i = cs.length := hd
    have hend := h.complete he
    rw [← he] at hend
    exact ⟨1, _, .last h.busy (pqStep_of_end (he.trans h.length.symm)) nofun, hend⟩
  | succ d ih =>
    rcases h.pixel_step (by omega) with ⟨t, hstep, ht, hi⟩ | ⟨hcall, hstep⟩
    · obtain ⟨m, f, hm, hend⟩ := ih ht (by omega)
      refine ⟨m + 1, f, .step h.busy hstep hm, ?_⟩
      rwa [hi, Nat.add_right_comm] at hend
    · exact ⟨1, _, .last h.busy hstep nofun, .overflow hcall (by omega) rfl rfl rfl⟩

theorem QuantizerEnd.steps_le {cs : List Rgb} {m : Nat} {f : State} (h : QuantizerEnd cs m f) : m ≤ cs.length + 1 := by
  cases h with
  | done => exact le_rfl
  | overflow _ hi => exact Nat.succ_le_succ hi.le

/-- A call that PQ.START accepted ends as 40 R88 says of its pixels. -/
theorem pqStart_ends {s t : State} {w h : Nat} {bs : List Byte} (e : pqStart w h s = .next t)
    (hbs : (s.space .pqPix).prefixOf (3 * (w * h)) = some bs) :
    ∃ m f, CallEnds .pq m t f ∧ m ≤ w * h + 1 ∧ QuantizerEnd (toPixels bs) m f ∧ (toPixels bs).length = w * h := by
  obtain ⟨hq, hi, hlen⟩ := pqStart_quantizing e hbs
  obtain ⟨m, f, hm, hend⟩ := hq.ends
  rw [hi, Nat.zero_add] at hend
  exact ⟨m, f, hm, hlen ▸ hend.steps_le, hend, hlen⟩

/-- Settles O48: the call runs along its pixels to the end that `pqCall` names. -/
theorem quantizerCallComputes : Obligations.QuantizerCallComputes := by
  intro s t w h bs e hbs
  obtain ⟨m, f, hm, hle, hend, hlen⟩ := pqStart_ends e hbs
  refine ⟨f, hm.runUnit_eq hle, ?_⟩
  cases hend with
  | done hcolours hst hcount hpal hidx =>
    rw [pqCall_of_length_le hcolours]
    exact ⟨hst, hcount, hpal, hlen ▸ hidx⟩
  | overflow hcall _ hst herr hinfo =>
    rw [hcall]
    exact ⟨hst, herr, hinfo⟩

end Sys2Proof.Machine

/-! SUPPORT. The number of steps of a call: RD's along the whole tokens of its stream, RE's along the runs of its
input. -/

namespace Sys2Proof

/-- What follows a decoded token is the string without the token's bytes (30 R66). -/
theorem decode_rest {bs rest : List Byte} {i : Instr} (h : decode bs = .ok (i, rest)) : rest = bs.drop i.bytes := by
  obtain ⟨-, hbytes, hlen⟩ := decodeThenEncode bs i rest h
  rw [← hbytes, List.drop_left' hlen]

theorem decodeStream_error {bs : List Byte} {e : DecodeError} (hd : decode bs = .error e) (hne : bs ≠ [])
    (fuel p : Nat) : decodeStream (fuel + 1) p bs = .error p := by
  cases bs with
  | nil => exact absurd rfl hne
  | cons b t => rw [decodeStream, hd]

namespace Machine

/-! ## The whole tokens of a stream -/

theorem tokensIn_error {bs : List Byte} {e : DecodeError} (hd : decode bs = .error e) (fuel : Nat) :
    tokensIn fuel bs = 0 := by
  cases fuel with
  | zero => rfl
  | succ fuel => rw [tokensIn, hd]

theorem tokensIn_nil (fuel : Nat) : tokensIn fuel [] = 0 := tokensIn_error rfl fuel

theorem tokensIn_token {bs rest : List Byte} {i : Instr} (hd : decode bs = .ok (i, rest)) (fuel : Nat) :
    tokensIn (fuel + 1) bs = tokensIn fuel rest + 1 := by
  rw [tokensIn, hd]

/-- Each token has a byte. -/
theorem tokensIn_le_length (fuel : Nat) (bs : List Byte) : tokensIn fuel bs ≤ bs.length := by
  induction fuel generalizing bs with
  | zero => exact Nat.zero_le _
  | succ fuel ih =>
    cases hd : decode bs with
    | error e => rw [tokensIn_error hd]; exact Nat.zero_le _
    | ok pair =>
      obtain ⟨i, rest⟩ := pair
      have hlen := decode_length hd
      have hpos := i.bytes_pos
      have hrest := ih rest
      rw [tokensIn_token hd]
      omega

/-- The whole tokens counted are those whose bytes stand at the head of the stream, up to its end or up to the token
it ends inside, whose index the parse names (42 R137, R140). -/
theorem tokensIn_parse (fuel p : Nat) (bs : List Byte) (hfuel : bs.length ≤ fuel) :
    ∃ is n, tokensIn fuel bs = is.length ∧ (∀ i ∈ is, i.wellFormed = true) ∧ encodeStream is = bs.take n ∧
      (decodeStream fuel p bs = .ok is ∨ decodeStream fuel p bs = .error (p + n)) := by
  induction fuel generalizing p bs with
  | zero =>
    rw [List.length_eq_zero_iff.mp (Nat.le_zero.mp hfuel)]
    exact ⟨[], 0, rfl, nofun, rfl, .inl rfl⟩
  | succ fuel ih =>
    by_cases hne : bs = []
    · subst hne
      exact ⟨[], 0, rfl, nofun, rfl, .inl rfl⟩
    · cases hd : decode bs with
      | error e => exact ⟨[], 0, tokensIn_error hd _, nofun, rfl, .inr (decodeStream_error hd hne fuel p)⟩
      | ok pair =>
        obtain ⟨i, rest⟩ := pair
        have hlen := decode_length hd
        have hpos := i.bytes_pos
        obtain ⟨is, n, hcount, hwf, hbytes, hparse⟩ := ih (p + (encode i).length) rest (by omega)
        refine ⟨i :: is, (encode i).length + n, ?_, List.forall_mem_cons.mpr ⟨decode_wellFormed hd, hwf⟩, ?_, ?_⟩
        · rw [tokensIn_token hd, hcount, List.length_cons]
        · rw [← encode_of_decode hd, List.take_length_add_append, ← hbytes]
          rfl
        · rw [decodeStream_cons hd, ← Nat.add_assoc]
          exact hparse.imp (fun e => by rw [e]; rfl) fun e => by rw [e]; rfl

/-! ## RD's steps -/

/-- A running RD call takes one step for each whole token left and one more (42 R140). -/
theorem State.Decoding.ends {s : State} {bs : List Byte} (h : s.Decoding bs) {fuel : Nat}
    (hfuel : bs.length ≤ s.rd.rd + fuel) : ∃ f, CallEnds .rd (tokensIn fuel (bs.drop s.rd.rd) + 1) s f := by
  induction fuel generalizing s with
  | zero =>
    have he : s.rd.rd = bs.length := Nat.le_antisymm h.cursor hfuel
    exact ⟨_, .last h.busy (h.complete he) nofun⟩
  | succ fuel ih =>
    by_cases he : s.rd.rd = bs.length
    · rw [he, List.drop_length, tokensIn_nil]
      exact ⟨_, .last h.busy (h.complete he) nofun⟩
    · cases hd : decode (bs.drop s.rd.rd) with
      | error e =>
        rw [tokensIn_error hd]
        exact ⟨_, .last h.busy (h.truncated (lt_of_le_of_ne h.cursor he) hd) nofun⟩
      | ok pair =>
        obtain ⟨i, rest⟩ := pair
        obtain ⟨t, hstep, ht, hrd, -⟩ := h.token hd
        have hcur : t.rd.rd = s.rd.rd + i.bytes := by rw [hrd]
        have hpos := i.bytes_pos
        obtain ⟨f, hf⟩ := ih ht (by omega)
        rw [tokensIn_token hd, decode_rest hd, List.drop_drop, ← hcur]
        exact ⟨f, .step h.busy hstep hf⟩

/-! ## A running RE call -/

/-- RE is BUSY on the input `bs`: what START checked of it holds (41 R101, 70 R212) and the output is no longer than the
input read. -/
structure State.Encoding (s : State) (bs : List Byte) : Prop where
  busy : s.re.st = .busy
  length : s.re.n = bs.length
  cursor : s.re.cur ≤ bs.length
  output : s.re.wo ≤ s.re.cur
  input : s.holds .reSrc 0 bs
  room : bs.length ≤ (s.space .reDst).len
  apart : s.bind.store .reSrc ≠ s.bind.store .reDst

/-- An accepted RE.START begins such a call. -/
theorem reStart_encoding {s t : State} {n : Nat} {bs : List Byte} (e : reStart n s = .next t)
    (hbs : (s.space .reSrc).prefixOf n = some bs) : t.Encoding bs ∧ t.re.cur = 0 ∧ bs.length = n := by
  obtain ⟨hlen, -⟩ := Buffer.prefixOf_iff.mp hbs
  obtain ⟨-, -, hdisj, hsrc, hdst, -, rfl⟩ := reStart_next e
  obtain ⟨hapart, -⟩ := State.disjointFor_iff.mp hdisj
  exact ⟨{ busy := rfl, length := hlen.symm, cursor := Nat.zero_le _, output := le_rfl,
           input := State.holds_of_prefixOf hsrc hbs, room := hlen.trans_le hdst, apart := hapart }, rfl, hlen⟩

section
variable {s : State} {bs : List Byte} (h : s.Encoding bs)
include h

/-- Every index of the input reads as its byte. -/
theorem State.Encoding.read {a : Nat} (ha : a < bs.length) : s.readSpace .reSrc a = .ok bs[a] := by
  have := h.input a ha
  rwa [Nat.zero_add] at this

/-- A measured run stands at the cursor, at the cap or not followed by its own value (41 R102, R103). -/
theorem State.Encoding.measured {r : Nat} {v : Byte} (hlt : s.re.cur < bs.length) (hm : measureRun s = .ok (r, v)) :
    bs.drop s.re.cur = List.replicate r v ++ bs.drop (s.re.cur + r) ∧
      ((bs.drop (s.re.cur + r)).head? = some v → r = 383) := by
  have hn := h.length
  obtain ⟨-, -, hle, hrun, hstop⟩ := measure_ok hm (by omega)
  have htake : (bs.drop s.re.cur).take r = List.replicate r v := by
    refine List.ext_getElem (by rw [List.length_take, List.length_drop, List.length_replicate]; omega) fun j hj hj' => ?_
    rw [List.length_replicate] at hj'
    have hread := (h.read (a := s.re.cur + j) (by omega)).symm.trans (hrun j hj')
    rw [List.getElem_take, List.getElem_drop, List.getElem_replicate]
    exact Except.ok.inj hread
  refine ⟨by rw [← htake, ← List.drop_drop, List.take_append_drop], fun hnext => ?_⟩
  rw [List.head?_drop] at hnext
  obtain ⟨hin, hv⟩ := List.getElem?_eq_some_iff.mp hnext
  rcases hstop with hcap | hend | ⟨b, hb, hread⟩
  · exact hcap
  · omega
  · exact absurd (Except.ok.inj (hread.symm.trans (h.read hin))) (hv ▸ hb)

/-- A step of a running call with input left emits the run at the cursor, and the call goes on. -/
theorem State.Encoding.run_step (hlt : s.re.cur < bs.length) :
    ∃ r v u, 1 ≤ r ∧ r ≤ 383 ∧ bs.drop s.re.cur = List.replicate r v ++ bs.drop (s.re.cur + r) ∧
      ((bs.drop (s.re.cur + r)).head? = some v → r = 383) ∧
      s.writeSpace .reDst s.re.wo (emitted r v) = .ok u ∧
      let t := u.withRe { s.re with wo := s.re.wo + (emitted r v).length, cur := s.re.cur + r }
      reStep s = .next t ∧ t.Encoding bs := by
  have hn := h.length
  obtain ⟨t, hstep⟩ := reStep_completes (hn ▸ h.cursor) h.output (fun a ha => ⟨_, h.read (hn ▸ ha)⟩) (hn ▸ h.room)
  rcases reStep_next hstep with ⟨r, v, u, hin, hm, hu, rfl⟩ | ⟨he, -⟩
  · obtain ⟨h1, h383, hle, -, -⟩ := measure_ok hm hin
    obtain ⟨hrun, hcap⟩ := h.measured hlt hm
    have f := reStep_frame hstep
    have hwo := h.output
    have hlen := (emitted_length_le r v h1).1
    refine ⟨r, v, u, h1, h383, hrun, hcap, hu, hstep,
      { busy := h.busy
        length := hn
        cursor := hle.trans_eq hn
        output := by dsimp only [State.withRe_re]; omega
        input := State.holds_congr (f.readSpace_eq h.apart) h.input
        room := by rw [f.space_len]; exact h.room
        apart := by rw [f.bind]; exact h.apart }⟩
  · omega

end

/-- With no input left a running call completes (41 R109). -/
theorem State.Encoding.complete {s : State} {bs : List Byte} (h : s.Encoding bs) (he : s.re.cur = bs.length) :
    reStep s = .next (reComplete s) := by
  have hn := he.trans h.length.symm
  rw [reStep, if_neg (by omega), if_pos hn]

/-- A running RE call takes one step for each run left and one more (41 R110). -/
theorem State.Encoding.ends {s : State} {bs : List Byte} (h : s.Encoding bs) {fuel : Nat}
    (hfuel : bs.length ≤ s.re.cur + fuel) :
    ∃ f, CallEnds .re ((runsOf fuel (bs.drop s.re.cur)).length + 1) s f := by
  induction fuel generalizing s with
  | zero =>
    have he : s.re.cur = bs.length := Nat.le_antisymm h.cursor hfuel
    rw [he, List.drop_length]
    exact ⟨_, .last h.busy (h.complete he) nofun⟩
  | succ fuel ih =>
    by_cases he : s.re.cur = bs.length
    · rw [he, List.drop_length]
      exact ⟨_, .last h.busy (h.complete he) nofun⟩
    · obtain ⟨r, v, u, h1, h383, hrun, hcap, -, hstep, ht⟩ := h.run_step (lt_of_le_of_ne h.cursor he)
      obtain ⟨f, hf⟩ := ih ht (by dsimp only [State.withRe_re]; omega)
      rw [hrun, runsOf_run h1 h383 hcap, List.length_cons]
      exact ⟨f, .step h.busy hstep hf⟩

/-- Each run has a byte. -/
theorem length_runsOf_le (fuel : Nat) (bs : List Byte) : (runsOf fuel bs).length ≤ bs.length := by
  induction fuel generalizing bs with
  | zero => cases bs <;> exact Nat.zero_le _
  | succ fuel ih =>
    cases bs with
    | nil => exact Nat.zero_le _
    | cons v t =>
      rw [runsOf, Config.runMax, List.length_cons, List.length_cons]
      refine Nat.succ_le_succ ((ih _).trans ?_)
      rw [List.length_drop, List.length_cons]
      omega

/-! ## The three units -/

theorem reCall_steps {s t : State} {n : Nat} {bs : List Byte} (e : reStart n s = .next t)
    (hbs : (s.space .reSrc).prefixOf n = some bs) :
    callSteps .re (n + 1) t = some ((runsOf bs.length bs).length + 1) := by
  obtain ⟨henc, hcur, hlen⟩ := reStart_encoding e hbs
  obtain ⟨f, hf⟩ := henc.ends (fuel := bs.length) (by omega)
  rw [hcur, List.drop_zero] at hf
  exact hf.callSteps_eq (hlen ▸ Nat.succ_le_succ (length_runsOf_le _ bs))

theorem rdCall_steps {s t : State} {clen olen : Nat} {bs : List Byte} (e : rdStart clen olen s = .next t)
    (hbs : (s.space .rdSrc).prefixOf clen = some bs) :
    callSteps .rd (clen + 1) t = some (tokensIn bs.length bs + 1) ∧ tokensIn bs.length bs ≤ clen := by
  obtain ⟨hlen, -⟩ := Buffer.prefixOf_iff.mp hbs
  have hle := (tokensIn_le_length bs.length bs).trans_eq hlen
  have hdec := rdStart_decoding e hbs
  have hcur : t.rd.rd = 0 := by
    obtain ⟨-, -, -, -, -, -, -, rfl⟩ := rdStart_next e
    rfl
  obtain ⟨f, hf⟩ := hdec.ends (fuel := bs.length) (Nat.le_add_left _ _)
  rw [hcur, List.drop_zero] at hf
  exact ⟨hf.callSteps_eq (Nat.succ_le_succ hle), hle⟩

/-- The whole tokens of a stream that parses are its tokens. -/
theorem tokensIn_of_parse {bs : List Byte} {is : List Instr} (h : decodeStream bs.length 0 bs = .ok is) :
    tokensIn bs.length bs = is.length := by
  obtain ⟨js, n, hcount, -, -, hparse⟩ := tokensIn_parse bs.length 0 bs le_rfl
  rw [h] at hparse
  rcases hparse with hp | hp <;> cases hp
  exact hcount

/-- The whole tokens of a truncated stream are those of the bytes before its truncated token. -/
theorem tokensIn_of_truncated {bs : List Byte} {p : Nat} (h : decodeStream bs.length 0 bs = .error p) :
    ∃ is, decodeStream p 0 (bs.take p) = .ok is ∧ tokensIn bs.length bs = is.length := by
  obtain ⟨is, n, hcount, hwf, hbytes, hparse⟩ := tokensIn_parse bs.length 0 bs le_rfl
  rw [h, Nat.zero_add] at hparse
  rcases hparse with hp | hp <;> cases hp
  refine ⟨is, ?_, hcount⟩
  rw [← hbytes]
  exact streamParsesToItsTokens is p 0 hwf (by rw [hbytes]; exact List.length_take_le p bs)

/-- Settles O49: each call is walked to its end, token by token, run by run, pixel by pixel. -/
theorem callsEndInTheirStepCount : Obligations.CallsEndInTheirStepCount := by
  refine ⟨fun s t n bs => reCall_steps, fun s t clen olen bs e hbs => ?_, fun s t w h bs e hbs => ?_⟩
  · obtain ⟨hsteps, hle⟩ := rdCall_steps e hbs
    exact ⟨hsteps, hle, fun is => tokensIn_of_parse, fun p => tokensIn_of_truncated⟩
  · obtain ⟨m, f, hm, hle, hend, hlen⟩ := pqStart_ends e hbs
    rw [hm.callSteps_eq hle]
    cases hend with
    | done hcolours => rw [pqCall_of_length_le hcolours, hlen]
    | overflow hcall => rw [hcall]

end Machine

end Sys2Proof

/-! SUPPORT. The encoder: its step on a given run, its function `rleEnc` run by run, and an RE call from its START to
its end as a walk along the runs of its input. -/

namespace Sys2Proof.Machine

/-! ## RE's step -/

/-- Counting finds the bytes equal to `v` that stand there, up to the bound or a byte that differs (41 R102). -/
theorem matching_of_holds {s : State} {v : Byte} {q k a : Nat} (h : s.holds .reSrc a (List.replicate q v)) (hk : q ≤ k)
    (hstop : q = k ∨ ∃ b, b ≠ v ∧ s.readSpace .reSrc (a + q) = .ok b) : matching s v k a = .ok q := by
  induction q generalizing k a with
  | zero =>
    cases k with
    | zero => rfl
    | succ k =>
      rcases hstop with hstop | ⟨b, hb, hread⟩
      · cases hstop
      · rw [Nat.add_zero] at hread
        rw [matching, hread]
        exact if_neg hb
  | succ q ih =>
    obtain ⟨k, rfl⟩ : ∃ n, k = n + 1 := ⟨k - 1, by omega⟩
    rw [Nat.add_comm q 1, ← Nat.add_assoc, Nat.add_comm 1 q, Nat.succ_inj] at hstop
    rw [List.replicate_succ] at h
    rw [matching, State.holds_head h]
    dsimp only
    rw [if_pos rfl, ih (State.holds_tail h) (Nat.le_of_succ_le_succ hk) hstop]

/-- The run that stands at the cursor, at the cap, at the end of the input or before a byte that differs, is the one
measured (41 R102). -/
theorem measureRun_of_holds {s : State} {r : Nat} {v : Byte} (h1 : 1 ≤ r) (h383 : r ≤ 383) (hle : s.re.cur + r ≤ s.re.n)
    (h : s.holds .reSrc s.re.cur (List.replicate r v))
    (hstop : r = 383 ∨ s.re.cur + r = s.re.n ∨ ∃ b, b ≠ v ∧ s.readSpace .reSrc (s.re.cur + r) = .ok b) :
    measureRun s = .ok (r, v) := by
  obtain ⟨q, rfl⟩ : ∃ q, r = q + 1 := ⟨r - 1, by omega⟩
  rw [List.replicate_succ] at h
  have hmatch : matching s v (min Config.runMax (s.re.n - s.re.cur) - 1) (s.re.cur + 1) = .ok q := by
    rw [Config.runMax]
    refine matching_of_holds (State.holds_tail h) (by omega) ?_
    rcases hstop with hcap | hend | hbyte
    · exact .inl (by omega)
    · exact .inl (by omega)
    · rw [Nat.add_assoc, Nat.add_comm 1 q]
      exact .inr hbyte
  rw [measureRun, State.holds_head h]
  dsimp only
  rw [hmatch]

/-- A measured run with room for its bytes is emitted (41 R104 to R108). -/
theorem reStep_of_run {s : State} {r : Nat} {v : Byte} (hlt : s.re.cur < s.re.n) (hm : measureRun s = .ok (r, v))
    (hroom : s.re.wo + r ≤ (s.space .reDst).len) :
    ∃ u, s.writeSpace .reDst s.re.wo (emitted r v) = .ok u ∧
      reStep s = .next (u.withRe { s.re with wo := s.re.wo + (emitted r v).length, cur := s.re.cur + r }) := by
  obtain ⟨h1, -⟩ := measure_ok hm hlt
  obtain ⟨hlen, -⟩ := emitted_length_le r v h1
  obtain ⟨u, hu⟩ := State.writeSpace_completes s .reDst s.re.wo (emitted r v) fun _ => by omega
  refine ⟨u, hu, ?_⟩
  rw [reStep, if_pos hlt, hm]
  dsimp only
  rw [reEmit, hu]

/-! ### What is emitted, by the run's length -/

theorem emitted_one (v : Byte) : emitted 1 v = [v] := rfl

theorem emitted_short {r : Nat} (v : Byte) (h : 2 ≤ r ∧ r ≤ 127) : emitted r v = [byteOf (128 + r), v] := by
  obtain ⟨hlo, hhi⟩ := h
  rw [emitted, if_neg (by omega), if_pos hhi, tagOr r (by omega)]

theorem emitted_extended {r : Nat} (v : Byte) (h : 128 ≤ r ∧ r ≤ 255) : emitted r v = [0x81#8, byteOf r, v] := by
  obtain ⟨hlo, hhi⟩ := h
  rw [emitted, if_neg (by omega), if_neg (by omega), if_pos hhi]

theorem emitted_long {r : Nat} (v : Byte) (hlo : 256 ≤ r) (hhi : r ≤ 383) :
    emitted r v = [0x82#8, byteOf (128 + (r - 256)), v] := by
  rw [emitted, if_neg (by omega), if_neg (by omega), if_neg (by omega), tagOr (r - 256) (by omega)]

/-- Settles O22: the run that stands at the cursor is the one measured, and its bytes are the one write. -/
theorem encoderEmitsRun : Obligations.EncoderEmitsRun := by
  intro s r v hlt _ h1 h383 hle hrun hstop hroom
  obtain ⟨u, hu, hstep⟩ := reStep_of_run hlt (measureRun_of_holds h1 h383 hle hrun hstop) hroom
  obtain ⟨e, -, hread, -⟩ := State.writeSpace_ok hu
  exact ⟨_, emitted r v, hstep, fun h => h ▸ emitted_one v, emitted_short v, emitted_extended v,
    fun h => emitted_long v h h383, rfl, e.pq, e.rd, e.bind, hread⟩

theorem reStep_of_end {s : State} (h : s.re.cur = s.re.n) : reStep s = .next (reComplete s) := by
  rw [reStep, if_neg h.not_lt, if_pos h]

/-- Settles O23: completion is the whole step. -/
theorem encoderCompletes : Obligations.EncoderCompletes := fun _ => reStep_of_end

/-! ## A string run by run -/

/-- The bytes counted are equal to `v`. -/
theorem take_of_le_runLength {v : Byte} {n : Nat} {t : List Byte} (h : n ≤ runLength v t) :
    t.take n = List.replicate n v := by
  induction t generalizing n with
  | nil => rw [Nat.le_zero.mp h]; rfl
  | cons b t ih =>
    cases n with
    | zero => rfl
    | succ n =>
      by_cases hb : b = v
      · rw [runLength, if_pos hb] at h
        rw [List.take_succ_cons, ih (Nat.le_of_succ_le_succ h), hb, List.replicate_succ]
      · rw [runLength, if_neg hb] at h
        omega

/-- A string that is not empty begins with a run at the cap or not followed by its own value (41 R102, R103). -/
theorem exists_leading_run (v : Byte) (t : List Byte) :
    ∃ r u, v :: t = List.replicate r v ++ u ∧ 1 ≤ r ∧ r ≤ 383 ∧ (u.head? = some v → r = 383) := by
  obtain ⟨n, hn, hstop⟩ : ∃ n, n ≤ min 382 (runLength v t) ∧ (n = 382 ∨ n = runLength v t) :=
    ⟨_, le_rfl, min_choice _ _⟩
  refine ⟨n + 1, t.drop n, ?_, by omega, by omega, fun hnext => ?_⟩
  · rw [List.replicate_succ, List.cons_append, ← take_of_le_runLength (t := t) (by omega), List.take_append_drop]
  · rcases hstop with rfl | rfl
    · rfl
    · exact absurd hnext (head?_drop_runLength v t)

/-- Induction along the runs RE cuts a string into. -/
theorem run_induction {P : List Byte → Prop} (nil : P [])
    (run : ∀ r v u, 1 ≤ r → r ≤ 383 → (u.head? = some v → r = 383) → P u → P (List.replicate r v ++ u))
    (s : List Byte) : P s :=
  match s with
  | [] => nil
  | v :: t => by
    obtain ⟨r, u, hs, h1, h383, hcap⟩ := exists_leading_run v t
    have hlen : u.length < (v :: t).length := by
      rw [hs, List.length_append, List.length_replicate]
      omega
    rw [hs]
    exact run r v u h1 h383 hcap (run_induction nil run u)
termination_by s.length
decreasing_by exact hlen

/-- Fuel beyond the length of the string changes nothing. -/
theorem runsOf_of_length_le (s : List Byte) (fuel : Nat) (h : s.length ≤ fuel) : runsOf fuel s = runsOf s.length s := by
  induction s using run_induction generalizing fuel with
  | nil => cases fuel <;> rfl
  | run r v u h1 h383 hcap ih =>
    have hlen : (List.replicate r v ++ u).length = r - 1 + u.length + 1 := by
      rw [List.length_append, List.length_replicate]
      omega
    obtain ⟨fuel, rfl⟩ : ∃ n, fuel = n + 1 := ⟨fuel - 1, by omega⟩
    rw [hlen, runsOf_run h1 h383 hcap, runsOf_run h1 h383 hcap, ih fuel (by omega), ih _ (Nat.le_add_left _ _)]

section
variable {r : Nat} {v : Byte} {u : List Byte} (h1 : 1 ≤ r) (h383 : r ≤ 383) (hcap : u.head? = some v → r = 383)
include h1 h383 hcap

theorem runsOf_length_run :
    runsOf (List.replicate r v ++ u).length (List.replicate r v ++ u) = (r, v) :: runsOf u.length u := by
  have hlen : (List.replicate r v ++ u).length ≤ u.length + r - 1 + 1 := by
    rw [List.length_append, List.length_replicate]
    omega
  rw [← runsOf_of_length_le _ _ hlen, runsOf_run h1 h383 hcap, runsOf_of_length_le u _ (by omega)]

/-- RE emits the token of the first run and goes on behind it (41 R103, R111). -/
theorem rleEnc_run : rleEnc (List.replicate r v ++ u) = emitted r v ++ rleEnc u := by
  rw [rleEnc, runsOf_length_run h1 h383 hcap]
  rfl

theorem reTokens_run : reTokens (List.replicate r v ++ u) = runToken r v :: reTokens u := by
  rw [reTokens, runsOf_length_run h1 h383 hcap]
  rfl

end

/-! ## Decoding what RE emits -/

/-- The tokens RE emits stand for the string. -/
theorem expand_reTokens (s : List Byte) : (reTokens s).flatMap Instr.expand = s := by
  induction s using run_induction with
  | nil => rfl
  | run r v u h1 h383 hcap ih =>
    rw [reTokens_run h1 h383 hcap, List.flatMap_cons, ih, Instr.expand, runToken_run v h1, runToken_value]

/-- What RE emits parses to its tokens. -/
theorem decodeStream_rleEnc {s : List Byte} (hs : ∀ b ∈ s, b.toNat < 0x80) :
    decodeStream (rleEnc s).length 0 (rleEnc s) = .ok (reTokens s) := by
  rw [rleEnc_eq_encodeStream]
  refine streamParsesToItsTokens _ _ 0 (fun i hi => ?_) le_rfl
  obtain ⟨r, v, -, h383, hv, rfl⟩ := mem_reTokens hi
  exact runToken_wellFormed h383 (hs v hv)

/-- Settles O51: the stream parses to RE's tokens, and they stand for the string. -/
theorem encodingRoundTrips : Obligations.EncodingRoundTrips := by
  intro s hs
  rw [rleDec, decodeStream_rleEnc hs]
  dsimp only
  rw [expand_reTokens, List.take_length]

/-! ## The length of what RE emits -/

/-- Some three consecutive bytes are equal. -/
def HasTriple (s : List Byte) : Prop :=
  ∃ (k : Nat) (v : Byte), s[k]? = some v ∧ s[k + 1]? = some v ∧ s[k + 2]? = some v

/-- Three consecutive equal bytes stand in the first run or behind it, as none reach across its end. -/
theorem hasTriple_run {r : Nat} {v : Byte} {u : List Byte} (hcap : u.head? = some v → r = 383) :
    HasTriple (List.replicate r v ++ u) ↔ 3 ≤ r ∨ HasTriple u := by
  have hin {k : Nat} (hk : k < r) : (List.replicate r v ++ u)[k]? = some v := by
    rw [List.getElem?_append_left (by rwa [List.length_replicate]), List.getElem?_replicate, if_pos hk]
  have hbehind (k : Nat) : (List.replicate r v ++ u)[r + k]? = u[k]? := by
    rw [List.getElem?_append_right (by rw [List.length_replicate]; omega), List.length_replicate,
      Nat.add_sub_cancel_left]
  constructor
  · rintro ⟨k, w, hw0, hw1, hw2⟩
    by_cases hr : 3 ≤ r
    · exact .inl hr
    · by_cases hk : k < r
      · obtain rfl : w = v := Option.some.inj (hw0.symm.trans (hin hk))
        have hnext : u.head? = some w := by
          rw [List.head?_eq_getElem?, ← hbehind 0]
          obtain hr1 | hr2 : r + 0 = k + 1 ∨ r + 0 = k + 2 := by omega
          · rw [hr1, hw1]
          · rw [hr2, hw2]
        have := hcap hnext
        omega
      · obtain ⟨j, rfl⟩ := Nat.exists_eq_add_of_le (Nat.not_lt.mp hk)
        rw [Nat.add_assoc, hbehind] at hw1 hw2
        rw [hbehind] at hw0
        exact .inr ⟨j, w, hw0, hw1, hw2⟩
  · rintro (hr | ⟨k, w, hw0, hw1, hw2⟩)
    · exact ⟨0, v, hin (by omega), hin (by omega), hin (by omega)⟩
    · rw [← hbehind] at hw0 hw1 hw2
      exact ⟨r + k, w, hw0, hw1, hw2⟩

/-- A run is emitted as long as it is exactly when it is of one or two bytes (41 R112). -/
theorem emitted_length_eq_iff {r : Nat} (v : Byte) (h1 : 1 ≤ r) : (emitted r v).length = r ↔ r ≤ 2 := by
  rw [emitted_eq_encode]
  rcases runToken_cases r v with ⟨hr, e⟩ | ⟨hr, -, e⟩ | ⟨hr, -, e⟩ | ⟨hr, e⟩ <;> rw [e]
  · change 1 = r ↔ r ≤ 2
    omega
  · change 2 = r ↔ r ≤ 2
    omega
  · change 3 = r ↔ r ≤ 2
    omega
  · change 3 = r ↔ r ≤ 2
    omega

/-- Run by run: no run is emitted longer than it is, and as long only where it holds no three equal bytes (41 R112). -/
theorem rleEnc_length (s : List Byte) :
    (rleEnc s).length ≤ s.length ∧ ((rleEnc s).length = s.length ↔ ¬ HasTriple s) := by
  induction s using run_induction with
  | nil => exact ⟨le_rfl, iff_of_true rfl fun ⟨_, _, h, _, _⟩ => nomatch h⟩
  | run r v u h1 h383 hcap ih =>
    obtain ⟨hle, heq⟩ := ih
    obtain ⟨hrun, -⟩ := emitted_length_le r v h1
    have hrunEq := emitted_length_eq_iff v h1
    rw [rleEnc_run h1 h383 hcap, hasTriple_run hcap, not_or, ← heq, List.length_append, List.length_append,
      List.length_replicate]
    omega

/-- Settles O52: the bound and when it is reached, for every string. -/
theorem encodingNeverLonger : Obligations.EncodingNeverLonger := fun s _ => rleEnc_length s

/-! ## Runs longer than the cap -/

/-- A remainder below the cap is one run, or none. -/
theorem rleEnc_replicate_of_lt {r : Nat} (v : Byte) (h : r < 383) :
    rleEnc (List.replicate r v) = if r = 0 then [] else emitted r v := by
  by_cases h0 : r = 0
  · rw [h0]
    rfl
  · have hrun := rleEnc_run (v := v) (u := []) (by omega) h.le nofun
    rw [List.append_nil] at hrun
    rw [if_neg h0, hrun]
    exact List.append_nil _

/-- Each 383 of equal bytes are one token (41 R103). -/
theorem rleEnc_replicate_mul_add (q r : Nat) (v : Byte) :
    rleEnc (List.replicate (383 * q + r) v) =
      (List.replicate q [0x82#8, 0xFF#8, v]).flatten ++ rleEnc (List.replicate r v) := by
  induction q with
  | zero => rw [Nat.mul_zero, Nat.zero_add]; rfl
  | succ q ih =>
    rw [show 383 * (q + 1) + r = 383 + (383 * q + r) by omega, List.replicate_add,
      rleEnc_run (by omega) le_rfl fun _ => rfl, ih, emitted_long v (by omega) le_rfl]
    rfl

/-- Settles O53: the tokens at the cap, and the remainder. -/
theorem longRunsCutAtCap : Obligations.LongRunsCutAtCap := by
  intro m v _
  have hsplit := rleEnc_replicate_mul_add (m / 383) (m % 383) v
  rwa [Nat.div_add_mod, rleEnc_replicate_of_lt v (Nat.mod_lt m (by omega))] at hsplit

/-! ## A running RE call and its output -/

/-- The first bytes of a space after a write right behind them. -/
theorem State.prefixOf_writeSpace {s u : State} {sp : SpaceId} {a : Nat} {out bs : List Byte}
    (hout : (s.space sp).prefixOf a = some out) (hu : s.writeSpace sp a bs = .ok u) :
    (u.space sp).prefixOf (a + bs.length) = some (out ++ bs) := by
  obtain ⟨e, -, hread, -⟩ := State.writeSpace_ok hu
  obtain ⟨rfl, hold⟩ := Buffer.prefixOf_iff.mp hout
  refine Buffer.prefixOf_iff.mpr ⟨List.length_append, fun i hi => ?_⟩
  rw [List.length_append] at hi
  rw [State.space_eq e.bind, hread, ← List.getElem?_eq_getElem]
  by_cases hlt : i < out.length
  · rw [if_neg (by omega), List.getElem?_append_left hlt, List.getElem?_eq_getElem hlt]
    exact hold i hlt
  · rw [if_pos ⟨rfl, by omega, by omega⟩, List.getElem?_append_right (by omega)]

/-- How an RE call with the output `out` ends (41 R111). -/
structure EncoderEnd (out : List Byte) (f : State) : Prop where
  done : f.re.st = .done
  length : f.re.wo = out.length
  output : (f.space .reDst).prefixOf f.re.wo = some out
  warning : f.re.warn = decide (f.re.wo > 8192)

/-- With no input left a call completes with the output written so far. -/
theorem reComplete_end {s : State} {out : List Byte} (hout : (s.space .reDst).prefixOf s.re.wo = some out) :
    EncoderEnd out (reComplete s) := by
  obtain ⟨hlen, -⟩ := Buffer.prefixOf_iff.mp hout
  exact ⟨rfl, hlen.symm, hout, rfl⟩

/-- A running call appends `rleEnc` of the input left to its output, in at most one step for each byte left and one
more. -/
theorem State.Encoding.computes {s : State} {bs out : List Byte} (h : s.Encoding bs)
    (hout : (s.space .reDst).prefixOf s.re.wo = some out) :
    ∃ m f, CallEnds .re m s f ∧ s.re.cur + m ≤ bs.length + 1 ∧ EncoderEnd (out ++ rleEnc (bs.drop s.re.cur)) f := by
  by_cases he : s.re.cur = bs.length
  · refine ⟨1, _, .last h.busy (h.complete he) nofun, by omega, ?_⟩
    rw [he, List.drop_length, rleEnc, runsOf, List.flatMap_nil, List.append_nil]
    exact reComplete_end hout
  · have hlt := lt_of_le_of_ne h.cursor he
    obtain ⟨r, v, u, h1, h383, hrun, hcap, hu, hstep, ht⟩ := h.run_step hlt
    have hout' := State.prefixOf_writeSpace hout hu
    obtain ⟨m, f, hm, hle, hend⟩ := ht.computes hout'
    refine ⟨m + 1, f, .step h.busy hstep hm, ?_, ?_⟩
    · dsimp only [State.withRe_re] at hle
      omega
    · rw [hrun, rleEnc_run h1 h383 hcap, ← List.append_assoc]
      exact hend
termination_by bs.length - s.re.cur
decreasing_by
  dsimp only [State.withRe_re]
  omega

/-- Settles O46: the call walks along its runs with nothing written at its start. -/
theorem encoderCallComputes : Obligations.EncoderCallComputes := by
  intro s t n bs e hbs
  obtain ⟨henc, hcur, hlen⟩ := reStart_encoding e hbs
  have hwo : t.re.wo = 0 := Nat.le_zero.mp (hcur ▸ henc.output)
  have hout : (t.space .reDst).prefixOf t.re.wo = some [] := by rw [hwo]; rfl
  obtain ⟨m, f, hm, hle, hend⟩ := henc.computes hout
  rw [hcur, List.drop_zero, List.nil_append] at hend
  exact ⟨f, hm.runUnit_eq (by omega), hend.done, hend.length, hend.output, hend.warning⟩

end Sys2Proof.Machine

/-! SUPPORT. The tokens of RD: when `fill` completes and what it writes, the decoding of each token's bytes and of the
truncated ones, and the effect of each token. -/

namespace Sys2Proof

/-! ## Truncated tokens -/

/-- A RUNX tag with one byte after it (42 R125). -/
theorem decode_runx_truncated (b1 : Byte) : decode [0x81#8, b1] = .error .noThirdByte := rfl

/-- A RUNL tag with one byte after it (42 R126). -/
theorem decode_runl_truncated {b1 : Byte} (h : 0x80 ≤ b1.toNat) : decode [0x82#8, b1] = .error .noThirdByte :=
  if_pos ⟨rfl, h⟩

/-- The three cases in which a stream ends inside its token (42 R130). -/
theorem decode_error_iff {bs : List Byte} (hne : bs ≠ []) :
    (∃ e, decode bs = .error e) ↔
      (∃ b0, bs = [b0] ∧ 0x80 ≤ b0.toNat) ∨ (∃ b1, bs = [0x81#8, b1]) ∨
        (∃ b1, bs = [0x82#8, b1] ∧ 0x80 ≤ b1.toNat) := by
  constructor
  · rintro ⟨e, he⟩
    cases bs with
    | nil => exact absurd rfl hne
    | cons b0 t =>
      rcases decode_cons b0 t with ⟨-, e'⟩ | ⟨htag, rfl, -⟩ | ⟨b1, rfl, rfl, -⟩ | ⟨_, _, _, -, -, e'⟩ |
        ⟨b1, rfl, hlong, rfl, -⟩ | ⟨_, _, _, -, -, -, e'⟩ | ⟨_, _, -, -, -, -, e'⟩
      · cases e'.symm.trans he
      · exact .inl ⟨b0, rfl, htag⟩
      · exact .inr (.inl ⟨b1, rfl⟩)
      · cases e'.symm.trans he
      · exact .inr (.inr ⟨b1, rfl, hlong⟩)
      · cases e'.symm.trans he
      · cases e'.symm.trans he
  · rintro (⟨b0, rfl, htag⟩ | ⟨b1, rfl⟩ | ⟨b1, rfl, hlong⟩)
    · exact ⟨_, Machine.decode_one htag⟩
    · exact ⟨_, decode_runx_truncated b1⟩
    · exact ⟨_, decode_runl_truncated hlong⟩

theorem Instr.bytes_le_three (i : Instr) : i.bytes ≤ 3 := by
  cases i <;> simp [Instr.bytes]

namespace Machine

/-! ## fill -/

/-- `fill` completes when the indices it writes lie inside `RD.DST`. -/
theorem fill_completes {r : Nat} {s : State} (v : Byte)
    (h : fillCount r s ≠ 0 → s.rd.wr + fillCount r s ≤ (s.space .rdDst).len) : ∃ t, fill r v s = .ok t := by
  refine State.writeSpace_completes s .rdDst s.rd.wr _ fun hne => ?_
  rw [List.length_replicate]
  exact h fun h0 => hne ((List.replicate_eq_nil_iff _).mpr h0)

/-- `fill` that would write beyond `RD.DST` is the fault `outOfSpace` (log entry 12). -/
theorem fill_faults {r : Nat} {s : State} (v : Byte) (h0 : fillCount r s ≠ 0)
    (hlt : (s.space .rdDst).len < s.rd.wr + fillCount r s) : fill r v s = .error .outOfSpace := by
  refine State.writeSpace_faults s .rdDst s.rd.wr _ (fun hnil => h0 ((List.replicate_eq_nil_iff _).mp hnil)) ?_
  rwa [List.length_replicate]

/-- What `fill` writes (42 R131). -/
theorem fill_read {r : Nat} {v : Byte} {s t : State} (h : fill r v s = .ok t) (k : StoreId) (a : Nat) :
    (t.buf k).mem.read a =
      if k = s.bind.store .rdDst ∧ s.rd.wr ≤ a ∧ a < min (s.rd.wr + r) s.rd.olen then some v
      else (s.buf k).mem.read a := by
  obtain ⟨-, -, hread, -⟩ := State.writeSpace_ok h
  have hin : (s.rd.wr ≤ a ∧ a < s.rd.wr + fillCount r s) ↔ (s.rd.wr ≤ a ∧ a < min (s.rd.wr + r) s.rd.olen) := by
    rw [lt_fillCount, Nat.lt_min]
  rw [hread, List.length_replicate, List.getElem?_replicate]
  simp only [hin]
  by_cases hk : k = s.bind.store .rdDst ∧ s.rd.wr ≤ a ∧ a < min (s.rd.wr + r) s.rd.olen
  · have hlt := (hin.mpr hk.2).2
    rw [if_pos hk, if_pos hk, if_pos (by omega)]
  · rw [if_neg hk, if_neg hk]

/-- Settles O13: `fill` has room for the expected length, and is one write to `RD.DST`. -/
theorem fillTruncatesSilently : Obligations.FillTruncatesSilently := by
  intro r v s hroom
  obtain ⟨t, ht⟩ := fill_completes (r := r) v fun h0 => ((fillCount_le r s).2 h0).trans hroom
  obtain ⟨e, -, -, -⟩ := State.writeSpace_ok ht
  exact ⟨t, ht, e.pq, e.re, e.rd, e.bind, fill_read ht⟩

/-- Settles O12: a token stops exactly where its `fill` does. -/
theorem tokenStopsOnlyOutsideSpace : Obligations.TokenStopsOnlyOutsideSpace := by
  intro i s
  rw [exec_eq]
  unfold execToken
  split
  · rename_i h
    rw [fill_faults i.value h.1 h.2]
  · rename_i h
    obtain ⟨u, hu⟩ := fill_completes (r := i.run) (s := s) i.value fun h0 => Nat.le_of_not_lt fun hlt => h ⟨h0, hlt⟩
    rw [hu]
    exact ⟨_, rfl⟩

/-! ## The effect of each token -/

/-- Every token answers a next state, with the effect of 42 R131, R132, when `RD.DST` has room for the expected
length. -/
theorem exec_completes (i : Instr) {s : State} (h : s.rd.olen ≤ (s.space .rdDst).len) :
    ∃ t, exec i s = .next t ∧ TokenDone i.run i.bytes i.value s t := by
  obtain ⟨t, ht⟩ := execToken_completes i.run i.bytes i.value s h
  rw [← exec_eq] at ht
  exact ⟨t, ht, exec_done ht⟩

/-- Settles O7: the dispatch of a byte below 0x80, and the effect of every token. -/
theorem litWritesOneByte : Obligations.LitWritesOneByte := by
  obtain ⟨hlit, -⟩ := dispatchByFirstBytes
  exact ⟨hlit, fun v _ => exec_completes (.lit v)⟩

/-- Settles O8: in the ranges of 42 R124 the bytes are those of a well-formed RUNS. -/
theorem runsWritesRun : Obligations.RunsWritesRun := by
  refine ⟨fun b0 b1 rest h => ?_, fun b0 => decode_one, fun r v _ => exec_completes (.runs r v)⟩
  have hb0 := b0.isLt
  refine decode_of_encode_eq ?_ ?_
  · simp only [Instr.wellFormed, Bool.and_eq_true, decide_eq_true_eq]
    omega
  · simp only [encode, tagOr_sub b0 (by omega), List.cons_append, List.nil_append]

/-- Settles O9: the dispatch of 0x81, its two truncations, and the effect of every token. -/
theorem runxWritesRun : Obligations.RunxWritesRun := by
  obtain ⟨-, -, hrunx, -⟩ := dispatchByFirstBytes
  exact ⟨hrunx, ⟨decode_one (by decide), decode_runx_truncated⟩, fun r v _ => exec_completes (.runx r v)⟩

/-- Settles O10: the dispatch of 0x82 with a long run, its two truncations, and the effect of every token. -/
theorem runlWritesRun : Obligations.RunlWritesRun := by
  obtain ⟨-, -, -, -, hrunl, -⟩ := dispatchByFirstBytes
  refine ⟨fun b1 b2 rest h => ?_, ⟨decode_one (by decide), fun b1 => decode_runl_truncated⟩,
    fun r v _ => exec_completes (.runl r v)⟩
  have hb1 := b1.isLt
  have hrun : b1.toNat - 0x80 + 256 = 256 + b1.toNat % 128 := by omega
  rw [hrun]
  exact hrunl b1 b2 rest h

end Machine

end Sys2Proof

/-! SUPPORT. RD's step: when it raises an error, when it completes, and where it leaves the program counter. -/

namespace Sys2Proof.Machine

/-- Settles O16: the remaining bytes decode to a token, whose step goes on, or are a truncated token, whose step raises
the error. -/
theorem truncatedTokenRaises : Obligations.TruncatedTokenRaises := by
  intro s bs hbusy hlt hlen hb hroom
  have hne : bs ≠ [] := List.ne_nil_of_length_pos (by omega)
  cases hd : decode bs with
  | error e =>
    rw [if_pos ((decode_error_iff hne).mp ⟨e, hd⟩)]
    obtain ⟨hrd, hpq, hre, -, -, -, -, hread, -⟩ := raiseError_rd .malformedStream s.rd.rd s
    exact ⟨_, rdStep_of_truncated hd hb hlt (by omega), hrd, hpq, hre, hread⟩
  | ok pair =>
    obtain ⟨i, rest⟩ := pair
    rw [if_neg fun htrunc => by
      obtain ⟨e, he⟩ := (decode_error_iff hne).mpr htrunc
      cases hd.symm.trans he]
    obtain ⟨t, ht, hrd, -⟩ := exec_completes i hroom
    refine ⟨t, (rdStep_of_decode hd hb (by omega)).trans ht, ?_⟩
    rw [hrd]
    exact ⟨hbusy, rfl, rfl⟩

/-- Settles O17: at the end of the stream completion is the whole step. -/
theorem decoderCompletes : Obligations.DecoderCompletes := by
  intro s hend
  obtain ⟨hrd, hpq, hre, hbind, -, -, -, hread, -⟩ := rdComplete_spec s
  exact ⟨_, rdStep_of_end hend, hrd, hpq, hre, hbind, hread⟩

/-- Settles O18: a token moves the program counter by its own one to three bytes, which the stream holds; a truncated
token and the end of the stream leave it and end the call. -/
theorem programCounterAdvances : Obligations.ProgramCounterAdvances := by
  intro s t hbusy h
  rcases unitStep_next h with ⟨-, hstep⟩ | ⟨hidle, -⟩
  · rcases rdStep_next hstep with ⟨i, bs, rest, -, hd, -, hle, he⟩ | ⟨hlt, -, rfl⟩ | ⟨hend, rfl⟩
    · obtain ⟨hrd, -⟩ := exec_done he
      have hbytes := decode_length hd
      have hpos := i.bytes_pos
      have hthree := i.bytes_le_three
      rw [hrd]
      exact .inl ⟨hbusy, by dsimp only; omega, by dsimp only; omega, by dsimp only; omega⟩
    · obtain ⟨hrd, -⟩ := raiseError_rd .malformedStream s.rd.rd s
      rw [hrd]
      exact .inr ⟨rfl, .inr ⟨rfl, hlt⟩⟩
    · obtain ⟨hrd, -⟩ := rdComplete_spec s
      rw [hrd]
      exact .inr ⟨rfl, .inl ⟨rfl, hend⟩⟩
  · exact absurd hbusy hidle

end Sys2Proof.Machine

/-! SUPPORT. An RD call from its START to its end, against the parse of its stream and the bytes its tokens stand for. -/

namespace Sys2Proof.Machine

/-- The tokens a call has executed stand for the bytes `out`: `RD.wr` counts them all, and those below `RD.olen` stand in
`RD.DST` (42 R131, R132). -/
structure State.Expanded (s : State) (out : List Byte) : Prop where
  length : s.rd.wr = out.length
  bytes : ∀ a, a < s.rd.olen → (h : a < out.length) → (s.space .rdDst).mem.read a = some out[a]

/-- Each token adds the bytes it stands for. -/
theorem State.Expanded.token {s t : State} {out : List Byte} {i : Instr} {len : Nat} (h : s.Expanded out)
    (hd : TokenDone i.run len i.value s t) : t.Expanded (out ++ i.expand) := by
  obtain ⟨hrd, hread⟩ := hd
  have hwr := h.length
  refine ⟨?_, fun a ha hlt => ?_⟩
  · rw [hrd, List.length_append, Instr.expand, List.length_replicate, ← hwr]
  · rw [hrd] at ha
    rw [List.length_append, Instr.expand, List.length_replicate] at hlt
    rw [hread]
    by_cases hold : a < out.length
    · rw [if_neg (by omega), List.getElem_append_left hold]
      exact h.bytes a ha hold
    · rw [if_pos ⟨by omega, by omega, ha⟩, List.getElem_append_right (by omega)]
      simp only [Instr.expand, List.getElem_replicate]

/-- Completion keeps the bytes written (42 R136). -/
theorem State.Expanded.complete {s : State} {out : List Byte} (h : s.Expanded out) : (rdComplete s).Expanded out := by
  obtain ⟨hrd, -⟩ := rdComplete_spec s
  have hwr := h.length
  refine ⟨by rw [hrd]; exact hwr, fun a ha hlt => ?_⟩
  rw [hrd] at ha
  rw [rdComplete_output, if_neg (by omega)]
  exact h.bytes a ha hlt

/-- The output bytes that are defined are the first `RD.olen` of the bytes expanded. -/
theorem State.Expanded.prefixOf {s : State} {out : List Byte} (h : s.Expanded out) :
    (s.space .rdDst).prefixOf (out.take s.rd.olen).length = some (out.take s.rd.olen) := by
  refine Buffer.prefixOf_iff.mpr ⟨rfl, fun a ha => ?_⟩
  rw [List.length_take] at ha
  rw [List.getElem_take]
  exact h.bytes a (by omega) (by omega)

/-- How the call running in `s` ends when the stream left parses to a result and the bytes expanded so far are `out`
(42 R137). -/
inductive DecoderEnd (s : State) (out : List Byte) : Except Nat (List Instr) → State → Prop
  | done {is : List Instr} {f : State} (hst : f.rd.st = .done) (hrd : f.rd.rd = s.rd.clen)
      (holen : f.rd.olen = s.rd.olen) (hout : f.Expanded (out ++ is.flatMap Instr.expand)) :
      DecoderEnd s out (.ok is) f
  | failed {p : Nat} {f : State} (hst : f.rd.st = .err) (herr : f.rd.err = .malformedStream) (hinfo : f.rd.einfo = p) :
      DecoderEnd s out (.error p) f

/-- A call that ends as the stream after a token says ends as the stream with the token says. -/
theorem DecoderEnd.of_token {s t f : State} {out : List Byte} {bs rest : List Byte} {i : Instr} {fuel p : Nat}
    (hd : decode bs = .ok (i, rest)) (hdone : TokenDone i.run i.bytes i.value s t)
    (h : DecoderEnd t (out ++ i.expand) (decodeStream fuel (p + (encode i).length) rest) f) :
    DecoderEnd s out (decodeStream (fuel + 1) p bs) f := by
  obtain ⟨hrd, -⟩ := hdone
  rw [decodeStream_cons hd]
  cases hp : decodeStream fuel (p + (encode i).length) rest with
  | error q =>
    rw [hp] at h
    cases h with
    | failed hst herr hinfo => exact .failed hst herr hinfo
  | ok is =>
    rw [hp] at h
    cases h with
    | done hst hcur holen hout =>
      rw [hrd] at hcur holen
      rw [List.append_assoc, ← List.flatMap_cons] at hout
      exact .done hst hcur holen hout

/-- An ended call has ended where it stands. -/
theorem CallEnds.eq_of_ended {u : UnitId} {m : Nat} {s f : State} (h : CallEnds u m s f) (hs : s.st u ≠ .busy) :
    f = s := by
  cases h with
  | ended => rfl
  | step hb => exact absurd hb hs

theorem decodeStream_nil (fuel p : Nat) : decodeStream fuel p [] = .ok [] := by
  cases fuel <;> rfl

/-- A running call ends as the parse of the stream left says, along its steps (42 R137). -/
theorem State.Decoding.computes {m : Nat} {s f : State} (hf : CallEnds .rd m s f) {bs out : List Byte} {fuel : Nat}
    (h : s.Decoding bs) (hout : s.Expanded out) (hfuel : bs.length ≤ s.rd.rd + fuel) :
    DecoderEnd s out (decodeStream fuel s.rd.rd (bs.drop s.rd.rd)) f := by
  induction hf generalizing out fuel with
  | ended hidle => exact absurd h.busy hidle
  | @step m s t f _ hstep hrest ih =>
    by_cases he : s.rd.rd = bs.length
    · cases (h.complete he).symm.trans hstep
      obtain rfl := hrest.eq_of_ended nofun
      rw [he, List.drop_length, decodeStream_nil]
      refine .done rfl (he.trans h.length.symm) rfl ?_
      rw [List.flatMap_nil, List.append_nil]
      exact hout.complete
    · have hlt := lt_of_le_of_ne h.cursor he
      obtain ⟨fuel, rfl⟩ : ∃ n, fuel = n + 1 := ⟨fuel - 1, by omega⟩
      cases hd : decode (bs.drop s.rd.rd) with
      | error e =>
        cases (h.truncated hlt hd).symm.trans hstep
        obtain rfl := hrest.eq_of_ended nofun
        rw [decodeStream_error hd (by simpa using hlt)]
        exact .failed rfl rfl rfl
      | ok pair =>
        obtain ⟨i, rest⟩ := pair
        obtain ⟨t', hstep', ht, hdone⟩ := h.token hd
        cases hstep'.symm.trans hstep
        obtain ⟨-, -, hbytes⟩ := decodeThenEncode _ _ _ hd
        have hcur : t.rd.rd = s.rd.rd + (encode i).length := by rw [hdone.1, hbytes]
        have hpos := i.bytes_pos
        have hend := ih ht (hout.token hdone) (fuel := fuel) (by omega)
        rw [hcur, hbytes, ← List.drop_drop, ← decode_rest hd, ← hbytes] at hend
        exact hend.of_token hd hdone

/-- Settles O47: the call, which starts with nothing expanded, ends in its step count as the parse of its stream says. -/
theorem decoderCallComputes : Obligations.DecoderCallComputes := by
  intro s t clen olen bs e hbs
  obtain ⟨hlen, -⟩ := Buffer.prefixOf_iff.mp hbs
  have hdec := rdStart_decoding e hbs
  obtain ⟨f, hf⟩ := hdec.ends (fuel := bs.length) (Nat.le_add_left _ _)
  obtain ⟨-, -, -, -, -, -, -, rfl⟩ := rdStart_next e
  have hend := hdec.computes hf (out := []) ⟨rfl, nofun⟩ (fuel := bs.length) (Nat.le_add_left _ _)
  refine ⟨f, hf.runUnit_eq (Nat.succ_le_succ ((tokensIn_le_length _ _).trans_eq hlen)), ?_⟩
  dsimp only [State.withRd_rd] at hend
  rw [List.drop_zero] at hend
  unfold rleDec
  cases hparse : decodeStream bs.length 0 bs with
  | error p =>
    rw [hparse] at hend
    cases hend with
    | failed hst herr hinfo => exact ⟨hst, herr, hinfo⟩
  | ok is =>
    rw [hparse] at hend
    cases hend with
    | done hst hrd holen hout =>
      have hpre := hout.prefixOf
      rw [holen] at hpre
      exact ⟨hst, hout.length, hrd, hpre⟩

end Sys2Proof.Machine

/-! SUPPORT. The file record: the integers and palette entries of a file read back as written, where the fields of a
record's file stand (43 R151 to R155), and the two statements that follow. -/

namespace Sys2Proof.Machine

/-! ## Integers and palette entries -/

/-- Four little-endian bytes hold every integer below 2^32 (43 R152). -/
theorem leValue_le32 {x : Nat} (h : x < 4294967296) : leValue (le32 x) = x := by
  simp only [leValue, le32, byteOf_toNat]
  omega

/-- The integer at an offset where the bytes of `x` stand. -/
theorem intAt_eq {file rest : List Byte} {off x : Nat} (hx : x < 4294967296) (h : file.drop off = le32 x ++ rest) :
    intAt file off = x := by
  have hlen : (le32 x).length = 4 := rfl
  rw [intAt, h, ← hlen, List.take_left, leValue_le32 hx]

@[simp] theorem length_entries (ps : List Rgb) : (ps.flatMap entryBytes).length = ps.length * Config.palEntryLen := by
  induction ps with
  | nil => rfl
  | cons p ps ih =>
    rw [List.flatMap_cons, List.length_append, ih, List.length_cons, Nat.succ_mul, Nat.add_comm]
    rfl

/-- The entries of a palette read back, whatever bytes follow them (43 R153). -/
theorem readEntries_entries (ps : List Rgb) (rest : List Byte) :
    readEntries ps.length (ps.flatMap entryBytes ++ rest) = ps := by
  induction ps with
  | nil => rfl
  | cons p ps ih => exact congrArg (p :: ·) ih

/-! ## The layout of a record's file -/

/-- The palette entries and the payload follow the header (43 R155). -/
theorem serialize_drop_hdrLen (f : FileRecord) :
    (serialize f).drop Config.hdrLen = f.palette.flatMap entryBytes ++ f.payload := rfl

/-- The payload stands at `data_offset` and ends the file (43 R154, R155). -/
theorem serialize_drop_dataOffset (f : FileRecord) : (serialize f).drop f.dataOffset = f.payload := by
  rw [FileRecord.dataOffset, ← List.drop_drop, serialize_drop_hdrLen, ← length_entries, List.drop_left]

@[simp] theorem length_serialize (f : FileRecord) : (serialize f).length = f.totalSize := by
  have hheader : (serialize f).length = (f.palette.flatMap entryBytes ++ f.payload).length + Config.hdrLen := rfl
  rw [hheader, List.length_append, length_entries, FileRecord.totalSize, FileRecord.dataOffset]
  omega

/-- The header's integers read back from a file whose integers fit in 32 bits (43 R151, R155); `data_offset` and the
number of palette entries then fit too. -/
theorem serialize_ints {f : FileRecord} (ht : f.totalSize < 4294967296) (hw : f.width < 4294967296)
    (hh : f.height < 4294967296) :
    intAt (serialize f) 2 = f.totalSize ∧ intAt (serialize f) 10 = f.dataOffset ∧ intAt (serialize f) 14 = f.width ∧
      intAt (serialize f) 18 = f.height ∧ intAt (serialize f) 26 = f.palette.length := by
  have hoff : f.dataOffset < 4294967296 := lt_of_le_of_lt (Nat.le_add_right _ _) ht
  have hcount : f.palette.length < 4294967296 := by
    simp only [FileRecord.dataOffset, Config.hdrLen, Config.palEntryLen] at hoff
    omega
  exact ⟨intAt_eq ht rfl, intAt_eq hoff rfl, intAt_eq hw rfl, intAt_eq hh rfl, intAt_eq hcount rfl⟩

/-! ## The record and the worked example -/

/-- Parsing undoes serializing where the header's integers fit: no check of 43 R156 to R159 fails, and each field is
read from where it was written. -/
theorem parse_serialize {f : FileRecord} (ht : f.totalSize < 4294967296) (hw : f.width < 4294967296)
    (hh : f.height < 4294967296) : parse (serialize f) = .value f := by
  obtain ⟨htotal, hoffset, hwidth, hheight, hcount⟩ := serialize_ints ht hw hh
  have hmagic : (serialize f).take 2 = magic := rfl
  have hpalette : Config.hdrLen + Config.palEntryLen * f.palette.length = f.dataOffset := by
    rw [FileRecord.dataOffset, Nat.mul_comm]
  have hpayload : f.totalSize - f.dataOffset = f.payload.length := Nat.add_sub_cancel_left _ _
  have hle : f.dataOffset ≤ f.totalSize := Nat.le_add_right _ _
  have hheader : Config.hdrLen ≤ f.dataOffset := Nat.le_add_right _ _
  simp only [parse, htotal, hoffset, hwidth, hheight, hcount, length_serialize, hpalette, serialize_drop_hdrLen,
    readEntries_entries, serialize_drop_dataOffset, hpayload, List.take_length]
  rw [if_neg (not_not_intro hmagic), if_neg (by omega), if_neg (by omega), if_neg (lt_irrefl _)]

/-- Settles O57: the parse reads each field where serializing put it, and the file is as long as its header says. -/
theorem recordRoundTrips : Obligations.RecordRoundTrips := fun f ht hw hh =>
  ⟨parse_serialize ht hw hh, length_serialize f⟩

/-- An image PQ accepts is encoded to the record of its palette and the RLE of its indices (44 R172). -/
theorem facadeEncode_of_pqCall {pixels : List Byte} {w h : Nat} {palette : List Rgb} {indices : List Byte}
    (hw : w ≤ Config.maxW) (hh : h ≤ Config.maxH) (hlen : pixels.length = 3 * (w * h))
    (hpq : pqCall (toPixels pixels) = .ok (palette, indices)) :
    facadeEncode pixels w h =
      .value (serialize ⟨w, h, palette, rleEnc indices⟩, oversize (rleEnc indices).length) := by
  rw [facadeEncode, if_neg (by omega), if_neg (not_not_intro hlen), hpq]

/-- Settles O59: PQ finds one colour and two equal indices, whose one run RE writes as the two bytes `82 00`. -/
theorem workedExampleFile : Obligations.WorkedExampleFile := by
  have hpq : pqCall (toPixels [10, 20, 30, 10, 20, 30]) = .ok ([⟨10, 20, 30⟩], [0, 0]) := by decide
  have hrle : rleEnc [0, 0] = [0x82, 0] := by decide
  unfold Obligations.WorkedExampleFile
  rw [facadeEncode_of_pqCall (by decide) (by decide) rfl hpq, hrle]
  decide

end Sys2Proof.Machine

/-! SUPPORT. The façade: the bytes of a pixel buffer are those of its pixels, PQ's indices look up to the pixels, and
the two statements on encoding and decoding whole images (44 R171, R178). -/

namespace Sys2Proof.Machine

/-! ## Pixel bytes and indices -/

/-- The bytes of a buffer of whole pixels are those of its pixels, in order (20 R41). -/
theorem flatMap_pixelBytes_toPixels {n : Nat} {bs : List Byte} (h : bs.length = 3 * n) :
    (toPixels bs).flatMap pixelBytes = bs := by
  induction n generalizing bs with
  | zero => rw [List.length_eq_zero_iff.mp h]; rfl
  | succ n ih =>
    match bs, h with
    | r :: g :: b :: t, h =>
      simp only [List.length_cons] at h
      exact congrArg (fun u => r :: g :: b :: u) (ih (by omega))

/-- The lookup of the byte of a number below 256 (44 R176). -/
theorem lookup_byteOf {palette : List Rgb} {j : Nat} (h : j < 256) : lookup palette (byteOf j) = palette[j]? := by
  rw [lookup, byteOf_toNat, Nat.mod_eq_of_lt h]

/-- The index of a colour among at most 128 distinct ones fits below the tag bit (40 R92). -/
theorem byteOf_idxOf_firsts_lt {cs : List Rgb} {c : Rgb} (hle : (firsts cs).length ≤ 128) (hc : c ∈ cs) :
    (byteOf ((firsts cs).idxOf c)).toNat < 0x80 := by
  have hlt := List.idxOf_lt_length_of_mem (mem_firsts.mpr hc)
  rw [byteOf_toNat]
  omega

/-- PQ's index of a colour looks up to the colour (40 R88, 44 R176). -/
theorem lookup_idxOf_firsts {cs : List Rgb} {c : Rgb} (hle : (firsts cs).length ≤ 128) (hc : c ∈ cs) :
    lookup (firsts cs) (byteOf ((firsts cs).idxOf c)) = some c := by
  have hlt := List.idxOf_lt_length_of_mem (mem_firsts.mpr hc)
  rw [lookup_byteOf (by omega), List.getElem?_eq_getElem hlt, List.getElem_idxOf hlt]

/-- Indices that each look up to their pixel look up, in order, to the pixels. -/
theorem mapM_lookup_map {palette : List Rgb} {index : Rgb → Byte} {cs : List Rgb}
    (h : ∀ c ∈ cs, lookup palette (index c) = some c) : (cs.map index).mapM (lookup palette) = some cs := by
  induction cs with
  | nil => rfl
  | cons c cs ih =>
    obtain ⟨hc, hcs⟩ := List.forall_mem_cons.mp h
    rw [List.map_cons, List.mapM_cons, hc, ih hcs]
    rfl

/-- PQ's result: as many indices as pixels, all below the tag bit, that look up to the pixels (40 R88, R92, 44 R176). -/
theorem pqCall_lookup {cs palette : List Rgb} {indices : List Byte} (h : pqCall cs = .ok (palette, indices)) :
    palette.length ≤ 128 ∧ indices.length = cs.length ∧ (∀ b ∈ indices, b.toNat < 0x80) ∧
      indices.mapM (lookup palette) = some cs := by
  obtain ⟨hle, rfl, rfl⟩ := pqCall_ok h
  refine ⟨hle, List.length_map _, ?_, mapM_lookup_map fun c hc => lookup_idxOf_firsts hle hc⟩
  exact List.forall_mem_map.mpr fun c hc => byteOf_idxOf_firsts_lt hle hc

/-! ## Whole images -/

/-- The file of indices with a palette entry each, as many as the image has pixels, decodes to their pixels
(44 R174 to R176). -/
theorem facadeDecode_serialize {w h : Nat} {palette ps : List Rgb} {indices : List Byte} (hw : w ≤ 320)
    (hh : h ≤ 90) (hpal : palette.length ≤ 128) (hlen : indices.length = w * h) (hlow : ∀ b ∈ indices, b.toNat < 0x80)
    (hps : indices.mapM (lookup palette) = some ps) :
    facadeDecode (serialize ⟨w, h, palette, rleEnc indices⟩) = .value (ps.flatMap pixelBytes, w, h) := by
  have harea : w * h ≤ 320 * 90 := Nat.mul_le_mul hw hh
  have hpayload : (rleEnc indices).length ≤ w * h := hlen ▸ (rleEnc_length indices).1
  have htotal : (FileRecord.mk w h palette (rleEnc indices)).totalSize < 4294967296 := by
    simp only [FileRecord.totalSize, FileRecord.dataOffset, Config.hdrLen, Config.palEntryLen]
    omega
  have hparse := parse_serialize htotal (lt_of_le_of_lt hw (by decide)) (lt_of_le_of_lt hh (by decide))
  have hlengths : ¬ (Config.lenMax < (rleEnc indices).length ∨ Config.lenMax < w * h) := by
    rw [Config.lenMax]
    omega
  have hdec : rleDec (rleEnc indices) (w * h) = .ok (indices, w * h) := hlen ▸ encodingRoundTrips indices hlow
  simp only [facadeDecode, hparse, if_neg hlengths, hdec, hlen, lt_irrefl, if_false, hps]

/-- Settles O58: the encoded file holds PQ's palette and the RLE of PQ's indices, which decode to the indices and
look up to the pixels. -/
theorem facadeRoundTrips : Obligations.FacadeRoundTrips := by
  intro pixels w h hw hh hlen hle
  have hpq := pqCall_of_length_le hle
  obtain ⟨hpal, hcount, hlow, hlookup⟩ := pqCall_lookup hpq
  rw [length_toPixels hlen] at hcount
  refine ⟨_, _, facadeEncode_of_pqCall hw hh hlen hpq, ?_⟩
  rw [facadeDecode_serialize hw hh hpal hcount hlow hlookup, flatMap_pixelBytes_toPixels hlen]

/-- Settles O60: the test of the dimensions is the façade's first. -/
theorem dimensionsTestedFirst : Obligations.DimensionsTestedFirst := fun _ _ _ h => if_pos h

end Sys2Proof.Machine

/-! SUPPORT. What a step leaves as it was: the registers of a unit that is not BUSY, whose error only the host can clear,
and the other instances of a platform (60 R196, R205, R222). -/

namespace Sys2Proof.Machine

/-! ## A unit that is not BUSY -/

/-- A step of the block while unit `v` is not BUSY is a step of another unit, no step of a unit, or an operation of the
host (10_state R13). -/
theorem step_next_of_not_busy {v : UnitId} {s t : State} (hv : s.st v ≠ .busy) (h : step s = .next t) :
    (∃ u rest, u ≠ v ∧ UnitFrame u (s.withAgenda rest) t) ∨ (∃ rest, t = s.withAgenda rest) ∨
      ∃ op rest, s.agenda = .host op :: rest ∧ hostStep op (s.withAgenda rest) = .next t := by
  have other {u : UnitId} (hu : s.st u = .busy) : u ≠ v := fun huv => hv (huv ▸ hu)
  rcases step_next h with ⟨u, _, hu, hs⟩ | ⟨_, _, rfl⟩ | ⟨u, rest, _, hs⟩ | hhost
  · exact .inl ⟨u, s.agenda, other hu, busyStep_frame hs⟩
  · exact .inr (.inl ⟨t.agenda, rfl⟩)
  · rcases unitStep_next hs with ⟨hu, hs⟩ | ⟨_, rfl⟩
    · exact .inl ⟨u, rest, other hu, busyStep_frame hs⟩
    · exact .inr (.inl ⟨rest, rfl⟩)
  · exact .inr (.inr hhost)

/-- The host changes PQ's registers by `PQ.START` or the reset event alone, and RD's by `RD.START` or the reset event
alone. -/
theorem hostStep_keeps_registers {op : HostOp} {s t : State} (h : hostStep op s = .next t) :
    (t.pq = s.pq ∨ (∃ w h, op = .pqStart w h) ∨ op = .resetEvent) ∧
      (t.rd = s.rd ∨ (∃ clen olen, op = .rdStart clen olen) ∨ op = .resetEvent) := by
  cases op with
  | pqStart w h' =>
    obtain ⟨-, -, -, -, -, -, rfl⟩ := pqStart_next h
    exact ⟨.inr (.inl ⟨w, h', rfl⟩), .inl rfl⟩
  | reStart n =>
    obtain ⟨-, -, -, -, -, -, rfl⟩ := reStart_next h
    exact ⟨.inl rfl, .inl rfl⟩
  | rdStart clen olen =>
    obtain ⟨-, -, -, -, -, -, -, rfl⟩ := rdStart_next h
    exact ⟨.inl rfl, .inr (.inl ⟨clen, olen, rfl⟩)⟩
  | provide k len =>
    obtain ⟨-, rfl⟩ := provide_next h
    exact ⟨.inl rfl, .inl rfl⟩
  | place k pos bytes =>
    obtain ⟨-, -, rfl⟩ := place_next h
    exact ⟨.inl rfl, .inl rfl⟩
  | handOver sp k =>
    obtain ⟨-, -, rfl⟩ := handOver_next h
    exact ⟨.inl rfl, .inl rfl⟩
  | resetEvent => exact ⟨.inr (.inr rfl), .inr (.inr rfl)⟩

/-- While PQ is not BUSY its registers stay, but for its START and the reset event. -/
theorem step_keeps_pq {s t : State} (hb : s.pq.st ≠ .busy) (h : step s = .next t) :
    t.pq = s.pq ∨ (∃ w h rest, s.agenda = .host (.pqStart w h) :: rest) ∨
      ∃ rest, s.agenda = .host .resetEvent :: rest := by
  rcases step_next_of_not_busy (v := .pq) hb h with ⟨u, _, hu, hf⟩ | ⟨_, rfl⟩ | ⟨op, rest, ha, hs⟩
  · exact .inl (hf.pq hu)
  · exact .inl rfl
  · rcases (hostStep_keeps_registers hs).1 with hpq | ⟨w, h', rfl⟩ | rfl
    · exact .inl hpq
    · exact .inr (.inl ⟨w, h', rest, ha⟩)
    · exact .inr (.inr ⟨rest, ha⟩)

/-- While RD is not BUSY its registers stay, but for its START and the reset event. -/
theorem step_keeps_rd {s t : State} (hb : s.rd.st ≠ .busy) (h : step s = .next t) :
    t.rd = s.rd ∨ (∃ clen olen rest, s.agenda = .host (.rdStart clen olen) :: rest) ∨
      ∃ rest, s.agenda = .host .resetEvent :: rest := by
  rcases step_next_of_not_busy (v := .rd) hb h with ⟨u, _, hu, hf⟩ | ⟨_, rfl⟩ | ⟨op, rest, ha, hs⟩
  · exact .inl (hf.rd hu)
  · exact .inl rfl
  · rcases (hostStep_keeps_registers hs).2 with hrd | ⟨clen, olen, rfl⟩ | rfl
    · exact .inl hrd
    · exact .inr (.inl ⟨clen, olen, rest, ha⟩)
    · exact .inr (.inr ⟨rest, ha⟩)

/-- Settles O34: a unit in ERR is not BUSY, so its registers stay but for the two operations named. -/
theorem errorHeldUntilStart : Obligations.ErrorHeldUntilStart := by
  intro s t h
  constructor
  · intro herr
    exact (step_keeps_pq (by simp [herr]) h).imp_left fun hpq => by simp [hpq, herr]
  · intro herr
    exact (step_keeps_rd (by simp [herr]) h).imp_left fun hrd => by simp [hrd, herr]

/-! ## The instances of a platform -/

/-- Everything a step of the `k`-th block can do, if it answers a next platform. -/
theorem platformStep_next {k : Nat} {p q : List State} (h : platformStep k p = .next q) :
    (p[k]? = none ∧ q = p) ∨ ∃ s t, p[k]? = some s ∧ step s = .next t ∧ q = p.set k t := by
  unfold platformStep at h
  split at h
  · rename_i hk
    cases h
    exact .inl ⟨hk, rfl⟩
  · rename_i s hk
    split at h
    · rename_i t hs
      cases h
      exact .inr ⟨s, t, hk, hs, rfl⟩
    · cases h
    · cases h

/-- Settles O37: the list changes at the place `k` alone, where the block's own next state is put. -/
theorem instancesIndependent : Obligations.InstancesIndependent := by
  intro k p q h
  rcases platformStep_next h with ⟨hk, rfl⟩ | ⟨s, t, hk, hs, rfl⟩
  · refine ⟨rfl, fun _ _ => rfl, fun s hsome => ?_⟩
    rw [hk] at hsome
    cases hsome
  · refine ⟨List.length_set, fun j hj => List.getElem?_set_ne hj.symm, fun s' hsome => ?_⟩
    obtain rfl : s = s' := Option.some.inj (hk.symm.trans hsome)
    obtain ⟨hlt, -⟩ := List.getElem?_eq_some_iff.mp hk
    exact ⟨t, hs, List.getElem?_set_self hlt⟩

end Sys2Proof.Machine

/-! SUPPORT. The block at reset and after the reset event, and the STARTs that are refused (70 R210, R218 to R222). -/

namespace Sys2Proof.Machine

/-! ## The STARTs that are refused -/

/-- An operation that neither faults nor answers a next state is refused. -/
theorem exists_refused_of_not_next {o : Host.Outcome State Fault Refusal} (hf : ∀ f, o ≠ .fault f)
    (hn : ∀ t, o ≠ .next t) : ∃ r, o = .refused r := by
  cases o with
  | next t => exact absurd rfl (hn t)
  | fault f => exact absurd rfl (hf f)
  | refused r => exact ⟨r, rfl⟩

/-- A PQ.START that fails one of its conditions is refused (20 R41, R55; 70 R218 to R220). -/
theorem pqStart_refused {s : State} {w h : Nat}
    (hill : s.pq.st = .busy ∨ 16777216 < w * h ∨ (s.space .pqPix).len ≠ 3 * (w * h) ∨
      (s.space .pqIdx).len < w * h ∨ s.disjointFor .pq = false) : ∃ r, pqStart w h s = .refused r := by
  refine exists_refused_of_not_next (pqStart_not_fault w h s) fun t ht => ?_
  obtain ⟨hmax, hidle, hdisj, hpix, hidx, -, -⟩ := pqStart_next ht
  rcases hill with hb | hl | hp | hi | hd
  · exact hidle hb
  · exact Nat.not_lt.mpr hmax hl
  · exact hp hpix
  · exact Nat.not_lt.mpr hidx hi
  · exact Bool.false_ne_true (hd.symm.trans hdisj)

/-- An RE.START that fails one of its conditions is refused (20 R55; 41 R113; 70 R218 to R220). -/
theorem reStart_refused {s : State} {n : Nat}
    (hill : s.re.st = .busy ∨ 16777216 < n ∨ (s.space .reSrc).len < n ∨ (s.space .reDst).len < n ∨
      s.disjointFor .re = false ∨
      ∃ (a : Nat) (v : Byte), a < n ∧ (s.space .reSrc).mem.read a = some v ∧ 0x80 ≤ v.toNat) :
    ∃ r, reStart n s = .refused r := by
  refine exists_refused_of_not_next (reStart_not_fault n s) fun t ht => ?_
  obtain ⟨hmax, hidle, hdisj, hsrc, hdst, hbelow, -⟩ := reStart_next ht
  rcases hill with hb | hl | hs | ho | hd | ⟨a, v, ha, hv, htag⟩
  · exact hidle hb
  · exact Nat.not_lt.mpr hmax hl
  · exact Nat.not_lt.mpr hsrc hs
  · exact Nat.not_lt.mpr hdst ho
  · exact Bool.false_ne_true (hd.symm.trans hdisj)
  · obtain ⟨v', hv', hlt⟩ := State.sourceBelow80_iff.mp hbelow a ha
    obtain rfl : v = v' := Option.some.inj (hv.symm.trans hv')
    exact Nat.not_lt.mpr htag hlt

/-- An RD.START that fails one of its conditions is refused (20 R55; 70 R218 to R220). -/
theorem rdStart_refused {s : State} {clen olen : Nat}
    (hill : s.rd.st = .busy ∨ 16777216 < clen ∨ 16777216 < olen ∨ (s.space .rdSrc).len < clen ∨
      (s.space .rdDst).len < olen ∨ s.disjointFor .rd = false) : ∃ r, rdStart clen olen s = .refused r := by
  refine exists_refused_of_not_next (rdStart_not_fault clen olen s) fun t ht => ?_
  obtain ⟨hcmax, homax, hidle, hdisj, hsrc, hdst, -, -⟩ := rdStart_next ht
  rcases hill with hb | hc | ho | hs | hr | hd
  · exact hidle hb
  · exact Nat.not_lt.mpr hcmax hc
  · exact Nat.not_lt.mpr homax ho
  · exact Nat.not_lt.mpr hsrc hs
  · exact Nat.not_lt.mpr hdst hr
  · exact Bool.false_ne_true (hd.symm.trans hdisj)

/-- Settles O28: an accepted START meets every condition, and a START never faults, so one that fails a condition is
refused, whichever of them the block finds first. -/
theorem illegalStartsRefused : Obligations.IllegalStartsRefused :=
  fun _ _ _ _ _ _ => ⟨pqStart_refused, reStart_refused, rdStart_refused⟩

/-! ## The state after reset -/

/-- At reset every unit is IDLE (70 R210). -/
@[simp] theorem reset_st (u : UnitId) : State.reset.st u = .idle := by
  cases u <;> rfl

/-- At reset every byte array is empty (log entries 6, 7). -/
@[simp] theorem reset_buf (k : StoreId) : State.reset.buf k = { len := 0, mem := [], draw := 0, losses := [] } :=
  Vector.getElem_replicate k.isLt

/-- The reset event puts every unit's state where `State.reset` has it (70 R222). -/
theorem resetEvent_st (s : State) (u : UnitId) : (resetEvent s).st u = State.reset.st u := by
  cases u <;> rfl

/-- Settles O33: the reset event sets the units' states as `State.reset` has them, and empties every byte array. -/
theorem resetLeavesUnitsIdle : Obligations.ResetLeavesUnitsIdle := by
  refine ⟨reset_st, fun k a => ?_, fun s => ⟨resetEvent s, rfl, fun u => ?_, fun k a => ?_⟩⟩
  · rw [reset_buf, Memory.read_nil]
  · rw [resetEvent_st, reset_st]
  · rw [resetEvent_buf]
    exact ⟨Memory.read_nil a, rfl⟩

/-! ## The invariant at reset -/

theorem reset_wf : State.reset.wf := by
  intro k
  rw [reset_buf]
  exact Buffer.wf_empty 0 0

theorem reset_cursorsOk : State.reset.CursorsOk := by
  refine State.cursorsOk_iff.mpr ⟨?pq, ?re, ?rd⟩
  case pq => constructor <;> decide
  case re => constructor <;> decide
  case rd => constructor <;> decide

theorem reset_errorsOk : State.reset.ErrorsOk :=
  State.errorsOk_iff.mpr ⟨.of_noError nofun rfl, .of_noError nofun rfl⟩

/-- With no unit BUSY no call is running, and nothing is asked of the spaces. -/
theorem State.callsReady_of_not_busy {s : State} (h : ∀ u, s.st u ≠ .busy) : s.CallsReady :=
  State.callsReady_iff.mpr ⟨fun u hb => absurd hb (h u), fun u _ _ hu _ => absurd (owns_iff.mp hu).1 (h u)⟩

/-- Settles O42: each part of the invariant holds at reset; no call is running, since every unit is IDLE. -/
theorem safeAtReset : Obligations.SafeAtReset where
  wf := reset_wf
  cursors := reset_cursorsOk
  errors := reset_errorsOk
  ready := State.callsReady_of_not_busy fun u => by rw [reset_st]; nofun

end Sys2Proof.Machine
